-- ==== Sys2Proof/Word.lean ====
section
/-! DEFINITION. The word types of the block: a byte of `MEM`, the 32-bit command word and window
registers, and the 64-bit operands, result and accumulators (00_scope.md rules R8 and R9). -/

namespace Sys2Proof

/-- One byte of `MEM` (20_memory.md rule R50). -/
abbrev Byte := BitVec 8

/-- A 32-bit pattern: the command word, a window register, a limited value (rule R8). -/
abbrev Word32 := BitVec 32

/-- A 64-bit pattern: an operand, a result, a `pending` register (rule R8). -/
abbrev Word64 := BitVec 64

/-- A bit count: the width of `valid`, of the command field `n` and of `L[i].bits` (rules R20, R81). -/
abbrev Count6 := BitVec 6

/-- The index of a Limit register, as the command fields `la` and `lb` carry it (rule R81). -/
abbrev LimIdx := BitVec 4

end Sys2Proof
end

