-- ==== Sys2Proof/Syntax.lean ====
section
/-! DEFINITION. The commands of the block: the command triple as the host presents it and `Instr`, one
constructor for each row of spec/opcode_table.json (30_encoding.md rules R80 to R83). A constructor carries
the fields of the command word its row uses and the operands `A`, `B` its row reads, whole; an operand the
row ignores (rule R85) is not carried, so no meaning can depend on it. -/

namespace Sys2Proof

/-- A command on the command port: the command word and the two operands (rule R80). -/
structure Command where
  cmd : Word32
  a : Word64
  b : Word64
  deriving DecidableEq, Repr

/-- The four widths of a whole-type value, by the width code `wd` of rule R81. -/
inductive Width where
  | w8
  | w16
  | w32
  | w64
  deriving DecidableEq, Repr

/-- The status registers of 10_state.md rule R30, by name. -/
inductive StatReg where
  | cfg
  | memsz
  | wBase
  | wCap
  | wCount
  | wValid
  | wFault
  | rBase
  | rCap
  | rCount
  | rValid
  | rFault
  deriving DecidableEq, Repr

/-- The 46 commands of rule R83. `la`, `lb` and `n` are fields of the command word, `a` and `b` the
operands. -/
inductive Instr where
  -- global commands
  | limSet (la : LimIdx) (a b : Word64)
  | limGetMin (la : LimIdx)
  | limGetMax (la : LimIdx)
  | limGetBits (la : LimIdx)
  | statRd (reg : StatReg)
  -- writer commands
  | wBits (n : Count6) (a : Word64)
  | wBool (a : Word64)
  | wU8 (a : Word64)
  | wU16 (a : Word64)
  | wU32 (a : Word64)
  | wU64 (a : Word64)
  | wFlush
  | wSetAt (a b : Word64)
  | wBitsCount
  | wBytesCount
  | wGetArray
  | wClear
  | wSetArray (a b : Word64)
  | wLim (la : LimIdx) (a : Word64)
  | wChgU8 (a b : Word64)
  | wChgU16 (a b : Word64)
  | wChgU32 (a b : Word64)
  | wChgU64 (a b : Word64)
  | wChgLim (la : LimIdx) (a b : Word64)
  | wDiff (la lb : LimIdx) (a b : Word64)
  -- reader commands
  | rBits (n : Count6)
  | rBool
  | rU8
  | rU16
  | rI16
  | rU32
  | rI32
  | rU64
  | rI64
  | rClear
  | rSetArray (a b : Word64)
  | rLim (la : LimIdx)
  | rChgU8 (b : Word64)
  | rChgU16 (b : Word64)
  | rChgI16 (b : Word64)
  | rChgU32 (b : Word64)
  | rChgI32 (b : Word64)
  | rChgU64 (b : Word64)
  | rChgI64 (b : Word64)
  | rChgLim (la : LimIdx) (b : Word64)
  | rDiff (la lb : LimIdx) (b : Word64)
  deriving DecidableEq, Repr

end Sys2Proof
end

