-- ==== Sys2Proof/WellFormed.lean ====
section
/-! DEFINITION. The constraints of the opcode map that the types of `Syntax.lean` do not carry
(30_encoding.md rule R82 point 4): a bit count `n` is at most 32. The other constraints (a listed status
register, a listed pair of `wd` and `sx`) hold of every term of `Instr`. -/

namespace Sys2Proof

/-- A primitive write or read moves at most 32 bits (00_scope.md rule R5, 30_encoding.md rule R86). -/
def bitCountOk (n : Count6) : Bool := n.toNat ≤ 32

/-- The term stands for a legal command word (rule R82 point 4). -/
def Instr.wellFormed : Instr → Bool
  | .wBits n _ => bitCountOk n
  | .rBits n => bitCountOk n
  | .limSet _ _ _ | .limGetMin _ | .limGetMax _ | .limGetBits _ | .statRd _ => true
  | .wBool _ | .wU8 _ | .wU16 _ | .wU32 _ | .wU64 _ | .wFlush | .wSetAt _ _ => true
  | .wBitsCount | .wBytesCount | .wGetArray | .wClear | .wSetArray _ _ | .wLim _ _ => true
  | .wChgU8 _ _ | .wChgU16 _ _ | .wChgU32 _ _ | .wChgU64 _ _ => true
  | .wChgLim _ _ _ | .wDiff _ _ _ _ => true
  | .rBool | .rU8 | .rU16 | .rI16 | .rU32 | .rI32 | .rU64 | .rI64 => true
  | .rClear | .rSetArray _ _ | .rLim _ => true
  | .rChgU8 _ | .rChgU16 _ | .rChgI16 _ | .rChgU32 _ | .rChgI32 _ | .rChgU64 _ | .rChgI64 _ => true
  | .rChgLim _ _ | .rDiff _ _ _ => true

end Sys2Proof
end

