-- ==== Sys2Proof/Decode.lean ====
section
/-! DEFINITION. The command encoding, 30_encoding.md rules R80 to R86: the six fields of the command word,
the decoder (total: every word is one of the 46 commands or illegal), the encoder, and the rows of
spec/opcode_table.json as masks and patterns. -/

namespace Sys2Proof

/-! ## The fields of the command word (rule R81) -/

/-- The command word cut into its fields, rule R81. -/
structure Fields where
  op : BitVec 8
  n : BitVec 6
  wd : BitVec 2
  la : BitVec 4
  lb : BitVec 4
  sx : BitVec 1
  zero : BitVec 7
  deriving DecidableEq, Repr

/-- The slices of rule R81. -/
def fieldsOf (cmd : Word32) : Fields where
  op := cmd.extractLsb' 0 8
  n := cmd.extractLsb' 8 6
  wd := cmd.extractLsb' 14 2
  la := cmd.extractLsb' 16 4
  lb := cmd.extractLsb' 20 4
  sx := cmd.extractLsb' 24 1
  zero := cmd.extractLsb' 25 7

/-- The command word with the given fields, rule R81. -/
def packFields (f : Fields) : Word32 :=
  f.zero ++ f.sx ++ f.lb ++ f.la ++ f.wd ++ f.n ++ f.op

/-! ## The decoder (rules R82, R83) -/

/-- Format `F0` uses `op` only; formats `FN`, `FT`, `FL`, `FLL` use the fields named here. A field the
format does not use must be zero (rule R82 point 3). -/
structure Uses where
  n : Bool := false
  wd : Bool := false
  la : Bool := false
  lb : Bool := false
  sx : Bool := false
  deriving DecidableEq, Repr

/-- Every field outside the uses is zero (rule R82 point 3). -/
def unusedZero (u : Uses) (f : Fields) : Bool :=
  (u.n || f.n == 0) && (u.wd || f.wd == 0) && (u.la || f.la == 0) && (u.lb || f.lb == 0)
    && (u.sx || f.sx == 0)

/-- Accept the term when the unused fields are zero (rule R82 point 3). -/
def withFormat (u : Uses) (f : Fields) (i : Option Instr) : Option Instr :=
  if unusedZero u f then i else none

/-- The sub-formats of rule R81. -/
def formatF0 : Uses := {}
/-- Format `FN` of rule R81. -/
def formatFN : Uses := { n := true }
/-- Format `FT` of rule R81 for writer opcodes, where `sx` must be zero (rule R86). -/
def formatFTw : Uses := { wd := true }
/-- Format `FT` of rule R81 for reader opcodes. -/
def formatFTr : Uses := { wd := true, sx := true }
/-- Format `FL` of rule R81. -/
def formatFL : Uses := { la := true }
/-- Format `FLN` of rule R81. -/
def formatFLN : Uses := { la := true, n := true }
/-- Format `FLL` of rule R81. -/
def formatFLL : Uses := { la := true, lb := true }

/-- The status register with number `n`, 10_state.md rule R30; the other numbers are illegal. -/
def statReg (n : BitVec 6) : Option StatReg :=
  match n.toNat with
  | 0 => some .cfg
  | 1 => some .memsz
  | 8 => some .wBase
  | 9 => some .wCap
  | 10 => some .wCount
  | 11 => some .wValid
  | 12 => some .wFault
  | 16 => some .rBase
  | 17 => some .rCap
  | 18 => some .rCount
  | 19 => some .rValid
  | 20 => some .rFault
  | _ => none

/-- The selector `n` of opcode 0x02 (rule R83). -/
def limGet (n : BitVec 6) (la : LimIdx) : Option Instr :=
  match n.toNat with
  | 0 => some (.limGetMin la)
  | 1 => some (.limGetMax la)
  | 2 => some (.limGetBits la)
  | _ => none

/-- A bit count above 32 is illegal (rule R86). -/
def withCount (n : BitVec 6) (i : Instr) : Option Instr :=
  if bitCountOk n then some i else none

/-- The width code of opcode 0x12 (rules R81, R83). -/
def writeWholeOf (wd : BitVec 2) (a : Word64) : Option Instr :=
  match wd.toNat with
  | 0 => some (.wU8 a)
  | 1 => some (.wU16 a)
  | 2 => some (.wU32 a)
  | _ => some (.wU64 a)

/-- The width code of opcode 0x1B (rules R81, R83). -/
def writeChangedOf (wd : BitVec 2) (a b : Word64) : Option Instr :=
  match wd.toNat with
  | 0 => some (.wChgU8 a b)
  | 1 => some (.wChgU16 a b)
  | 2 => some (.wChgU32 a b)
  | _ => some (.wChgU64 a b)

/-- The pair (`wd`, `sx`) of opcode 0x22; (0, 1) is not in the map (rules R83, R86). -/
def readWholeOf (wd : BitVec 2) (sx : BitVec 1) : Option Instr :=
  match wd.toNat, sx.toNat with
  | 0, 0 => some .rU8
  | 1, 0 => some .rU16
  | 1, 1 => some .rI16
  | 2, 0 => some .rU32
  | 2, 1 => some .rI32
  | 3, 0 => some .rU64
  | 3, 1 => some .rI64
  | _, _ => none

/-- The pair (`wd`, `sx`) of opcode 0x2B; (0, 1) is not in the map (rules R83, R86). -/
def readChangedOf (wd : BitVec 2) (sx : BitVec 1) (b : Word64) : Option Instr :=
  match wd.toNat, sx.toNat with
  | 0, 0 => some (.rChgU8 b)
  | 1, 0 => some (.rChgU16 b)
  | 1, 1 => some (.rChgI16 b)
  | 2, 0 => some (.rChgU32 b)
  | 2, 1 => some (.rChgI32 b)
  | 3, 0 => some (.rChgU64 b)
  | 3, 1 => some (.rChgI64 b)
  | _, _ => none

/-- The opcode map of rule R83 over the fields; `none` where the map has no row. -/
def decodeFields (f : Fields) (a b : Word64) : Option Instr :=
  match f.op.toNat with
  | 0x01 => withFormat formatFL f (some (.limSet f.la a b))
  | 0x02 => withFormat formatFLN f (limGet f.n f.la)
  | 0x03 => withFormat formatFN f ((statReg f.n).map .statRd)
  | 0x10 => withFormat formatFN f (withCount f.n (.wBits f.n a))
  | 0x11 => withFormat formatF0 f (some (.wBool a))
  | 0x12 => withFormat formatFTw f (writeWholeOf f.wd a)
  | 0x13 => withFormat formatF0 f (some .wFlush)
  | 0x14 => withFormat formatF0 f (some (.wSetAt a b))
  | 0x15 => withFormat formatF0 f (some .wBitsCount)
  | 0x16 => withFormat formatF0 f (some .wBytesCount)
  | 0x17 => withFormat formatF0 f (some .wGetArray)
  | 0x18 => withFormat formatF0 f (some .wClear)
  | 0x19 => withFormat formatF0 f (some (.wSetArray a b))
  | 0x1A => withFormat formatFL f (some (.wLim f.la a))
  | 0x1B => withFormat formatFTw f (writeChangedOf f.wd a b)
  | 0x1C => withFormat formatFL f (some (.wChgLim f.la a b))
  | 0x1D => withFormat formatFLL f (some (.wDiff f.la f.lb a b))
  | 0x20 => withFormat formatFN f (withCount f.n (.rBits f.n))
  | 0x21 => withFormat formatF0 f (some .rBool)
  | 0x22 => withFormat formatFTr f (readWholeOf f.wd f.sx)
  | 0x28 => withFormat formatF0 f (some .rClear)
  | 0x29 => withFormat formatF0 f (some (.rSetArray a b))
  | 0x2A => withFormat formatFL f (some (.rLim f.la))
  | 0x2B => withFormat formatFTr f (readChangedOf f.wd f.sx b)
  | 0x2C => withFormat formatFL f (some (.rChgLim f.la b))
  | 0x2D => withFormat formatFLL f (some (.rDiff f.la f.lb b))
  | _ => none

/-- Decoding, rule R82: the command a triple stands for, `none` when its word is illegal. -/
def decode (c : Command) : Option Instr :=
  let f := fieldsOf c.cmd
  if f.zero = 0 then decodeFields f c.a c.b else none

/-- The command on the port whose bits are `w`, cut off above bit `nbits`: the command word is bits 31..0,
operand `A` bits 95..32, operand `B` bits 159..96 (rule R80; DESIGN CHOICE, notes/assumptions/6.md). -/
def commandOfBits (nbits w : Nat) : Command :=
  let x := w % 2 ^ nbits
  { cmd := BitVec.ofNat 32 x, a := BitVec.ofNat 64 (x >>> 32), b := BitVec.ofNat 64 (x >>> 96) }

/-- The instruction the decoder reads from the command whose bits are `w`. -/
def decodeTableWord (nbits w : Nat) : Option Instr := decode (commandOfBits nbits w)

/-! ## The encoder -/

/-- The number of a status register, 10_state.md rule R30. -/
def statNumber : StatReg → BitVec 6
  | .cfg => 0
  | .memsz => 1
  | .wBase => 8
  | .wCap => 9
  | .wCount => 10
  | .wValid => 11
  | .wFault => 12
  | .rBase => 16
  | .rCap => 17
  | .rCount => 18
  | .rValid => 19
  | .rFault => 20

/-- The command word with opcode `op` and the given fields, the others zero. -/
def wordFields (op : BitVec 8) (n : BitVec 6 := 0) (wd : BitVec 2 := 0) (la : BitVec 4 := 0)
    (lb : BitVec 4 := 0) (sx : BitVec 1 := 0) : Fields :=
  { op := op, n := n, wd := wd, la := la, lb := lb, sx := sx, zero := 0 }

/-- The fields of a command's word, rule R83. -/
def encodeFields : Instr → Fields
  | .limSet la _ _ => wordFields 0x01 (la := la)
  | .limGetMin la => wordFields 0x02 (n := 0) (la := la)
  | .limGetMax la => wordFields 0x02 (n := 1) (la := la)
  | .limGetBits la => wordFields 0x02 (n := 2) (la := la)
  | .statRd reg => wordFields 0x03 (n := statNumber reg)
  | .wBits n _ => wordFields 0x10 (n := n)
  | .wBool _ => wordFields 0x11
  | .wU8 _ => wordFields 0x12 (wd := 0)
  | .wU16 _ => wordFields 0x12 (wd := 1)
  | .wU32 _ => wordFields 0x12 (wd := 2)
  | .wU64 _ => wordFields 0x12 (wd := 3)
  | .wFlush => wordFields 0x13
  | .wSetAt _ _ => wordFields 0x14
  | .wBitsCount => wordFields 0x15
  | .wBytesCount => wordFields 0x16
  | .wGetArray => wordFields 0x17
  | .wClear => wordFields 0x18
  | .wSetArray _ _ => wordFields 0x19
  | .wLim la _ => wordFields 0x1A (la := la)
  | .wChgU8 _ _ => wordFields 0x1B (wd := 0)
  | .wChgU16 _ _ => wordFields 0x1B (wd := 1)
  | .wChgU32 _ _ => wordFields 0x1B (wd := 2)
  | .wChgU64 _ _ => wordFields 0x1B (wd := 3)
  | .wChgLim la _ _ => wordFields 0x1C (la := la)
  | .wDiff la lb _ _ => wordFields 0x1D (la := la) (lb := lb)
  | .rBits n => wordFields 0x20 (n := n)
  | .rBool => wordFields 0x21
  | .rU8 => wordFields 0x22 (wd := 0)
  | .rU16 => wordFields 0x22 (wd := 1)
  | .rI16 => wordFields 0x22 (wd := 1) (sx := 1)
  | .rU32 => wordFields 0x22 (wd := 2)
  | .rI32 => wordFields 0x22 (wd := 2) (sx := 1)
  | .rU64 => wordFields 0x22 (wd := 3)
  | .rI64 => wordFields 0x22 (wd := 3) (sx := 1)
  | .rClear => wordFields 0x28
  | .rSetArray _ _ => wordFields 0x29
  | .rLim la => wordFields 0x2A (la := la)
  | .rChgU8 _ => wordFields 0x2B (wd := 0)
  | .rChgU16 _ => wordFields 0x2B (wd := 1)
  | .rChgI16 _ => wordFields 0x2B (wd := 1) (sx := 1)
  | .rChgU32 _ => wordFields 0x2B (wd := 2)
  | .rChgI32 _ => wordFields 0x2B (wd := 2) (sx := 1)
  | .rChgU64 _ => wordFields 0x2B (wd := 3)
  | .rChgI64 _ => wordFields 0x2B (wd := 3) (sx := 1)
  | .rChgLim la _ => wordFields 0x2C (la := la)
  | .rDiff la lb _ => wordFields 0x2D (la := la) (lb := lb)

/-- The operands `A`, `B` of a command; an operand it ignores is encoded as 0 (rule R85). -/
def encodeOperands : Instr → Word64 × Word64
  | .limSet _ a b | .wSetAt a b | .wSetArray a b | .rSetArray a b => (a, b)
  | .wChgU8 a b | .wChgU16 a b | .wChgU32 a b | .wChgU64 a b => (a, b)
  | .wChgLim _ a b | .wDiff _ _ a b => (a, b)
  | .wBits _ a | .wBool a | .wU8 a | .wU16 a | .wU32 a | .wU64 a | .wLim _ a => (a, 0)
  | .rChgU8 b | .rChgU16 b | .rChgI16 b | .rChgU32 b | .rChgI32 b | .rChgU64 b | .rChgI64 b => (0, b)
  | .rChgLim _ b | .rDiff _ _ b => (0, b)
  | .limGetMin _ | .limGetMax _ | .limGetBits _ | .statRd _ => (0, 0)
  | .wFlush | .wBitsCount | .wBytesCount | .wGetArray | .wClear => (0, 0)
  | .rBits _ | .rBool | .rU8 | .rU16 | .rI16 | .rU32 | .rI32 | .rU64 | .rI64 => (0, 0)
  | .rClear | .rLim _ => (0, 0)

/-- The command triple of an instruction (rules R80 to R83, R85). -/
def encode (i : Instr) : Command :=
  { cmd := packFields (encodeFields i), a := (encodeOperands i).1, b := (encodeOperands i).2 }

/-! ## The rows of spec/opcode_table.json -/

/-- The row's `mask` and `match`, as spec/opcode_table.json writes them. -/
def tableRow : Instr → Word32 × Word32
  | .limSet _ _ _ => (0xFFF0FFFF, 0x00000001)
  | .limGetMin _ => (0xFFF0FFFF, 0x00000002)
  | .limGetMax _ => (0xFFF0FFFF, 0x00000102)
  | .limGetBits _ => (0xFFF0FFFF, 0x00000202)
  | .statRd _ => (0xFFFFC0FF, 0x00000003)
  | .wBits _ _ => (0xFFFFC0FF, 0x00000010)
  | .wBool _ => (0xFFFFFFFF, 0x00000011)
  | .wU8 _ => (0xFFFFFFFF, 0x00000012)
  | .wU16 _ => (0xFFFFFFFF, 0x00004012)
  | .wU32 _ => (0xFFFFFFFF, 0x00008012)
  | .wU64 _ => (0xFFFFFFFF, 0x0000C012)
  | .wFlush => (0xFFFFFFFF, 0x00000013)
  | .wSetAt _ _ => (0xFFFFFFFF, 0x00000014)
  | .wBitsCount => (0xFFFFFFFF, 0x00000015)
  | .wBytesCount => (0xFFFFFFFF, 0x00000016)
  | .wGetArray => (0xFFFFFFFF, 0x00000017)
  | .wClear => (0xFFFFFFFF, 0x00000018)
  | .wSetArray _ _ => (0xFFFFFFFF, 0x00000019)
  | .wLim _ _ => (0xFFF0FFFF, 0x0000001A)
  | .wChgU8 _ _ => (0xFFFFFFFF, 0x0000001B)
  | .wChgU16 _ _ => (0xFFFFFFFF, 0x0000401B)
  | .wChgU32 _ _ => (0xFFFFFFFF, 0x0000801B)
  | .wChgU64 _ _ => (0xFFFFFFFF, 0x0000C01B)
  | .wChgLim _ _ _ => (0xFFF0FFFF, 0x0000001C)
  | .wDiff _ _ _ _ => (0xFF00FFFF, 0x0000001D)
  | .rBits _ => (0xFFFFC0FF, 0x00000020)
  | .rBool => (0xFFFFFFFF, 0x00000021)
  | .rU8 => (0xFFFFFFFF, 0x00000022)
  | .rU16 => (0xFFFFFFFF, 0x00004022)
  | .rI16 => (0xFFFFFFFF, 0x01004022)
  | .rU32 => (0xFFFFFFFF, 0x00008022)
  | .rI32 => (0xFFFFFFFF, 0x01008022)
  | .rU64 => (0xFFFFFFFF, 0x0000C022)
  | .rI64 => (0xFFFFFFFF, 0x0100C022)
  | .rClear => (0xFFFFFFFF, 0x00000028)
  | .rSetArray _ _ => (0xFFFFFFFF, 0x00000029)
  | .rLim _ => (0xFFF0FFFF, 0x0000002A)
  | .rChgU8 _ => (0xFFFFFFFF, 0x0000002B)
  | .rChgU16 _ => (0xFFFFFFFF, 0x0000402B)
  | .rChgI16 _ => (0xFFFFFFFF, 0x0100402B)
  | .rChgU32 _ => (0xFFFFFFFF, 0x0000802B)
  | .rChgI32 _ => (0xFFFFFFFF, 0x0100802B)
  | .rChgU64 _ => (0xFFFFFFFF, 0x0000C02B)
  | .rChgI64 _ => (0xFFFFFFFF, 0x0100C02B)
  | .rChgLim _ _ => (0xFFF0FFFF, 0x0000002C)
  | .rDiff _ _ _ => (0xFF00FFFF, 0x0000002D)

end Sys2Proof
end

