-- ==== Sys2Proof/Config.lean ====
section
/-! DEFINITION. What an instance fixes (00_scope.md rule R8: `RANGE_CHECK` and `MEM_BYTES`) and the free
values the spec leaves open (60_exceptions.md rule R223, 20_memory.md rule R60). A free value is an opaque
constant: nothing can be proved of the value it gives. -/

namespace Sys2Proof

/-- The two OPEN parameters of an instance (rule R8, decisions D10 and D19). They are carried by the state
and no step changes them, so that a statement about every state is a statement about every instance. -/
structure Params where
  /-- `RANGE_CHECK`: whether the range check of policy 1 is made (43_limit.md rule R189). -/
  rangeCheck : Bool
  /-- `MEM_BYTES`: the size of `MEM` in bytes, 1 to 2^32 (20_memory.md rule R50). -/
  memBytes : Nat
  deriving DecidableEq, Repr

/-- The parameter values rule R8 allows. -/
abbrev Params.wf (p : Params) : Prop := 1 ≤ p.memBytes ∧ p.memBytes ≤ 2 ^ 32

/-- The instance `State.reset` stands for: the spec's recommended `RANGE_CHECK` and the largest memory.
DESIGN CHOICE, unsafe: notes/assumptions/3.md. -/
def Config.resetParams : Params := { rangeCheck := true, memBytes := 2 ^ 32 }

/-- What a byte of `MEM` nothing has written since the reset numbered `epoch` holds: one draw per byte,
stable until it is written (20_memory.md rule R60; free value, notes/assumptions/1.md). -/
opaque Config.unwrittenByte : (epoch : Nat) → (addr : Nat) → Byte

/-- `U.pending` after an imprecise fault (60_exceptions.md rule R223; free value, notes/assumptions/2.md). -/
opaque Config.freePending : (draw : Nat) → Word64

/-- `U.valid` after an imprecise fault (60_exceptions.md rule R223; free value, notes/assumptions/2.md). -/
opaque Config.freeValid : (draw : Nat) → Count6

/-- `U.count` after an imprecise fault (60_exceptions.md rule R223; free value, notes/assumptions/2.md). -/
opaque Config.freeCount : (draw : Nat) → Word32

/-- A window byte at or above the starting count after an imprecise fault of the writer
(60_exceptions.md rule R223; free value, notes/assumptions/2.md). -/
opaque Config.freeByte : (draw : Nat) → (addr : Nat) → Byte

end Sys2Proof
end

