-- ==== Sys2Proof/Machine/State.lean ====
section
/-! DEFINITION. The state of one instance of the block, as plain data (10_state.md rule R20), the causes a
command can report, the reasons a step can stop, and the machine right after reset (rule R34). -/

namespace Sys2Proof.Machine

/-- The two units: the writer `W` and the reader `R` (00_scope.md rule R1). -/
inductive UnitId where
  | w
  | r
  deriving DecidableEq, Repr

/-- The seven fault causes of 60_exceptions.md rule R220. They are answers of the block (`ok = 0`), after
which it goes on; they are not reasons for a step to stop. -/
inductive Cause where
  | capacity
  | unflushed
  | backpatch
  | range
  | illegal
  | limit
  | bind
  deriving DecidableEq, Repr

/-- The registers of one unit: its accumulator (`pending`, `valid`), its window (`base`, `cap`, `count`) and
its fault latch (10_state.md rules R20 to R22, R24, R26). -/
structure BitUnit where
  pending : Word64
  valid : Count6
  base : Word32
  cap : Word32
  count : Word32
  fault : Bool
  cause : BitVec 4
  deriving DecidableEq, Repr

/-- One Limit register (10_state.md rule R25). `min` and `max` are signed 32-bit patterns. -/
structure Limit where
  ok : Bool
  min : Word32
  max : Word32
  bits : Count6
  deriving DecidableEq, Repr

/-- One response on the response port (30_encoding.md rule R80). `res` is `none` where `RES` carries no
information: when `ok = 0`, and for a command that returns nothing. -/
structure Response where
  ok : Bool
  cause : BitVec 4
  res : Option Word64
  deriving DecidableEq, Repr

/-- What the host may do to the block, one event at a time, between commands (70_reset_and_hazards.md rule
R266): issue a command, reset the block (rule R250), write a byte of `MEM` (20_memory.md rule R61). -/
inductive HostEvent where
  | command (c : Command)
  | reset
  | store (addr : Word32) (value : Byte)
  deriving DecidableEq, Repr

/-- The bytes of `MEM` that have been written since reset, by address, strictly rising. An address that is
not listed has not been written and holds no known value (20_memory.md rule R60). -/
abbrev Memory := List Host.Cell

/-- The form in which a memory is kept: addresses strictly rising. No entry can repeat what an unlisted
address reads as, since that is no fixed value (20_memory.md rule R60; notes/assumptions/1.md). -/
abbrev Memory.wf (m : Memory) : Prop := m.Pairwise fun p q => p.1 < q.1

/-- The state of one instance. `w`, `r`, `lim` and `mem` are the whole architectural state (10_state.md rule
R20); `params` are the instance's parameters, which no step changes (rule R33); the last four fields are the
model's own (notes/assumptions/5.md and 12.md). -/
structure State where
  /-- `RANGE_CHECK` and `MEM_BYTES` (00_scope.md rule R8). -/
  params : Params
  /-- The writer unit. -/
  w : BitUnit
  /-- The reader unit. -/
  r : BitUnit
  /-- The Limit register file `L[0]` to `L[15]`. -/
  lim : Vector Limit 16
  /-- The byte memory `MEM`. -/
  mem : Memory
  /-- The model's: how many reset events there have been, which numbers the draws of unwritten bytes. -/
  memEpoch : Nat
  /-- The model's: how many imprecise faults have drawn unspecified values. -/
  draws : Nat
  /-- The model's: what the host does next, in order (10_state.md rule R28). -/
  inbox : List HostEvent
  /-- The model's: the responses the host has had, oldest first (70_reset_and_hazards.md rule R267). -/
  responses : List Response
  deriving DecidableEq, Repr

/-- Why a step can stop. -/
inductive Fault where
  /-- Raised by an access of the block, or a host write, to an address `MEM` does not have (20_memory.md rule
  R50). Safe: the spec gives no such byte, and no command does it from a well-formed state. -/
  | noSuchAddress (addr : Nat)
  deriving DecidableEq, Repr

/-- Why a step can refuse an instruction. -/
inductive Refusal where
  /-- Raised by `exec` for an instruction the model gives no meaning. Safe: nothing is claimed of it. No arm
  of `exec` raises it: every command has its meaning. -/
  | notModelled (mnemonic : String)
  deriving DecidableEq, Repr

/-- A unit right after reset: an empty window, an empty accumulator, a clear latch (10_state.md rule R34). -/
def BitUnit.reset : BitUnit where
  pending := 0
  valid := 0
  base := 0
  cap := 0
  count := 0
  fault := false
  cause := 0

/-- A Limit register right after reset: `ok = 0` (10_state.md rule R34). The other fields are unspecified and
unobservable; zero is a DESIGN CHOICE, unsafe (notes/assumptions/4.md). -/
def Limit.reset : Limit where
  ok := false
  min := 0
  max := 0
  bits := 0

/-- An instance with the given parameters right after reset (10_state.md rule R34): no byte of `MEM` has been
written, and the host has done nothing yet. -/
def State.resetWith (p : Params) : State where
  params := p
  w := BitUnit.reset
  r := BitUnit.reset
  lim := Vector.replicate 16 Limit.reset
  mem := []
  memEpoch := 0
  draws := 0
  inbox := []
  responses := []

/-- The machine right after reset (10_state.md rule R34), for the instance `Config.resetParams`. -/
def State.reset : State := State.resetWith Config.resetParams

end Sys2Proof.Machine
end

