-- ==== Sys2Proof/Machine/Operands.lean ====
section
/-! DEFINITION. Every operand form of 30_encoding.md rule R85, the extensions of 00_scope.md rule R9, and the
mask table of 40_accumulator_and_control.md rule R110. -/

namespace Sys2Proof.Machine

/-- `MASK[n]`, the `n` low bits set; 33 entries, a constant (10_state.md rule R23, rule R110). -/
def mask (n : Count6) : Word32 := BitVec.ofNat 32 (2 ^ n.toNat - 1)

/-- `ceil8(n)`, 00_scope.md rule R9. -/
def ceil8 (n : Nat) : Nat := (n + 7) / 8

/-- The width in bits of a whole-type value, `8 << wd` (rule R81). -/
def widthBits : Width → Nat
  | .w8 => 8
  | .w16 => 16
  | .w32 => 32
  | .w64 => 64

/-- The width in bytes of a whole-type value. -/
def widthBytes : Width → Nat
  | .w8 => 1
  | .w16 => 2
  | .w32 => 4
  | .w64 => 8

/-- The width in bits as a bit count of the accumulator primitives; only widths up to 32 use it. -/
def widthCount (wd : Width) : Count6 := BitVec.ofNat 6 (widthBits wd)

/-- `v[31:0]`. -/
def low32 (v : Word64) : Word32 := v.extractLsb' 0 32

/-- `v[63:32]`. -/
def high32 (v : Word64) : Word32 := v.extractLsb' 32 32

/-- `v[7:0]`. -/
def low8 (v : Word64) : Byte := v.extractLsb' 0 8

/-- `v[width-1:0]`, the whole-type operand; higher bits are ignored (rule R85). -/
def wholeOperand (wd : Width) (v : Word64) : Word64 := (v.setWidth (widthBits wd)).setWidth 64

/-- A boolean operand is bit 0; other bits are ignored (rule R85). -/
def boolOperand (v : Word64) : Bool := v.getLsbD 0

/-- A limited value, a baseline of the limited policies, `min` and `max`: `int_32` of the low 32 bits (rule
R85). -/
def limitedOperand (v : Word64) : Int := (low32 v).toInt

/-- A bit position: all 64 bits, unsigned (rule R85). -/
def positionOperand (v : Word64) : Nat := v.toNat

/-- `trunc_32(i)` of an exact integer (00_scope.md rule R9). -/
def trunc32 (i : Int) : Word32 := BitVec.ofInt 32 i

/-- `zext_64` of a 32-bit pattern (00_scope.md rule R9). -/
def zext64 (v : Word32) : Word64 := v.setWidth 64

/-- `sext_64` of a 32-bit pattern (00_scope.md rule R9). -/
def sext64 (v : Word32) : Word64 := v.signExtend 64

/-- A count as a result: `zext_64` of an exact number (rule R85). -/
def countResult (n : Nat) : Word64 := BitVec.ofNat 64 n

/-- A one-bit field of the stream. -/
def bitField (b : Bool) : Word32 := if b then 1 else 0

/-- The whole-type result: the low `width` bits, sign-extended when `sx = 1`, else zero-extended (rules R85,
R162). -/
def extendWhole (wd : Width) (sx : Bool) (v : Word64) : Word64 :=
  if sx then (v.setWidth (widthBits wd)).signExtend 64 else (v.setWidth (widthBits wd)).setWidth 64

end Sys2Proof.Machine
end

