-- ==== Sys2Proof/Machine/Flags.lean ====
section
/-! DEFINITION. The one-bit facts of the block. It has no condition codes (10_state.md rule R29): what stands
here are the cause codes and the fault status word (rules R26, R30), and the flags the policies put in the
stream (44_delta.md). -/

namespace Sys2Proof.Machine

/-- The codes of 60_exceptions.md rule R220; codes 8 to 15 are never produced, and 0 means no fault. -/
def causeCode : Cause → BitVec 4
  | .capacity => 1
  | .unflushed => 2
  | .backpatch => 3
  | .range => 4
  | .illegal => 5
  | .limit => 6
  | .bind => 7

/-- The status word `U_FAULT`: bit 0 is `fault`, bits 7..4 are `cause` (10_state.md rule R30). -/
def faultWord (x : BitUnit) : Word64 := (x.cause.setWidth 64 <<< 4) ||| (if x.fault then 1 else 0)

/-- The changed flag of policy 2: the operands differ at the given width (44_delta.md rules R196 to R199). -/
def wholeChanged (wd : Width) (updated baseline : Word64) : Bool :=
  updated.setWidth (widthBits wd) != baseline.setWidth (widthBits wd)

/-- The changed flag of policies 3 and 4 (44_delta.md rules R208, R210). -/
def limitedChanged (updated baseline : Int) : Bool := updated != baseline

/-- The value is inside the Limit, bounds included (43_limit.md rule R185). -/
def inLimit (l : Limit) (v : Int) : Bool := decide (l.min.toInt ≤ v) && decide (v ≤ l.max.toInt)

/-- The difference is eligible: strictly inside the Limit on both sides (44_delta.md rules R210, R212). -/
def diffEligible (l : Limit) (d : Int) : Bool := decide (l.min.toInt < d) && decide (d < l.max.toInt)

end Sys2Proof.Machine
end

