-- ==== Sys2Proof/Machine/Ops.lean ====
section
/-! DEFINITION. The named operations the meanings share: access to the units, the Limit file and `MEM`; the
Byte Buffer and accumulator primitives; raising a fault, the one shared operation of taking an exception
(60_exceptions.md rules R222, R223), and leaving the faulted state beside it (rule R233); the command wrapper
(40_accumulator_and_control.md rule R118); and the host's own events. -/

namespace Sys2Proof.Machine

/-! ## Registers -/

/-- The registers of a unit. -/
def State.unit (s : State) : UnitId → BitUnit
  | .w => s.w
  | .r => s.r

/-- The state with a unit's registers replaced. -/
def State.setUnit (s : State) : UnitId → BitUnit → State
  | .w, x => { s with w := x }
  | .r, x => { s with r := x }

/-- `L[i]` read (00_scope.md rule R10). -/
def State.limit (s : State) (i : LimIdx) : Limit := s.lim[i.toNat]'i.isLt

/-- `L[i] <- v` (00_scope.md rule R10). -/
def State.setLimit (s : State) (i : LimIdx) (v : Limit) : State :=
  { s with lim := s.lim.set i.toNat v i.isLt }

/-- The response ends the command and goes to the host (30_encoding.md rule R80). -/
def State.respond (s : State) (x : Response) : State := { s with responses := s.responses ++ [x] }

/-! ## The byte memory -/

/-- The byte at an address, if one has been written. -/
def memLookup : Memory → Nat → Option Byte
  | [], _ => none
  | (x, v) :: m, a => if x = a then some v else memLookup m a

/-- The memory with one byte written, in the same form. -/
def memWriteByte : Memory → Nat → Byte → Memory
  | [], a, b => [(a, b)]
  | (x, v) :: m, a, b =>
    if a < x then (a, b) :: (x, v) :: m
    else if a = x then (a, b) :: m
    else (x, v) :: memWriteByte m a b

/-- `MEM[a]`: the byte written there, or the draw for a byte nothing has written (20_memory.md rule R60). -/
def State.byteAt (s : State) (a : Nat) : Byte := (memLookup s.mem a).getD (Config.unwrittenByte s.memEpoch a)

/-- The `n` bytes from an address as one number, least significant byte first (20_memory.md rule R52). -/
def readBytes (s : State) (addr : Nat) : Nat → Word64
  | 0 => 0
  | n + 1 => (s.byteAt addr).setWidth 64 ||| (readBytes s (addr + 1) n <<< 8)

/-- The low `n` bytes of a value stored from an address up, least significant byte first (20_memory.md rule
R52). -/
def writeBytes (m : Memory) (addr : Nat) (v : Word64) : Nat → Memory
  | 0 => m
  | n + 1 => writeBytes (memWriteByte m addr (low8 v)) (addr + 1) (v >>> 8) n

/-- The bytes `lo .. lo + n - 1` replaced by the free values of a draw (60_exceptions.md rule R223). -/
def memUnspecified (m : Memory) (draw lo : Nat) : Nat → Memory
  | 0 => m
  | n + 1 => memWriteByte (memUnspecified m draw lo n) (lo + n) (Config.freeByte draw (lo + n))

/-! ## Raising a fault: how the rule of a command ends early -/

/-- What ends the rule of a command before its last line. -/
inductive Abort where
  /-- `raise X(U)`, with whether the fault is precise (60_exceptions.md rules R222, R223). -/
  | latch (u : UnitId) (c : Cause) (precise : Bool)
  /-- `raise X` with no unit (60_exceptions.md rule R222). -/
  | plain (c : Cause)
  /-- An access to an address `MEM` does not have: the step stops. -/
  | missing (addr : Nat)
  deriving DecidableEq, Repr

/-- `raise X(U)`, latching: the latch is set; after an imprecise fault the unit's `pending`, `valid` and
`count`, and for the writer the window bytes from the count the command began with up to the end of the
window, take free values. The state is the one the command began with (60_exceptions.md rules R222, R223). -/
def State.latchFault (s : State) (u : UnitId) (c : Cause) (precise : Bool) : State :=
  let x := { s.unit u with fault := true, cause := causeCode c }
  if precise then s.setUnit u x
  else
    let y := { x with
      pending := Config.freePending s.draws
      valid := Config.freeValid s.draws
      count := Config.freeCount s.draws }
    let t := { s.setUnit u y with draws := s.draws + 1 }
    match u with
    | .r => t
    | .w =>
      let lo := s.w.base.toNat + s.w.count.toNat
      let hi := Nat.min (s.w.base.toNat + s.w.cap.toNat) s.params.memBytes
      { t with mem := memUnspecified s.mem s.draws lo (hi - lo) }

/-- The start of a pass in the same window: an empty accumulator, count 0, a clear latch. This is also how the
faulted state is left (10_state.md rule R35, 60_exceptions.md rule R233). -/
def BitUnit.startPass (x : BitUnit) : BitUnit :=
  { x with count := 0, pending := 0, valid := 0, fault := false, cause := 0 }

/-! ## The Byte Buffer primitives -/

/-- The `n` bytes at an address exist (20_memory.md rule R50). -/
def inMemory (s : State) (addr n : Nat) : Bool := addr + n ≤ s.params.memBytes

/-- `BBWrite(U, n, v)`, 20_memory.md rule R53: the capacity check, the store, the count. -/
def bbWrite (u : UnitId) (n : Nat) (v : Word64) (s : State) : Except Abort State :=
  let x := s.unit u
  let addr := x.base.toNat + x.count.toNat
  if x.cap.toNat < x.count.toNat + n then .error (.latch u .capacity false)
  else if inMemory s addr n then
    .ok ({ s with mem := writeBytes s.mem addr v n }.setUnit u
      { x with count := BitVec.ofNat 32 (x.count.toNat + n) })
  else .error (.missing addr)

/-- `BBRead(U, n)`, 20_memory.md rule R54: the capacity check, the load, the count. -/
def bbRead (u : UnitId) (n : Nat) (s : State) : Except Abort (Word64 × State) :=
  let x := s.unit u
  let addr := x.base.toNat + x.count.toNat
  if x.cap.toNat < x.count.toNat + n then .error (.latch u .capacity false)
  else if inMemory s addr n then
    .ok (readBytes s addr n, s.setUnit u { x with count := BitVec.ofNat 32 (x.count.toNat + n) })
  else .error (.missing addr)

/-- A byte with bit `k` set to `b` (20_memory.md rule R55). -/
def patchByte (old : Byte) (k : Nat) (b : Bool) : Byte :=
  (old &&& ~~~(1#8 <<< k)) ||| (if b then 1#8 <<< k else 0)

/-- `BBPatchBit(U, p, b)`, 20_memory.md rule R55: one bit of one byte, `count` unchanged. -/
def bbPatchBit (u : UnitId) (p : Nat) (b : Bool) (s : State) : Except Abort State :=
  let addr := (s.unit u).base.toNat + p / 8
  if inMemory s addr 1 then
    .ok { s with mem := memWriteByte s.mem addr (patchByte (s.byteAt addr) (p % 8) b) }
  else .error (.missing addr)

/-! ## The accumulator primitives -/

/-- `WPush(n, v)`, 40_accumulator_and_control.md rule R112: append the low `n` bits of `v` to the writer's
accumulator; at 32 bits or more one 32-bit word is stored. -/
def wPush (n : Count6) (v : Word32) (s : State) : Except Abort State :=
  let merged := s.w.pending ||| (zext64 (v &&& mask n) <<< s.w.valid.toNat)
  let total := s.w.valid.toNat + n.toNat
  if 32 ≤ total then do
    let s1 ← bbWrite .w 4 (zext64 (low32 merged)) s
    .ok { s1 with w := { s1.w with pending := merged >>> 32, valid := BitVec.ofNat 6 (total - 32) } }
  else .ok { s with w := { s.w with pending := merged, valid := BitVec.ofNat 6 total } }

/-- The refill of `RPop`: when fewer than `n` bits wait, a 32-bit word is fetched and placed above them
(40_accumulator_and_control.md rule R114). -/
def rRefill (n : Count6) (s : State) : Except Abort State :=
  if s.r.valid.toNat < n.toNat then do
    let (word, s1) ← bbRead .r 4 s
    .ok { s1 with r := { s1.r with
      pending := s.r.pending ||| (word <<< s.r.valid.toNat)
      valid := BitVec.ofNat 6 (s.r.valid.toNat + 32) } }
  else .ok s

/-- `RPop(n)`, 40_accumulator_and_control.md rule R114: refill if needed, take the low `n` bits. -/
def rPop (n : Count6) (s : State) : Except Abort (Word32 × State) := do
  let s1 ← rRefill n s
  .ok (low32 s1.r.pending &&& mask n, { s1 with r := { s1.r with
    pending := s1.r.pending >>> n.toNat
    valid := BitVec.ofNat 6 (s1.r.valid.toNat - n.toNat) } })

/-! ## Whole-type values -/

/-- `WriteWhole(wd, v)`, 41_bit_writer.md rule R132: the fast path when no bit is pending, else the bit path,
a 64-bit value as two halves, low half first. -/
def writeWhole (wd : Width) (v : Word64) (s : State) : Except Abort State :=
  let x := wholeOperand wd v
  if s.w.valid = 0 then bbWrite .w (widthBytes wd) x s
  else if widthBits wd ≤ 32 then wPush (widthCount wd) (low32 x) s
  else do
    let s1 ← wPush 32 (low32 x) s
    wPush 32 (high32 x) s1

/-- The value `ReadWhole` extends: the fast path when no bit waits, else the bit path (42_bit_reader.md rule
R162). -/
def readPattern (wd : Width) (s : State) : Except Abort (Word64 × State) :=
  if s.r.valid = 0 then bbRead .r (widthBytes wd) s
  else if widthBits wd ≤ 32 then do
    let (x, s1) ← rPop (widthCount wd) s
    .ok (zext64 x, s1)
  else do
    let (lo, s1) ← rPop 32 s
    let (hi, s2) ← rPop 32 s1
    .ok (zext64 lo ||| (zext64 hi <<< 32), s2)

/-- `ReadWhole(wd, sx)`, 42_bit_reader.md rule R162. -/
def readWhole (wd : Width) (sx : Bool) (s : State) : Except Abort (Word64 × State) := do
  let (x, s1) ← readPattern wd s
  .ok (extendWhole wd sx x, s1)

/-- `ReadIfChanged(wd, sx)`, 44_delta.md rule R200: one flag bit, then the value or the baseline. -/
def readIfChanged (wd : Width) (sx : Bool) (baseline : Word64) (s : State) : Except Abort (Word64 × State) := do
  let (c, s1) ← rPop 1 s
  if c = 1 then readWhole wd sx s1 else .ok (extendWhole wd sx baseline, s1)

/-- Policy 2 on the writer: a changed flag, then the value when it is 1 (44_delta.md rules R196 to R199). -/
def writeIfChanged (wd : Width) (updated baseline : Word64) (s : State) : Except Abort State := do
  let c := wholeChanged wd updated baseline
  let s1 ← wPush 1 (bitField c) s
  if c then writeWhole wd updated s1 else .ok s1

/-! ## Flush -/

/-- The loop of `W.FLUSH`, 41_bit_writer.md rule R137, at most `fuel` times around. -/
def flushLoop : (fuel : Nat) → State → Except Abort State
  | 0, s => .ok s
  | fuel + 1, s =>
    if s.w.valid = 0 then .ok s
    else do
      let s1 ← bbWrite .w 1 (s.w.pending &&& 0xFF) s
      flushLoop fuel { s1 with w := { s1.w with
        pending := s.w.pending >>> 8
        valid := BitVec.ofNat 6 (s.w.valid.toNat - 8) } }

/-- `W.FLUSH`, 41_bit_writer.md rule R137. Eight rounds empty any 6-bit `valid`. -/
def flushPending (s : State) : Except Abort State := do
  let s1 ← flushLoop 8 s
  .ok { s1 with w := { s1.w with pending := 0, valid := 0 } }

/-! ## Limits -/

/-- The least `n' ≥ n` with `size ≤ 2 ^ n'`, looked for `fuel` steps up. -/
def leastWidth (size : Nat) : (fuel n : Nat) → Nat
  | 0, n => n
  | fuel + 1, n => if size ≤ 2 ^ n then n else leastWidth size fuel (n + 1)

/-- `BitCount(min, max)`, 43_limit.md rule R180: the least bit count that holds the range; 0 to 32. -/
def bitCount (mn mx : Int) : Nat := leastWidth (mx - mn + 1).toNat 32 0

/-- `WriteLimited(i, v)`, 43_limit.md rule R185. The range check comes before the push; whether its fault is
precise is the caller's (60_exceptions.md rule R223). -/
def writeLimited (i : LimIdx) (v : Int) (precise : Bool) (s : State) : Except Abort State :=
  let l := s.limit i
  if s.params.rangeCheck && !inLimit l v then .error (.latch .w .range precise)
  else wPush l.bits (trunc32 (v - l.min.toInt)) s

/-- `ReadLimited(i)`, 43_limit.md rule R187: the field plus `min`, wrapped to a signed 32-bit pattern. -/
def readLimited (i : LimIdx) (s : State) : Except Abort (Word32 × State) := do
  let (raw, s1) ← rPop (s.limit i).bits s
  .ok (trunc32 (raw.toNat + (s.limit i).min.toInt), s1)

/-- `raise Limit` when `L[i].ok = 0` (60_exceptions.md rule R229). -/
def needLimit (i : LimIdx) (s : State) : Except Abort Unit :=
  if (s.limit i).ok then .ok () else .error (.plain .limit)

/-! ## Binding a window -/

/-- `U.SETARRAY base, cap` (41_bit_writer.md rule R145, 42_bit_reader.md rule R171): `Bind` when an operand is
above 32 bits or the window does not fit `MEM`, else a new window and the start of a pass. -/
def bindWindow (u : UnitId) (a b : Word64) (s : State) : Except Abort State :=
  if high32 a ≠ 0 ∨ high32 b ≠ 0 ∨ s.params.memBytes < (low32 a).toNat + (low32 b).toNat then
    .error (.plain .bind)
  else .ok (s.setUnit u { (s.unit u).startPass with base := low32 a, cap := low32 b })

/-! ## The command wrapper -/

/-- A response with `ok = 1` (30_encoding.md rule R80). -/
def okResponse (res : Option Word64) : Response := { ok := true, cause := 0, res := res }

/-- A response with `ok = 0` and a cause code (30_encoding.md rule R80). -/
def failResponse (cause : BitVec 4) : Response := { ok := false, cause := cause, res := none }

/-- How the rule of a command, begun in `s`, ends (40_accumulator_and_control.md rule R118, 60_exceptions.md
rule R222). -/
def complete (s : State) : Except Abort (State × Option Word64) → Host.Outcome State Fault Refusal
  | .ok (t, res) => .next (t.respond (okResponse res))
  | .error (.latch u c precise) => .next ((s.latchFault u c precise).respond (failResponse (causeCode c)))
  | .error (.plain c) => .next (s.respond (failResponse (causeCode c)))
  | .error (.missing a) => .fault (.noSuchAddress a)

/-- A rule that returns nothing. -/
def finish (s : State) (x : Except Abort State) : Host.Outcome State Fault Refusal :=
  complete s (x.map fun t => (t, none))

/-- A rule that returns a result. -/
def finishWith (s : State) (x : Except Abort (Word64 × State)) : Host.Outcome State Fault Refusal :=
  complete s (x.map fun p => (p.2, some p.1))

/-- The wrapper of a command addressed to a unit: a faulted unit refuses it with the latched cause and
nothing changes (40_accumulator_and_control.md rule R118, 60_exceptions.md rule R231). -/
def onUnit (u : UnitId) (s : State) (rule : Host.Outcome State Fault Refusal) :
    Host.Outcome State Fault Refusal :=
  if (s.unit u).fault then .next (s.respond (failResponse (s.unit u).cause)) else rule

/-- The answer to an illegal command: `Illegal`, nothing changes (60_exceptions.md rule R228). -/
def answerIllegal (s : State) : Host.Outcome State Fault Refusal :=
  .next (s.respond (failResponse (causeCode .illegal)))

/-- The legality test of a bit count, made before anything else (30_encoding.md rule R86, 60_exceptions.md
rule R234). The decoder refuses such a word, so only an ill-formed term gets the answer here. -/
def withLegalCount (n : Count6) (s : State) (rule : Host.Outcome State Fault Refusal) :
    Host.Outcome State Fault Refusal :=
  if n.toNat ≤ 32 then rule else answerIllegal s

/-! ## The host's events -/

/-- Reset (70_reset_and_hazards.md rule R250): the state of rule R34, with new draws for the bytes of `MEM`.
The parameters stay (00_scope.md rule R8), and the host's own record and plans are not the block's. -/
def State.hostReset (s : State) : State :=
  { State.resetWith s.params with
    memEpoch := s.memEpoch + 1
    draws := s.draws
    inbox := s.inbox
    responses := s.responses }

/-- The host writes a byte of `MEM` between commands (20_memory.md rule R61). -/
def State.hostStore (s : State) (addr : Word32) (b : Byte) : Host.Outcome State Fault Refusal :=
  if inMemory s addr.toNat 1 then .next { s with mem := memWriteByte s.mem addr.toNat b }
  else .fault (.noSuchAddress addr.toNat)

end Sys2Proof.Machine
end

