-- ==== Sys2Proof/Machine/Control.lean ====
section
/-! DEFINITION. The global commands: `STAT.RD` (40_accumulator_and_control.md rule R119) and the Limit
register commands (43_limit.md rules R181 to R184). They belong to no unit and are never refused
(60_exceptions.md rule R231). -/

namespace Sys2Proof.Machine

/-- The value of a status register, 10_state.md rule R30. -/
def statValue (s : State) : StatReg → Word64
  | .cfg => if s.params.rangeCheck then 1 else 0
  | .memsz => countResult s.params.memBytes
  | .wBase => zext64 s.w.base
  | .wCap => zext64 s.w.cap
  | .wCount => zext64 s.w.count
  | .wValid => s.w.valid.setWidth 64
  | .wFault => faultWord s.w
  | .rBase => zext64 s.r.base
  | .rCap => zext64 s.r.cap
  | .rCount => zext64 s.r.count
  | .rValid => s.r.valid.setWidth 64
  | .rFault => faultWord s.r

/-- `STAT.RD n`, rule R119. -/
def execStatRd (reg : StatReg) (s : State) : Host.Outcome State Fault Refusal :=
  finishWith s (.ok (statValue s reg, s))

/-- `LIM.SET Li, min, max`, rule R181. -/
def execLimSet (la : LimIdx) (a b : Word64) (s : State) : Host.Outcome State Fault Refusal :=
  finish s <|
    if limitedOperand b < limitedOperand a then .error (.plain .limit)
    else .ok (s.setLimit la
      { ok := true
        min := low32 a
        max := low32 b
        bits := BitVec.ofNat 6 (bitCount (limitedOperand a) (limitedOperand b)) })

/-- `LIM.GETMIN Li`, rule R182. -/
def execLimGetMin (la : LimIdx) (s : State) : Host.Outcome State Fault Refusal :=
  finishWith s do
    needLimit la s
    .ok (sext64 (s.limit la).min, s)

/-- `LIM.GETMAX Li`, rule R183. -/
def execLimGetMax (la : LimIdx) (s : State) : Host.Outcome State Fault Refusal :=
  finishWith s do
    needLimit la s
    .ok (sext64 (s.limit la).max, s)

/-- `LIM.GETBITS Li`, rule R184. -/
def execLimGetBits (la : LimIdx) (s : State) : Host.Outcome State Fault Refusal :=
  finishWith s do
    needLimit la s
    .ok ((s.limit la).bits.setWidth 64, s)

end Sys2Proof.Machine
end

