-- ==== Sys2Proof/Machine/Delta.lean ====
section
/-! DEFINITION. The four encode and decode policies: policy 1 (43_limit.md rules R186, R188) and policies 2, 3
and 4 (44_delta.md rules R196 to R211). -/

namespace Sys2Proof.Machine

/-! ## Policy 1: range-limited, no flag -/

/-- `W.LIM Li, v`, rule R186: its range fault comes before any push, so it is precise. -/
def execWLim (la : LimIdx) (a : Word64) (s : State) : Host.Outcome State Fault Refusal :=
  onUnit .w s <| finish s do
    needLimit la s
    writeLimited la (limitedOperand a) true s

/-- `R.LIM Li`, rule R188. -/
def execRLim (la : LimIdx) (s : State) : Host.Outcome State Fault Refusal :=
  onUnit .r s <| finishWith s do
    needLimit la s
    let (v, s1) ← readLimited la s
    .ok (sext64 v, s1)

/-! ## Policy 2: changed flag, natural width -/

/-- `W.CHG.U8 updated, baseline`, rule R196. -/
def execWChgU8 (a b : Word64) (s : State) : Host.Outcome State Fault Refusal :=
  onUnit .w s (finish s (writeIfChanged .w8 a b s))

/-- `W.CHG.U16 updated, baseline`, rule R197. -/
def execWChgU16 (a b : Word64) (s : State) : Host.Outcome State Fault Refusal :=
  onUnit .w s (finish s (writeIfChanged .w16 a b s))

/-- `W.CHG.U32 updated, baseline`, rule R198. -/
def execWChgU32 (a b : Word64) (s : State) : Host.Outcome State Fault Refusal :=
  onUnit .w s (finish s (writeIfChanged .w32 a b s))

/-- `W.CHG.U64 updated, baseline`, rule R199. -/
def execWChgU64 (a b : Word64) (s : State) : Host.Outcome State Fault Refusal :=
  onUnit .w s (finish s (writeIfChanged .w64 a b s))

/-- `R.CHG.U8 baseline`, rule R201. -/
def execRChgU8 (b : Word64) (s : State) : Host.Outcome State Fault Refusal :=
  onUnit .r s (finishWith s (readIfChanged .w8 false b s))

/-- `R.CHG.U16 baseline`, rule R202. -/
def execRChgU16 (b : Word64) (s : State) : Host.Outcome State Fault Refusal :=
  onUnit .r s (finishWith s (readIfChanged .w16 false b s))

/-- `R.CHG.I16 baseline`, rule R203. -/
def execRChgI16 (b : Word64) (s : State) : Host.Outcome State Fault Refusal :=
  onUnit .r s (finishWith s (readIfChanged .w16 true b s))

/-- `R.CHG.U32 baseline`, rule R204. -/
def execRChgU32 (b : Word64) (s : State) : Host.Outcome State Fault Refusal :=
  onUnit .r s (finishWith s (readIfChanged .w32 false b s))

/-- `R.CHG.I32 baseline`, rule R205. -/
def execRChgI32 (b : Word64) (s : State) : Host.Outcome State Fault Refusal :=
  onUnit .r s (finishWith s (readIfChanged .w32 true b s))

/-- `R.CHG.U64 baseline`, rule R206. -/
def execRChgU64 (b : Word64) (s : State) : Host.Outcome State Fault Refusal :=
  onUnit .r s (finishWith s (readIfChanged .w64 false b s))

/-- `R.CHG.I64 baseline`, rule R207. -/
def execRChgI64 (b : Word64) (s : State) : Host.Outcome State Fault Refusal :=
  onUnit .r s (finishWith s (readIfChanged .w64 true b s))

/-! ## Policy 3: changed flag, range-limited -/

/-- The rule of `W.CHGLIM Li, updated, baseline` once the Limit is known to hold, rule R208: its range fault
comes after the flag, so it is imprecise. -/
def writeLimitedIfChanged (la : LimIdx) (u b : Int) (s : State) : Except Abort State := do
  let c := limitedChanged u b
  let s1 ← wPush 1 (bitField c) s
  if c then writeLimited la u false s1 else .ok s1

/-- `W.CHGLIM Li, updated, baseline`, rule R208. -/
def execWChgLim (la : LimIdx) (a b : Word64) (s : State) : Host.Outcome State Fault Refusal :=
  onUnit .w s <| finish s do
    needLimit la s
    writeLimitedIfChanged la (limitedOperand a) (limitedOperand b) s

/-- The rule of `R.CHGLIM Li, baseline` once the Limit is known to hold, rule R209. -/
def readLimitedIfChanged (la : LimIdx) (b : Word64) (s : State) : Except Abort (Word64 × State) := do
  let (c, s1) ← rPop 1 s
  if c = 1 then
    let (v, s2) ← readLimited la s1
    .ok (sext64 v, s2)
  else .ok (sext64 (low32 b), s1)

/-- `R.CHGLIM Li, baseline`, rule R209. -/
def execRChgLim (la : LimIdx) (b : Word64) (s : State) : Host.Outcome State Fault Refusal :=
  onUnit .r s <| finishWith s do
    needLimit la s
    readLimitedIfChanged la b s

/-! ## Policy 4: changed flag, then difference or full value -/

/-- The rule of `W.DIFF Li, Lj, updated, baseline` once both Limits are known to hold, rule R210. -/
def writeDiff (la lb : LimIdx) (u b : Int) (s : State) : Except Abort State :=
  if limitedChanged u b then do
    let s1 ← wPush 1 1 s
    if diffEligible (s.limit lb) (u - b) then
      let s2 ← wPush 1 1 s1
      writeLimited lb (u - b) false s2
    else
      let s2 ← wPush 1 0 s1
      writeLimited la u false s2
  else wPush 1 0 s

/-- `W.DIFF Li, Lj, updated, baseline`, rule R210. -/
def execWDiff (la lb : LimIdx) (a b : Word64) (s : State) : Host.Outcome State Fault Refusal :=
  onUnit .w s <| finish s do
    needLimit la s
    needLimit lb s
    writeDiff la lb (limitedOperand a) (limitedOperand b) s

/-- The rule of `R.DIFF Li, Lj, baseline` once both Limits are known to hold, rule R211. -/
def readDiff (la lb : LimIdx) (b : Word64) (s : State) : Except Abort (Word64 × State) := do
  let (f1, s1) ← rPop 1 s
  if f1 = 0 then .ok (sext64 (low32 b), s1)
  else
    let (f2, s2) ← rPop 1 s1
    if f2 = 1 then
      let (d, s3) ← readLimited lb s2
      .ok (sext64 (trunc32 (limitedOperand b + d.toInt)), s3)
    else
      let (v, s3) ← readLimited la s2
      .ok (sext64 v, s3)

/-- `R.DIFF Li, Lj, baseline`, rule R211. -/
def execRDiff (la lb : LimIdx) (b : Word64) (s : State) : Host.Outcome State Fault Refusal :=
  onUnit .r s <| finishWith s do
    needLimit la s
    needLimit lb s
    readDiff la lb b s

end Sys2Proof.Machine
end

