-- ==== Sys2Proof/Machine/Reader.lean ====
section
/-! DEFINITION. The Bit Reader commands, 42_bit_reader.md rules R160 to R171. -/

namespace Sys2Proof.Machine

/-- A popped field as a result, `zext_64` of it. -/
def popResult (x : Except Abort (Word32 × State)) : Except Abort (Word64 × State) :=
  x.map fun p => (zext64 p.1, p.2)

/-- `R.BITS n`, rule R160. -/
def execRBits (n : Count6) (s : State) : Host.Outcome State Fault Refusal :=
  withLegalCount n s (onUnit .r s (finishWith s (popResult (rPop n s))))

/-- `R.BOOL`, rule R161: never a fast path. -/
def execRBool (s : State) : Host.Outcome State Fault Refusal :=
  onUnit .r s (finishWith s (popResult (rPop 1 s)))

/-- `R.U8`, rule R163. -/
def execRU8 (s : State) : Host.Outcome State Fault Refusal :=
  onUnit .r s (finishWith s (readWhole .w8 false s))

/-- `R.U16`, rule R164. -/
def execRU16 (s : State) : Host.Outcome State Fault Refusal :=
  onUnit .r s (finishWith s (readWhole .w16 false s))

/-- `R.I16`, rule R165. -/
def execRI16 (s : State) : Host.Outcome State Fault Refusal :=
  onUnit .r s (finishWith s (readWhole .w16 true s))

/-- `R.U32`, rule R166. -/
def execRU32 (s : State) : Host.Outcome State Fault Refusal :=
  onUnit .r s (finishWith s (readWhole .w32 false s))

/-- `R.I32`, rule R167. -/
def execRI32 (s : State) : Host.Outcome State Fault Refusal :=
  onUnit .r s (finishWith s (readWhole .w32 true s))

/-- `R.U64`, rule R168. -/
def execRU64 (s : State) : Host.Outcome State Fault Refusal :=
  onUnit .r s (finishWith s (readWhole .w64 false s))

/-- `R.I64`, rule R169. -/
def execRI64 (s : State) : Host.Outcome State Fault Refusal :=
  onUnit .r s (finishWith s (readWhole .w64 true s))

/-- `R.CLEAR`, rule R170: accepted by a faulted unit. -/
def execRClear (s : State) : Host.Outcome State Fault Refusal :=
  finish s (.ok { s with r := s.r.startPass })

/-- `R.SETARRAY base, cap`, rule R171: accepted by a faulted unit. -/
def execRSetArray (a b : Word64) (s : State) : Host.Outcome State Fault Refusal :=
  finish s (bindWindow .r a b s)

end Sys2Proof.Machine
end

