-- ==== Sys2Proof/Machine/Writer.lean ====
section
/-! DEFINITION. The Bit Writer commands, 41_bit_writer.md rules R130 to R145. -/

namespace Sys2Proof.Machine

/-- `W.BITS n, v`, rule R130. -/
def execWBits (n : Count6) (a : Word64) (s : State) : Host.Outcome State Fault Refusal :=
  withLegalCount n s (onUnit .w s (finish s (wPush n (low32 a) s)))

/-- `W.BOOL b`, rule R131: never a fast path. -/
def execWBool (a : Word64) (s : State) : Host.Outcome State Fault Refusal :=
  onUnit .w s (finish s (wPush 1 (bitField (boolOperand a)) s))

/-- `W.U8 v`, rule R133. -/
def execWU8 (a : Word64) (s : State) : Host.Outcome State Fault Refusal :=
  onUnit .w s (finish s (writeWhole .w8 a s))

/-- `W.U16 v`, rule R134. -/
def execWU16 (a : Word64) (s : State) : Host.Outcome State Fault Refusal :=
  onUnit .w s (finish s (writeWhole .w16 a s))

/-- `W.U32 v`, rule R135. -/
def execWU32 (a : Word64) (s : State) : Host.Outcome State Fault Refusal :=
  onUnit .w s (finish s (writeWhole .w32 a s))

/-- `W.U64 v`, rule R136. -/
def execWU64 (a : Word64) (s : State) : Host.Outcome State Fault Refusal :=
  onUnit .w s (finish s (writeWhole .w64 a s))

/-- `W.FLUSH`, rule R137. -/
def execWFlush (s : State) : Host.Outcome State Fault Refusal :=
  onUnit .w s (finish s (flushPending s))

/-- `BitsCount`, rule R141: the number of stream bits committed so far. -/
def State.bitsCount (s : State) : Nat := 8 * s.w.count.toNat + s.w.valid.toNat

/-- `BytesCount`, rule R142. -/
def State.bytesCount (s : State) : Nat := s.w.count.toNat + ceil8 s.w.valid.toNat

/-- A `pending` register with bit `k` set to `b` (rule R140). -/
def patchPending (pending : Word64) (k : Nat) (b : Bool) : Word64 :=
  (pending &&& ~~~(1#64 <<< k)) ||| (if b then 1#64 <<< k else 0)

/-- The rule of `W.SETAT p, b`, rule R140: both bounds first, then the bit where it is. -/
def setAt (p : Nat) (b : Bool) (s : State) : Except Abort State :=
  if 8 * s.w.cap.toNat ≤ p then .error (.latch .w .capacity true)
  else if s.bitsCount ≤ p then .error (.latch .w .backpatch true)
  else if p < 8 * s.w.count.toNat then bbPatchBit .w p b s
  else .ok { s with w := { s.w with pending := patchPending s.w.pending (p - 8 * s.w.count.toNat) b } }

/-- `W.SETAT p, b`, rule R140. -/
def execWSetAt (a b : Word64) (s : State) : Host.Outcome State Fault Refusal :=
  onUnit .w s (finish s (setAt (positionOperand a) (boolOperand b) s))

/-- `W.BITSCOUNT`, rule R141. -/
def execWBitsCount (s : State) : Host.Outcome State Fault Refusal :=
  onUnit .w s (finishWith s (.ok (countResult s.bitsCount, s)))

/-- `W.BYTESCOUNT`, rule R142: never faults. -/
def execWBytesCount (s : State) : Host.Outcome State Fault Refusal :=
  onUnit .w s (finishWith s (.ok (countResult s.bytesCount, s)))

/-- `W.GETARRAY`, rule R143: only when nothing is pending. -/
def execWGetArray (s : State) : Host.Outcome State Fault Refusal :=
  onUnit .w s <| finishWith s <|
    if s.w.valid ≠ 0 then .error (.latch .w .unflushed true) else .ok (zext64 s.w.base, s)

/-- `W.CLEAR`, rule R144: accepted by a faulted unit. -/
def execWClear (s : State) : Host.Outcome State Fault Refusal :=
  finish s (.ok { s with w := s.w.startPass })

/-- `W.SETARRAY base, cap`, rule R145: accepted by a faulted unit. -/
def execWSetArray (a b : Word64) (s : State) : Host.Outcome State Fault Refusal :=
  finish s (bindWindow .w a b s)

end Sys2Proof.Machine
end

