-- ==== Sys2Proof/Machine/Dispatch.lean ====
section
/-! DEFINITION. The meaning of every command, one arm per row of spec/opcode_table.json. -/

namespace Sys2Proof.Machine

def exec (i : Instr) (s : State) : Host.Outcome State Fault Refusal :=
  match i with
  | .limSet la a b => Sys2Proof.Machine.execLimSet la a b s
  | .limGetMin la => Sys2Proof.Machine.execLimGetMin la s
  | .limGetMax la => Sys2Proof.Machine.execLimGetMax la s
  | .limGetBits la => Sys2Proof.Machine.execLimGetBits la s
  | .statRd reg => Sys2Proof.Machine.execStatRd reg s
  | .wBits n a => Sys2Proof.Machine.execWBits n a s
  | .wBool a => Sys2Proof.Machine.execWBool a s
  | .wU8 a => Sys2Proof.Machine.execWU8 a s
  | .wU16 a => Sys2Proof.Machine.execWU16 a s
  | .wU32 a => Sys2Proof.Machine.execWU32 a s
  | .wU64 a => Sys2Proof.Machine.execWU64 a s
  | .wFlush => Sys2Proof.Machine.execWFlush s
  | .wSetAt a b => Sys2Proof.Machine.execWSetAt a b s
  | .wBitsCount => Sys2Proof.Machine.execWBitsCount s
  | .wBytesCount => Sys2Proof.Machine.execWBytesCount s
  | .wGetArray => Sys2Proof.Machine.execWGetArray s
  | .wClear => Sys2Proof.Machine.execWClear s
  | .wSetArray a b => Sys2Proof.Machine.execWSetArray a b s
  | .wLim la a => Sys2Proof.Machine.execWLim la a s
  | .wChgU8 a b => Sys2Proof.Machine.execWChgU8 a b s
  | .wChgU16 a b => Sys2Proof.Machine.execWChgU16 a b s
  | .wChgU32 a b => Sys2Proof.Machine.execWChgU32 a b s
  | .wChgU64 a b => Sys2Proof.Machine.execWChgU64 a b s
  | .wChgLim la a b => Sys2Proof.Machine.execWChgLim la a b s
  | .wDiff la lb a b => Sys2Proof.Machine.execWDiff la lb a b s
  | .rBits n => Sys2Proof.Machine.execRBits n s
  | .rBool => Sys2Proof.Machine.execRBool s
  | .rU8 => Sys2Proof.Machine.execRU8 s
  | .rU16 => Sys2Proof.Machine.execRU16 s
  | .rI16 => Sys2Proof.Machine.execRI16 s
  | .rU32 => Sys2Proof.Machine.execRU32 s
  | .rI32 => Sys2Proof.Machine.execRI32 s
  | .rU64 => Sys2Proof.Machine.execRU64 s
  | .rI64 => Sys2Proof.Machine.execRI64 s
  | .rClear => Sys2Proof.Machine.execRClear s
  | .rSetArray a b => Sys2Proof.Machine.execRSetArray a b s
  | .rLim la => Sys2Proof.Machine.execRLim la s
  | .rChgU8 b => Sys2Proof.Machine.execRChgU8 b s
  | .rChgU16 b => Sys2Proof.Machine.execRChgU16 b s
  | .rChgI16 b => Sys2Proof.Machine.execRChgI16 b s
  | .rChgU32 b => Sys2Proof.Machine.execRChgU32 b s
  | .rChgI32 b => Sys2Proof.Machine.execRChgI32 b s
  | .rChgU64 b => Sys2Proof.Machine.execRChgU64 b s
  | .rChgI64 b => Sys2Proof.Machine.execRChgI64 b s
  | .rChgLim la b => Sys2Proof.Machine.execRChgLim la b s
  | .rDiff la lb b => Sys2Proof.Machine.execRDiff la lb b s

end Sys2Proof.Machine
end

