-- ==== Sys2Proof/Machine/Port.lean ====
section
/-! DEFINITION. What the block does with one event of the host's: a command from the port is decoded and its
meaning runs, an illegal word is answered and nothing else happens (40_accumulator_and_control.md rule R118,
60_exceptions.md rule R228); reset and a host write of `MEM` (70_reset_and_hazards.md rules R250, R266). -/

namespace Sys2Proof.Machine

/-- One command taken from the port (rule R118). -/
def runCommand (c : Command) (s : State) : Host.Outcome State Fault Refusal :=
  match decode c with
  | some i => exec i s
  | none => answerIllegal s

/-- One event of the host's, carried out whole (00_scope.md rule R6). -/
def runEvent (e : HostEvent) (s : State) : Host.Outcome State Fault Refusal :=
  match e with
  | .command c => runCommand c s
  | .reset => .next s.hostReset
  | .store addr b => s.hostStore addr b

/-- The host's next move is to present this command. -/
def State.present (s : State) (c : Command) : State := { s with inbox := .command c :: s.inbox }

end Sys2Proof.Machine
end

