-- ==== Sys2Proof/Machine/Step.lean ====
section
/-! DEFINITION. One step: the block takes the host's next event and carries it out, whole (00_scope.md rule
R6). With no event the block is idle and nothing changes (60_exceptions.md rule R238). -/

namespace Sys2Proof.Machine

/-- One step of the machine. -/
def step (s : State) : Host.Outcome State Fault Refusal :=
  match s.inbox with
  | [] => .next s
  | e :: rest => runEvent e { s with inbox := rest }

/-- The state in which the host presents, as its very next event, the command whose bits are `w`
(notes/assumptions/5.md and 6.md). -/
def State.withFetchWord (s : State) (nbits w : Nat) : State := s.present (commandOfBits nbits w)

end Sys2Proof.Machine
end

