-- ==== Sys2Proof/Machine/Stream.lean ====
section
/-! DEFINITION. The streams as bit sequences, independent of where a bit is held: the stream of a writer pass
(30_encoding.md rule R90), the bits a reader will deliver next (rule R95), the bits of the reader's window, and
how many bytes the bit path and the fast path move (20_memory.md rule R57). The step does not use these
definitions. Statements do. -/

namespace Sys2Proof.Machine

/-- Stream bit `p` of the writer's pass: in memory below `8 * W.count`, else in `W.pending` (rule R90). -/
def State.streamBit (s : State) (p : Nat) : Bool :=
  if p < 8 * s.w.count.toNat then (s.byteAt (s.w.base.toNat + p / 8)).getLsbD (p % 8)
  else s.w.pending.getLsbD (p - 8 * s.w.count.toNat)

/-- The bit the reader delivers `j` bits from now: first those waiting in `R.pending`, then those of memory
from the cursor on (10_state.md rules R22, R32). -/
def State.nextBit (s : State) (j : Nat) : Bool :=
  if j < s.r.valid.toNat then s.r.pending.getLsbD j
  else (s.byteAt (s.r.base.toNat + s.r.count.toNat + (j - s.r.valid.toNat) / 8)).getLsbD
    ((j - s.r.valid.toNat) % 8)

/-- The field of the `k` bits that start `o` bits from now, its first bit the least significant (rule R95). -/
def State.nextField (s : State) (o : Nat) : Nat → Nat
  | 0 => 0
  | k + 1 => (s.nextBit o).toNat + 2 * s.nextField (o + 1) k

/-- Bit `p` of the reader's window, counted from `R.base` (rule R95). -/
def State.windowBit (s : State) (p : Nat) : Bool := (s.byteAt (s.r.base.toNat + p / 8)).getLsbD (p % 8)

/-- The position in the window of the next bit the reader delivers (rule R95). -/
def State.readPosition (s : State) : Nat := 8 * s.r.count.toNat - s.r.valid.toNat

/-- The bits waiting in `R.pending` are those of the window they were fetched from (10_state.md rule R22). A
write to the window after the fetch ends this (rule R32). -/
def State.ReaderInStep (s : State) : Prop :=
  s.r.valid.toNat ≤ 8 * s.r.count.toNat ∧
    ∀ k < s.r.valid.toNat, s.r.pending.getLsbD k = s.windowBit (s.readPosition + k)

/-- Bytes stored by pushes of `k` bits in all, begun with `valid` bits pending: one word each time 32 bits are
complete (40_accumulator_and_control.md rule R112). -/
def pushStores (valid k : Nat) : Nat := 4 * ((valid + k) / 32)

/-- Bytes stored by `WriteWhole` of `k` bits (41_bit_writer.md rule R132). -/
def wholeStores (valid k : Nat) : Nat := if valid = 0 then k / 8 else pushStores valid k

/-- Bytes stored by a flag 1 and a whole value of `k` bits (44_delta.md rule R213). -/
def changedStores (valid k : Nat) : Nat := if valid = 31 then 4 + k / 8 else pushStores valid (1 + k)

/-- Bytes fetched by pops of `k` bits in all, begun with `valid` bits waiting: one word each time too few wait
(40_accumulator_and_control.md rule R114). -/
def popFetches (valid k : Nat) : Nat := 4 * ((k - valid + 31) / 32)

/-- Bytes fetched by `ReadWhole` of `k` bits (42_bit_reader.md rule R162). -/
def wholeFetches (valid k : Nat) : Nat := if valid = 0 then k / 8 else popFetches valid k

/-- Bytes fetched by a flag 1 and a whole value of `k` bits (44_delta.md rule R213). -/
def changedFetches (valid k : Nat) : Nat := if valid = 1 then k / 8 else popFetches valid (1 + k)

/-- The field `WriteLimited` pushes for the value `v` (43_limit.md rules R185, R189). -/
def limitedField (l : Limit) (v : Int) : Nat := (trunc32 (v - l.min.toInt)).toNat % 2 ^ l.bits.toNat

/-- The range check refuses the value `v` for `L[i]` (43_limit.md rules R185, R189). -/
def State.OutOfRange (s : State) (i : LimIdx) (v : Int) : Prop :=
  s.params.rangeCheck = true ∧ (v < (s.limit i).min.toInt ∨ (s.limit i).max.toInt < v)

/-- The value of the limited field that starts `o` bits from now (43_limit.md rule R187). -/
def State.nextLimited (s : State) (i : LimIdx) (o : Nat) : Word32 :=
  trunc32 (s.nextField o (s.limit i).bits.toNat + (s.limit i).min.toInt)

/-- A `k`-bit pattern as a 64-bit result, sign-extended or zero-extended (30_encoding.md rule R85). -/
def extended (k : Nat) (sx : Bool) (x : Nat) : Word64 :=
  if sx then (BitVec.ofNat k x).signExtend 64 else BitVec.ofNat 64 (x % 2 ^ k)

end Sys2Proof.Machine
end

