-- ==== Sys2Proof/Safety.lean ====
section
/-! DEFINITION. The terms claims use: the unit a command is addressed to, the well-formed states (10_state.md
rule R36), clean runs (70_reset_and_hazards.md rule R267), and what a command leaves: a field appended, bits
consumed, a latched fault. -/

namespace Sys2Proof.Machine

/-! ## Commands -/

/-- The unit a command is addressed to, none for a global command (40_accumulator_and_control.md rule R118). -/
def unitOf : Instr → Option UnitId
  | .limSet _ _ _ | .limGetMin _ | .limGetMax _ | .limGetBits _ | .statRd _ => none
  | .wBits _ _ | .wBool _ | .wU8 _ | .wU16 _ | .wU32 _ | .wU64 _ | .wFlush | .wSetAt _ _ => some .w
  | .wBitsCount | .wBytesCount | .wGetArray | .wClear | .wSetArray _ _ | .wLim _ _ => some .w
  | .wChgU8 _ _ | .wChgU16 _ _ | .wChgU32 _ _ | .wChgU64 _ _ => some .w
  | .wChgLim _ _ _ | .wDiff _ _ _ _ => some .w
  | .rBits _ | .rBool | .rU8 | .rU16 | .rI16 | .rU32 | .rI32 | .rU64 | .rI64 => some .r
  | .rClear | .rSetArray _ _ | .rLim _ => some .r
  | .rChgU8 _ | .rChgU16 _ | .rChgI16 _ | .rChgU32 _ | .rChgI32 _ | .rChgU64 _ | .rChgI64 _ => some .r
  | .rChgLim _ _ | .rDiff _ _ _ => some .r

/-- The commands a faulted unit accepts, `U.CLEAR` and `U.SETARRAY` (60_exceptions.md rule R231). -/
def startsPass : Instr → Bool
  | .wClear | .wSetArray _ _ | .rClear | .rSetArray _ _ => true
  | _ => false

/-- The commands that can change a window (10_state.md rule R24). -/
def bindsWindow : Instr → Bool
  | .wSetArray _ _ | .rSetArray _ _ => true
  | _ => false

/-- The Limit registers a command names as the ranges it uses (60_exceptions.md rule R229 (b)). -/
def namesLimits : Instr → List LimIdx
  | .limGetMin la | .limGetMax la | .limGetBits la => [la]
  | .wLim la _ | .rLim la | .wChgLim la _ _ | .rChgLim la _ => [la]
  | .wDiff la lb _ _ | .rDiff la lb _ => [la, lb]
  | _ => []

/-! ## Well-formed states (rule R36) -/

/-- A unit of an instance with `memBytes` bytes of memory is well formed. Rule R36 asks this of a unit that is
not faulted. That the window fits a faulted unit's memory too is DEDUCED from rule R223 ("`U.base` and `U.cap`
unchanged"), see notes/assumptions/11.md. -/
abbrev BitUnit.Wf (memBytes : Nat) (x : BitUnit) : Prop :=
  x.base.toNat + x.cap.toNat ≤ memBytes ∧
    (x.fault = false →
      x.valid.toNat ≤ 31 ∧ x.pending.toNat < 2 ^ x.valid.toNat ∧ x.count.toNat ≤ x.cap.toNat ∧ x.cause = 0)

/-- A Limit register is well formed (rule R36, 43_limit.md rule R180). -/
abbrev Limit.Wf (l : Limit) : Prop :=
  l.ok = true → l.min.toInt ≤ l.max.toInt ∧ l.bits.toNat = bitCount l.min.toInt l.max.toInt

/-- The well-formed states: rule R36, the range of the parameters (00_scope.md rule R8), the causes a unit can
latch (60_exceptions.md rule R221), and the form of the memory (20_memory.md rule R50). -/
structure State.Wf (s : State) : Prop where
  params : s.params.wf
  writer : s.w.Wf s.params.memBytes
  reader : s.r.Wf s.params.memBytes
  limits : ∀ i : Fin 16, s.lim[i].Wf
  writerCause : s.w.fault = true → 1 ≤ s.w.cause.toNat ∧ s.w.cause.toNat ≤ 4
  readerCause : s.r.fault = true → s.r.cause = causeCode .capacity
  memory : Memory.wf s.mem
  memoryFits : ∀ c ∈ s.mem, c.1 < s.params.memBytes

/-- A run that has been clean so far: every response had `ok = 1` (70_reset_and_hazards.md rule R267). -/
def State.clean (s : State) : Bool := s.responses.all fun x => x.ok

/-! ## What a command leaves -/

/-- `t` is `s` after the writer appended a field of `k` bits with value `f`, storing `stored` bytes: the stream
grows by the field, everything older in it stays, and nothing outside the stored bytes and the writer's
accumulator and count changes (30_encoding.md rules R90, R91). The responses are said apart. -/
structure AppendsField (s t : State) (k f stored : Nat) : Prop where
  frame : t = { s with
    w := { s.w with pending := t.w.pending, valid := t.w.valid, count := t.w.count }
    mem := t.mem
    responses := t.responses }
  count : t.w.count.toNat = s.w.count.toNat + stored
  bits : t.bitsCount = s.bitsCount + k
  older : ∀ p < s.bitsCount, t.streamBit p = s.streamBit p
  field : ∀ j < k, t.streamBit (s.bitsCount + j) = f.testBit j
  memory : ∀ a, a < s.w.base.toNat + s.w.count.toNat ∨ s.w.base.toNat + s.w.count.toNat + stored ≤ a →
    t.byteAt a = s.byteAt a

/-- `t` is `s` after the reader consumed `k` bits, fetching `fetched` bytes: what it delivers next starts `k`
bits further on, and nothing but its accumulator and count changes (rules R95, R114). The responses are said
apart. -/
structure ConsumesBits (s t : State) (k fetched : Nat) : Prop where
  frame : t = { s with
    r := { s.r with pending := t.r.pending, valid := t.r.valid, count := t.r.count }
    responses := t.responses }
  count : t.r.count.toNat = s.r.count.toNat + fetched
  valid : t.r.valid.toNat + k = s.r.valid.toNat + 8 * fetched
  rest : ∀ j, t.nextBit j = s.nextBit (k + j)

/-- `t` is `s` after stream bit `p` was set to `b` where it is: no other bit of the stream, no count and no other
byte changes (41_bit_writer.md rule R140, 20_memory.md rule R55). The responses are said apart. -/
structure PatchesBit (s t : State) (p : Nat) (b : Bool) : Prop where
  frame : t = { s with
    w := { s.w with pending := t.w.pending }
    mem := t.mem
    responses := t.responses }
  bit : t.streamBit p = b
  others : ∀ q, q ≠ p → t.streamBit q = s.streamBit q
  memory : ∀ a, 8 * s.w.count.toNat ≤ p ∨ a ≠ s.w.base.toNat + p / 8 → t.byteAt a = s.byteAt a

/-- `t` is `s` after a precise latching fault: only the latch changed, and the answer went out (60_exceptions.md
rules R222, R223). -/
def PreciseFault (s t : State) (u : UnitId) (c : Cause) : Prop :=
  t = (s.setUnit u { s.unit u with fault := true, cause := causeCode c }).respond (failResponse (causeCode c))

/-- `t` is `s` after an imprecise latching fault: what rule R223 says of every latching fault, and nothing of
what it leaves unspecified. -/
structure ImpreciseFault (s t : State) (u : UnitId) (c : Cause) : Prop where
  latched : (t.unit u).fault = true ∧ (t.unit u).cause = causeCode c
  window : (t.unit u).base = (s.unit u).base ∧ (t.unit u).cap = (s.unit u).cap
  otherUnit : ∀ v, v ≠ u → t.unit v = s.unit v
  limits : t.lim = s.lim
  parameters : t.params = s.params
  memory : ∀ a, u = .r ∨ a < s.w.base.toNat + s.w.count.toNat ∨ s.w.base.toNat + s.w.cap.toNat ≤ a →
    t.byteAt a = s.byteAt a
  answer : t.responses = s.responses ++ [failResponse (causeCode c)]
  inbox : t.inbox = s.inbox

/-- The writer command `i` appends a field of `k` bits with value `f` and answers without a result when the
window has room for the `stored` bytes, and raises the capacity fault when it has not (20_memory.md rule R53). -/
def AppendsOrFaults (s : State) (i : Instr) (k f stored : Nat) : Prop :=
  (s.w.count.toNat + stored ≤ s.w.cap.toNat →
    ∃ t, exec i s = .next t ∧ t.responses = s.responses ++ [okResponse none] ∧ AppendsField s t k f stored) ∧
  (s.w.cap.toNat < s.w.count.toNat + stored → ∃ t, exec i s = .next t ∧ ImpreciseFault s t .w .capacity)

/-- The reader command `i` consumes `k` bits and answers with `res` when the window has room for the `fetched`
bytes, and raises the capacity fault when it has not (20_memory.md rule R54). -/
def DeliversOrFaults (s : State) (i : Instr) (k fetched : Nat) (res : Word64) : Prop :=
  (s.r.count.toNat + fetched ≤ s.r.cap.toNat →
    ∃ t, exec i s = .next t ∧ t.responses = s.responses ++ [okResponse (some res)] ∧
      ConsumesBits s t k fetched) ∧
  (s.r.cap.toNat < s.r.count.toNat + fetched → ∃ t, exec i s = .next t ∧ ImpreciseFault s t .r .capacity)

end Sys2Proof.Machine
end

