-- ==== Sys2Proof/Certificates/Slice0/Obligations.lean ====
section
/-! DEFINITION. The statements for the provers. Each one's docstring says which rule of spec/ it formalises. -/

section

open Sys2Proof Sys2Proof.Machine

/-! ## The command encoding (30_encoding.md) -/

/-- Rules R81 to R83, R85: a well-formed command, with every field and operand at every value its encoding admits, is
read back from its command triple. -/
def Obligations.DecodeEncodeAgree : Prop :=
  ∀ i : Instr, i.wellFormed = true → decode (encode i) = some i

/-- Rules R82, R83, R85: a legal command word is the only spelling of its command, with every field the command
does not use and the reserved bits zero. The command's encoding, word and operands, decodes to it; and each operand
of the encoding is the one presented, or the command is the same whatever is presented there. -/
def Obligations.DecodedWordIsItsEncoding : Prop :=
  ∀ (c : Command) (i : Instr), decode c = some i →
    i.wellFormed = true ∧ c.cmd = (encode i).cmd ∧
      decode { cmd := c.cmd, a := (encodeOperands i).1, b := (encodeOperands i).2 } = some i ∧
      ((encodeOperands i).1 = c.a ∨ ∀ x, decode { c with a := x } = some i) ∧
      ((encodeOperands i).2 = c.b ∨ ∀ x, decode { c with b := x } = some i)

/-- The rows of spec/opcode_table.json, rule R83: a decoded word matches its row's mask and pattern, and it
matches no other row. -/
def Obligations.DecodingMatchesOneRow : Prop :=
  ∀ (c : Command) (i : Instr), decode c = some i →
    c.cmd &&& (tableRow i).1 = (tableRow i).2 ∧
      ∀ j : Instr, c.cmd &&& (tableRow j).1 = (tableRow j).2 → tableRow j = tableRow i

/-- Rule R86: the illegal command words, clause by clause, are exactly the words the decoder refuses, and an
illegal command answers `Illegal` and changes nothing. -/
def Obligations.IllegalWords : Prop :=
  ∀ c : Command,
    let op := (c.cmd.extractLsb' 0 8).toNat
    let n := (c.cmd.extractLsb' 8 6).toNat
    let wd := (c.cmd.extractLsb' 14 2).toNat
    let la := (c.cmd.extractLsb' 16 4).toNat
    let lb := (c.cmd.extractLsb' 20 4).toNat
    let sx := (c.cmd.extractLsb' 24 1).toNat
    let illegal :=
      (c.cmd.extractLsb' 25 7).toNat ≠ 0 ∨
      ¬ ((0x01 ≤ op ∧ op ≤ 0x03) ∨ (0x10 ≤ op ∧ op ≤ 0x1D) ∨ (0x20 ≤ op ∧ op ≤ 0x22) ∨
        (0x28 ≤ op ∧ op ≤ 0x2D)) ∨
      (n ≠ 0 ∧ op ∉ [0x02, 0x03, 0x10, 0x20]) ∨
      (wd ≠ 0 ∧ op ∉ [0x12, 0x1B, 0x22, 0x2B]) ∨
      (la ≠ 0 ∧ op ∉ [0x01, 0x02, 0x1A, 0x1C, 0x1D, 0x2A, 0x2C, 0x2D]) ∨
      (lb ≠ 0 ∧ op ∉ [0x1D, 0x2D]) ∨
      (sx ≠ 0 ∧ op ∉ [0x22, 0x2B]) ∨
      (32 < n ∧ op ∈ [0x10, 0x20]) ∨
      (n ∉ [0, 1, 2] ∧ op = 0x02) ∨
      (n ∉ [0, 1, 8, 9, 10, 11, 12, 16, 17, 18, 19, 20] ∧ op = 0x03) ∨
      (wd = 0 ∧ sx = 1 ∧ op ∈ [0x22, 0x2B])
    (decode c = none ↔ illegal) ∧
      (illegal → ∀ s : State, runCommand c s = .next (s.respond { ok := false, cause := 5, res := none }))

/-- Rule R82: whether a command is legal, and which row it is, depends on `cmd` alone. -/
def Obligations.DecodingLooksOnlyAtTheWord : Prop :=
  ∀ (cmd : Word32) (a b a' b' : Word64),
    (decode { cmd := cmd, a := a, b := b }).map tableRow = (decode { cmd := cmd, a := a', b := b' }).map tableRow

/-- The 18 worked encodings of 30_encoding.md section 7 decode to the commands they stand for, whatever the operands
the section leaves open (`u`, `v`, `b`) and those the commands ignore (`x`, `y`) are (rule R81). -/
def Obligations.WorkedEncodingsDecode : Prop :=
  ∀ u v b x y : Word64,
    decode ⟨0x00000001, 0xFFFFFFFFFFFFFF9C, 0x0000000000000064⟩ = some (.limSet 0 (-100) 100) ∧
    decode ⟨0x00010001, 0xFFFFFFFFFFFFFFF6, 0x000000000000000A⟩ = some (.limSet 1 (-10) 10) ∧
    decode ⟨0x00010202, x, y⟩ = some (.limGetBits 1) ∧
    decode ⟨0x00000A03, x, y⟩ = some (.statRd .wCount) ∧
    decode ⟨0x00000B10, 0x5A3, y⟩ = some (.wBits 11 0x5A3) ∧
    decode ⟨0x00002010, 0xCAFEBABE, y⟩ = some (.wBits 32 0xCAFEBABE) ∧
    decode ⟨0x00004012, 0xF00F, y⟩ = some (.wU16 0xF00F) ∧
    decode ⟨0x0000C012, v, y⟩ = some (.wU64 v) ∧
    decode ⟨0x00000014, 33, 0⟩ = some (.wSetAt 33 0) ∧
    decode ⟨0x00000019, 8, 12⟩ = some (.wSetArray 8 12) ∧
    decode ⟨0x0000001A, 50, y⟩ = some (.wLim 0 50) ∧
    decode ⟨0x0000401B, u, b⟩ = some (.wChgU16 u b) ∧
    decode ⟨0x0010001D, 8, 5⟩ = some (.wDiff 0 1 8 5) ∧
    decode ⟨0x00000B20, x, y⟩ = some (.rBits 11) ∧
    decode ⟨0x01004022, x, y⟩ = some .rI16 ∧
    decode ⟨0x0000C022, x, y⟩ = some .rU64 ∧
    decode ⟨0x0100802B, x, b⟩ = some (.rChgI32 b) ∧
    decode ⟨0x0010002D, x, 5⟩ = some (.rDiff 0 1 5)

/-- Rule R85: the bits of an operand outside the slice a command takes are ignored, for every command that takes a
slice. -/
def Obligations.UnusedOperandBitsAreIgnored : Prop :=
  ∀ (s : State) (a a' b b' : Word64),
    (∀ n : Count6, n.toNat ≤ 32 → a.toNat % 2 ^ n.toNat = a'.toNat % 2 ^ n.toNat →
      exec (.wBits n a) s = exec (.wBits n a') s) ∧
    (a.toNat % 2 = a'.toNat % 2 → exec (.wBool a) s = exec (.wBool a') s) ∧
    (b.toNat % 2 = b'.toNat % 2 → exec (.wSetAt a b) s = exec (.wSetAt a b') s) ∧
    (a.toNat % 2 ^ 8 = a'.toNat % 2 ^ 8 → exec (.wU8 a) s = exec (.wU8 a') s) ∧
    (a.toNat % 2 ^ 16 = a'.toNat % 2 ^ 16 → exec (.wU16 a) s = exec (.wU16 a') s) ∧
    (a.toNat % 2 ^ 8 = a'.toNat % 2 ^ 8 → b.toNat % 2 ^ 8 = b'.toNat % 2 ^ 8 →
      exec (.wChgU8 a b) s = exec (.wChgU8 a' b') s) ∧
    (a.toNat % 2 ^ 16 = a'.toNat % 2 ^ 16 → b.toNat % 2 ^ 16 = b'.toNat % 2 ^ 16 →
      exec (.wChgU16 a b) s = exec (.wChgU16 a' b') s) ∧
    (b.toNat % 2 ^ 8 = b'.toNat % 2 ^ 8 → exec (.rChgU8 b) s = exec (.rChgU8 b') s) ∧
    (b.toNat % 2 ^ 16 = b'.toNat % 2 ^ 16 →
      exec (.rChgU16 b) s = exec (.rChgU16 b') s ∧ exec (.rChgI16 b) s = exec (.rChgI16 b') s) ∧
    (a.toNat % 2 ^ 32 = a'.toNat % 2 ^ 32 → exec (.wU32 a) s = exec (.wU32 a') s) ∧
    (a.toNat % 2 ^ 32 = a'.toNat % 2 ^ 32 → b.toNat % 2 ^ 32 = b'.toNat % 2 ^ 32 → ∀ la lb : LimIdx,
      exec (.limSet la a b) s = exec (.limSet la a' b') s ∧
      exec (.wLim la a) s = exec (.wLim la a') s ∧
      exec (.wChgU32 a b) s = exec (.wChgU32 a' b') s ∧
      exec (.wChgLim la a b) s = exec (.wChgLim la a' b') s ∧
      exec (.wDiff la lb a b) s = exec (.wDiff la lb a' b') s ∧
      exec (.rChgU32 b) s = exec (.rChgU32 b') s ∧ exec (.rChgI32 b) s = exec (.rChgI32 b') s ∧
      exec (.rChgLim la b) s = exec (.rChgLim la b') s ∧
      exec (.rDiff la lb b) s = exec (.rDiff la lb b') s)

/-! ## Steps and reset -/

/-- Rules R80, R118: a step runs the command the word on the port decodes to, on the state with that command
taken, and adds nothing around it (there is no program counter, 10_state.md rule R28). The port as a list is the
model's choice (log entry 5). -/
def Obligations.StepRunsTheDecodedCommand : Prop :=
  (∀ (s : State) (c : Command) (rest : List HostEvent) (i : Instr),
    s.inbox = .command c :: rest → decode c = some i → step s = exec i { s with inbox := rest }) ∧
  (∀ (s : State) (nbits w : Nat) (i : Instr),
    decodeTableWord nbits w = some i → step (s.withFetchWord nbits w) = exec i s)

/-- Rule R228: a step answers an illegal command with `Illegal` and changes nothing else. The port as a list is the
model's choice (log entry 5). -/
def Obligations.StepAnswersAnIllegalCommand : Prop :=
  ∀ (s : State) (c : Command) (rest : List HostEvent), s.inbox = .command c :: rest → decode c = none →
    step s = .next
      { s with inbox := rest, responses := s.responses ++ [{ ok := false, cause := 5, res := none }] }

/-- Rules R250, R34: the reset event empties both units, unsets every Limit register and leaves the parameters;
no byte of `MEM` is known after it. That the host's record stays, and that unwritten bytes are draws of a new
number, is the model's choice (log entries 1 and 7). -/
def Obligations.ResetEvent : Prop :=
  ∀ (s : State) (rest : List HostEvent), s.inbox = .reset :: rest →
    ∃ t, step s = .next t ∧
      t.w = { pending := 0, valid := 0, base := 0, cap := 0, count := 0, fault := false, cause := 0 } ∧
      t.r = { pending := 0, valid := 0, base := 0, cap := 0, count := 0, fault := false, cause := 0 } ∧
      (∀ i, (t.limit i).ok = false) ∧ t.params = s.params ∧
      (∀ a, t.byteAt a = Config.unwrittenByte (s.memEpoch + 1) a) ∧
      t.inbox = rest ∧ t.responses = s.responses

/-- Rules R61, R266: a host write between commands changes its byte and nothing else. An address outside `MEM` does
not exist: that the step then stops is the model's choice (log entry 9). -/
def Obligations.HostWriteEvent : Prop :=
  ∀ (s : State) (addr : Word32) (b : Byte) (rest : List HostEvent), s.inbox = .store addr b :: rest →
    (addr.toNat < s.params.memBytes →
      ∃ t, step s = .next t ∧ t = { s with inbox := rest, mem := t.mem } ∧ t.byteAt addr.toNat = b ∧
        ∀ a, a ≠ addr.toNat → t.byteAt a = s.byteAt a) ∧
    (s.params.memBytes ≤ addr.toNat → step s = .fault (.noSuchAddress addr.toNat))

/-- Rule R34: the registers right after reset, for every instance, and `State.reset` is one of them. The values of
`params` in `State.reset` and of the model's own fields are its choice (log entries 3 and 12). -/
def Obligations.ResetRegisters : Prop :=
  (∀ p : Params, let s := State.resetWith p
    s.w = { pending := 0, valid := 0, base := 0, cap := 0, count := 0, fault := false, cause := 0 } ∧
    s.r = { pending := 0, valid := 0, base := 0, cap := 0, count := 0, fault := false, cause := 0 } ∧
    (∀ i, (s.limit i).ok = false) ∧ s.mem = [] ∧ s.params = p) ∧
  State.reset = State.resetWith Config.resetParams ∧ Config.resetParams.wf

/-- Rule R36: the reset state is well formed, for every instance rule R8 allows. -/
def Obligations.ResetIsWellFormed : Prop :=
  ∀ p : Params, p.wf → (State.resetWith p).Wf ∧ State.reset.Wf

/-- Rule R36: every step takes a well-formed state to a well-formed state (a fault is an answer, and a faulted
unit may hold anything in its accumulator). That the window of a faulted unit still fits and its cause is one it
can latch is DEDUCED (log entry 11). -/
def Obligations.StepKeepsWellFormed : Prop :=
  ∀ s t : State, s.Wf → step s = .next t → t.Wf

/-- Rules R265, R266, R80: from a well-formed state every command word whatsoever is answered by exactly one
response, the block goes on, and the response has the form rule R80 gives it. -/
def Obligations.EveryCommandIsAnsweredOnce : Prop :=
  ∀ (s : State) (c : Command), s.Wf →
    ∃ t x, runCommand c s = .next t ∧ t.responses = s.responses ++ [x] ∧ t.inbox = s.inbox ∧
      (x.ok = true → x.cause = 0) ∧
      (x.ok = false → 1 ≤ x.cause.toNat ∧ x.cause.toNat ≤ 7 ∧ x.res = none)

/-- Rule R8: no event changes `RANGE_CHECK` or `MEM_BYTES`. -/
def Obligations.ParametersNeverChange : Prop :=
  ∀ s t : State, step s = .next t → t.params = s.params

/-! ## Whole-machine rules -/

/-- Rule R231: a faulted unit refuses every command addressed to it but its `CLEAR` and `SETARRAY`, with the
latched cause, and nothing changes. -/
def Obligations.FaultedUnitRefuses : Prop :=
  ∀ (s : State) (i : Instr) (u : UnitId), i.wellFormed = true → unitOf i = some u → startsPass i = false →
    (s.unit u).fault = true →
    exec i s = .next (s.respond { ok := false, cause := (s.unit u).cause, res := none })

/-- Rules R172, R223, R24: a reader command changes no byte of `MEM`, no Limit register and nothing of the
writer, faulting or not. -/
def Obligations.ReaderCommandsFrame : Prop :=
  ∀ (s t : State) (i : Instr), unitOf i = some .r → exec i s = .next t →
    t.w = s.w ∧ t.lim = s.lim ∧ t.mem = s.mem ∧ t.memEpoch = s.memEpoch ∧ t.params = s.params ∧
      t.inbox = s.inbox ∧ ∃ x, t.responses = s.responses ++ [x]

/-- Rules R51, R223, R266: a writer command changes no byte of `MEM` outside the writer's window, no byte below
the count unless it is `W.SETAT`, no Limit register and nothing of the reader, faulting or not. -/
def Obligations.WriterCommandsFrame : Prop :=
  ∀ (s t : State) (i : Instr), s.Wf → unitOf i = some .w → exec i s = .next t →
    t.r = s.r ∧ t.lim = s.lim ∧ t.memEpoch = s.memEpoch ∧ t.params = s.params ∧ t.inbox = s.inbox ∧
      (∃ x, t.responses = s.responses ++ [x]) ∧
      (∀ a, a < s.w.base.toNat ∨ s.w.base.toNat + s.w.cap.toNat ≤ a → t.byteAt a = s.byteAt a) ∧
      ((∀ p b, i ≠ .wSetAt p b) → ∀ a, a < s.w.base.toNat + s.w.count.toNat → t.byteAt a = s.byteAt a)

/-- Rules R119, R181 to R184: a global command changes no unit and no byte of `MEM`; all it can change is the
Limit register that `LIM.SET` names. -/
def Obligations.GlobalCommandsFrame : Prop :=
  ∀ (s t : State) (i : Instr), unitOf i = none → exec i s = .next t →
    t = { s with lim := t.lim, responses := t.responses } ∧
      (∃ x, t.responses = s.responses ++ [x]) ∧
      ∀ j, t.limit j ≠ s.limit j → ∃ a b, i = .limSet j a b

/-- Rules R25, R251: only `LIM.SET` changes a Limit register. -/
def Obligations.OnlyLimSetChangesLimits : Prop :=
  ∀ (s t : State) (i : Instr), exec i s = .next t → (∀ la a b, i ≠ .limSet la a b) → t.lim = s.lim

/-- Rule R24: `U.base` and `U.cap` are changed only by `U.SETARRAY`. -/
def Obligations.OnlySetArrayMovesAWindow : Prop :=
  ∀ (s t : State) (i : Instr) (u : UnitId), exec i s = .next t →
    ¬ (unitOf i = some u ∧ bindsWindow i = true) →
    (t.unit u).base = (s.unit u).base ∧ (t.unit u).cap = (s.unit u).cap

/-- Rules R221, R228 to R230: a command answered with `ILLEGAL`, `LIMIT` or `BIND` changed nothing. -/
def Obligations.NonLatchingFaultsChangeNothing : Prop :=
  ∀ (s t : State) (i : Instr) (c : Cause), s.Wf → c ∈ [Cause.illegal, Cause.limit, Cause.bind] →
    exec i s = .next t → t.responses = s.responses ++ [failResponse (causeCode c)] →
    t = s.respond (failResponse (causeCode c))

/-- Rules R221 to R223, R231: a command answered with a latching cause either was refused by its faulted unit and
changed nothing, or faulted: then its unit holds the latch and the cause and kept its window, and the other unit,
the Limit file and all memory outside the window above the starting count are as before. The reader latches
`CAPACITY` alone. -/
def Obligations.LatchingFaultsFollowTheRule : Prop :=
  ∀ (s t : State) (i : Instr) (c : Cause), s.Wf →
    c ∈ [Cause.capacity, Cause.unflushed, Cause.backpatch, Cause.range] →
    exec i s = .next t → t.responses = s.responses ++ [failResponse (causeCode c)] →
    ∃ u, unitOf i = some u ∧ (u = .r → c = .capacity) ∧
      (((s.unit u).fault = true ∧ t = s.respond (failResponse (causeCode c))) ∨
        ((s.unit u).fault = false ∧ ImpreciseFault s t u c))

/-- Rules R233, R231, R35: only the unit's `CLEAR` and `SETARRAY` clear its latch, each by starting a pass; while
it stays set, the first cause stays. -/
def Obligations.LatchEndsOnlyWithThePass : Prop :=
  ∀ (s t : State) (i : Instr) (u : UnitId), exec i s = .next t → (s.unit u).fault = true →
    ((t.unit u).fault = false → unitOf i = some u ∧ startsPass i = true ∧ (t.unit u).cause = 0 ∧
      (t.unit u).count = 0 ∧ (t.unit u).valid = 0 ∧ (t.unit u).pending = 0) ∧
    ((t.unit u).fault = true → t.unit u = s.unit u)

/-- Rules R63, R231, R237: a unit's commands neither read nor change the other unit's registers. -/
def Obligations.UnitsDoNotInterfere : Prop :=
  (∀ (s : State) (i : Instr) (x : BitUnit), unitOf i = some .r →
    match exec i s with
    | .next t => exec i { s with w := x } = .next { t with w := x }
    | .fault f => exec i { s with w := x } = .fault f
    | .refused q => exec i { s with w := x } = .refused q) ∧
  (∀ (s : State) (i : Instr) (x : BitUnit), unitOf i = some .w →
    match exec i s with
    | .next t => exec i { s with r := x } = .next { t with r := x }
    | .fault f => exec i { s with r := x } = .fault f
    | .refused q => exec i { s with r := x } = .refused q)

/-! ## The accumulator and memory -/

/-- Rule R110: the entries of the mask table. -/
def Obligations.MaskTable : Prop :=
  (∀ n : Count6, n.toNat ≤ 32 → (mask n).toNat = 2 ^ n.toNat - 1) ∧
    mask 0 = 0x00000000 ∧ mask 1 = 0x00000001 ∧ mask 11 = 0x000007FF ∧ mask 22 = 0x003FFFFF ∧
    mask 31 = 0x7FFFFFFF ∧ mask 32 = 0xFFFFFFFF

/-- Rule R111: an entry has exactly `n` low bits set, entry 32 all 32, and masking is the remainder by `2^n`. -/
def Obligations.MaskLaw : Prop :=
  ∀ (n : Count6) (v : Word32), n.toNat ≤ 32 →
    (∀ i, i < 32 → (mask n).getLsbD i = decide (i < n.toNat)) ∧ (v &&& mask n).toNat = v.toNat % 2 ^ n.toNat ∧
      v &&& mask 0 = 0 ∧ v &&& mask 32 = v ∧ mask 32 = BitVec.allOnes 32

/-- Rule R52: multi-byte values are little-endian, and a value read at another width sees the same bytes; bytes
outside the written ones stay. -/
def Obligations.MemoryIsLittleEndian : Prop :=
  ∀ (s : State) (addr n : Nat) (v : Word64), n ≤ 8 →
    let t := { s with mem := writeBytes s.mem addr v n }
    (∀ i, i < n → t.byteAt (addr + i) = v.extractLsb' (8 * i) 8) ∧
      (∀ a, a < addr ∨ addr + n ≤ a → t.byteAt a = s.byteAt a) ∧
      (∀ m, m ≤ n → (readBytes t addr m).toNat = v.toNat % 2 ^ (8 * m))

/-- Rule R113: a push into an accumulator at rest loses no bit, leaves it at rest, and makes the stream longer by
the field. -/
def Obligations.PushKeepsTheAccumulator : Prop :=
  ∀ (s t : State) (n : Count6) (v : Word32), n.toNat ≤ 32 → s.w.valid.toNat ≤ 31 →
    s.w.pending.toNat < 2 ^ s.w.valid.toNat → wPush n v s = .ok t →
    (s.w.pending ||| (zext64 (v &&& mask n) <<< s.w.valid.toNat)).toNat =
        s.w.pending.toNat + v.toNat % 2 ^ n.toNat * 2 ^ s.w.valid.toNat ∧
      t.w.valid.toNat ≤ 31 ∧ t.w.pending.toNat < 2 ^ t.w.valid.toNat ∧
      8 * t.w.count.toNat + t.w.valid.toNat = 8 * s.w.count.toNat + s.w.valid.toNat + n.toNat

/-- Rule R115: a pop from an accumulator at rest leaves it at rest, and the position of the next bit grows by
exactly `n`. -/
def Obligations.PopKeepsTheAccumulator : Prop :=
  ∀ (s t : State) (n : Count6) (x : Word32), n.toNat ≤ 32 → s.r.valid.toNat ≤ 31 →
    s.r.pending.toNat < 2 ^ s.r.valid.toNat → rPop n s = .ok (x, t) →
    x.toNat < 2 ^ n.toNat ∧ t.r.valid.toNat ≤ 31 ∧ t.r.pending.toNat < 2 ^ t.r.valid.toNat ∧
      (8 * t.r.count.toNat : Int) - t.r.valid.toNat = 8 * s.r.count.toNat - s.r.valid.toNat + n.toNat

/-- Rules R22, R95: while the bits that wait in `R.pending` are those of the window, no command but the writer's
ends that. -/
def Obligations.ReaderStaysInStep : Prop :=
  ∀ (s t : State) (i : Instr), s.Wf → s.ReaderInStep → unitOf i ≠ some .w → exec i s = .next t →
    t.r.fault = false → t.ReaderInStep

/-- Rules R95, R160: `R.BITS` of a reader bound at the writer's base, whose waiting bits are those of its window,
answers with the next `n` stream bits of the writer, the first as bit 0 and zeros above, as far as they have been
stored; the reader stays in step, `n` bits further on in the same stream. -/
def Obligations.ReaderSeesTheWritersStream : Prop :=
  ∀ (s : State) (n : Count6), s.Wf → s.r.fault = false → n.toNat ≤ 32 → s.ReaderInStep → s.r.base = s.w.base →
    s.readPosition + n.toNat ≤ 8 * s.w.count.toNat →
    s.r.count.toNat + popFetches s.r.valid.toNat n.toNat ≤ s.r.cap.toNat →
    ∃ t res, exec (.rBits n) s = .next t ∧ t.responses = s.responses ++ [okResponse (some res)] ∧
      (∀ j, j < n.toNat → res.getLsbD j = s.streamBit (s.readPosition + j)) ∧
      (∀ j, n.toNat ≤ j → res.getLsbD j = false) ∧
      t.ReaderInStep ∧ t.readPosition = s.readPosition + n.toNat ∧ ∀ p, t.streamBit p = s.streamBit p

/-! ## Limit registers (43_limit.md) -/

/-- Rule R180: the width of a Limit is the least that holds the range, 0 to 32. -/
def Obligations.BitCountIsLeast : Prop :=
  ∀ mn mx : Int, mn ≤ mx → mx - mn + 1 ≤ 2 ^ 32 →
    bitCount mn mx ≤ 32 ∧ mx - mn + 1 ≤ 2 ^ bitCount mn mx ∧
      ∀ n : Nat, mx - mn + 1 ≤ 2 ^ n → bitCount mn mx ≤ n

/-- Rule R181: `LIM.SET` writes its register whole, or raises `Limit` on a reversed range and changes nothing. -/
def Obligations.LimSet : Prop :=
  ∀ (s : State) (la : LimIdx) (a b : Word64),
    let mn := (a.extractLsb' 0 32).toInt
    let mx := (b.extractLsb' 0 32).toInt
    fieldsOf (encode (.limSet la a b)).cmd = wordFields 0x01 (la := la) ∧
    (mx < mn → exec (.limSet la a b) s = .next (s.respond (failResponse 6))) ∧
    (mn ≤ mx → ∃ t, exec (.limSet la a b) s = .next t ∧
      t = { s with lim := t.lim, responses := s.responses ++ [okResponse none] } ∧
      t.limit la =
        { ok := true
          min := a.extractLsb' 0 32
          max := b.extractLsb' 0 32
          bits := BitVec.ofNat 6 (bitCount mn mx) } ∧
      ∀ j, j ≠ la → t.limit j = s.limit j)

/-- Rules R182 to R184: the fields of a Limit register that has been set; `Limit` on one that has not. -/
def Obligations.LimGet : Prop :=
  ∀ (s : State) (la : LimIdx),
    fieldsOf (encode (.limGetMin la)).cmd = wordFields 0x02 (n := 0) (la := la) ∧
    fieldsOf (encode (.limGetMax la)).cmd = wordFields 0x02 (n := 1) (la := la) ∧
    fieldsOf (encode (.limGetBits la)).cmd = wordFields 0x02 (n := 2) (la := la) ∧
    ((s.limit la).ok = false →
      exec (.limGetMin la) s = .next (s.respond (failResponse 6)) ∧
      exec (.limGetMax la) s = .next (s.respond (failResponse 6)) ∧
      exec (.limGetBits la) s = .next (s.respond (failResponse 6))) ∧
    ((s.limit la).ok = true →
      exec (.limGetMin la) s = .next (s.respond (okResponse (some ((s.limit la).min.signExtend 64)))) ∧
      exec (.limGetMax la) s = .next (s.respond (okResponse (some ((s.limit la).max.signExtend 64)))) ∧
      exec (.limGetBits la) s = .next (s.respond (okResponse (some ((s.limit la).bits.setWidth 64)))))

/-- Rule R229: a command that names an unset Limit register raises `Limit` before it changes anything, even where
it would not use the register. -/
def Obligations.UnsetLimitFaults : Prop :=
  ∀ (s : State) (i : Instr) (la : LimIdx), la ∈ namesLimits i → (s.limit la).ok = false →
    (∀ u, unitOf i = some u → (s.unit u).fault = false) → exec i s = .next (s.respond (failResponse 6))

/-- Rules R190, R185, R187: a value inside its Limit is encoded as `v - min`, which fits the field, and decodes to
itself. -/
def Obligations.LimitedValueRoundTrip : Prop :=
  ∀ (l : Limit) (v : Int), l.Wf → l.ok = true → l.min.toInt ≤ v → v ≤ l.max.toInt →
    (limitedField l v : Int) = v - l.min.toInt ∧ limitedField l v < 2 ^ l.bits.toNat ∧
      (trunc32 (limitedField l v + l.min.toInt)).toInt = v

/-! ## `STAT.RD` -/

/-- Rules R30, R119: the status registers, by number and value; reading one changes nothing and is never
refused. -/
def Obligations.StatusRegisters : Prop :=
  ∀ (s : State) (reg : StatReg) (number : BitVec 6) (value : Nat),
    (reg, number, value) ∈
      [(StatReg.cfg, 0#6, s.params.rangeCheck.toNat), (.memsz, 1, s.params.memBytes),
        (.wBase, 8, s.w.base.toNat), (.wCap, 9, s.w.cap.toNat), (.wCount, 10, s.w.count.toNat),
        (.wValid, 11, s.w.valid.toNat), (.wFault, 12, s.w.fault.toNat + 16 * s.w.cause.toNat),
        (.rBase, 16, s.r.base.toNat), (.rCap, 17, s.r.cap.toNat), (.rCount, 18, s.r.count.toNat),
        (.rValid, 19, s.r.valid.toNat), (.rFault, 20, s.r.fault.toNat + 16 * s.r.cause.toNat)] →
    fieldsOf (encode (.statRd reg)).cmd = wordFields 0x03 (n := number) ∧
      exec (.statRd reg) s = .next (s.respond (okResponse (some (BitVec.ofNat 64 value))))

/-! ## Writer commands (41_bit_writer.md) -/

/-- Rules R130, R131, R112, R91: `W.BITS` and `W.BOOL` append the field of the low bits of their operand. -/
def Obligations.PrimitiveWrites : Prop :=
  ∀ s : State, s.Wf → s.w.fault = false →
    (∀ (n : Count6) (a : Word64), n.toNat ≤ 32 →
      AppendsOrFaults s (.wBits n a) n.toNat (a.toNat % 2 ^ n.toNat) (pushStores s.w.valid.toNat n.toNat)) ∧
    (∀ a : Word64, AppendsOrFaults s (.wBool a) 1 (a.toNat % 2) (pushStores s.w.valid.toNat 1))

/-- Rules R132 to R136, R91: a whole-type write appends its value as one field, the same bits on the fast path and
on the bit path; the fast path stores the value's own bytes, the bit path whole 32-bit words. -/
def Obligations.WholeWrites : Prop :=
  ∀ (s : State) (a : Word64), s.Wf → s.w.fault = false →
    AppendsOrFaults s (.wU8 a) 8 (a.toNat % 2 ^ 8) (wholeStores s.w.valid.toNat 8) ∧
    AppendsOrFaults s (.wU16 a) 16 (a.toNat % 2 ^ 16) (wholeStores s.w.valid.toNat 16) ∧
    AppendsOrFaults s (.wU32 a) 32 (a.toNat % 2 ^ 32) (wholeStores s.w.valid.toNat 32) ∧
    AppendsOrFaults s (.wU64 a) 64 a.toNat (wholeStores s.w.valid.toNat 64)

/-- Rules R137, R139, R93: `W.FLUSH` stores the pending bytes, appends the zero bits missing to the byte boundary,
leaves nothing pending and does not change `BytesCount`; without room for the bytes it raises the capacity fault. -/
def Obligations.Flush : Prop :=
  ∀ s : State, s.Wf → s.w.fault = false →
    (s.w.count.toNat + (s.w.valid.toNat + 7) / 8 ≤ s.w.cap.toNat →
      ∃ t, exec .wFlush s = .next t ∧ t.responses = s.responses ++ [okResponse none] ∧ t.w.valid = 0 ∧
        t.w.pending = 0 ∧ t.bytesCount = s.bytesCount ∧
        AppendsField s t ((8 - s.bitsCount % 8) % 8) 0 ((s.w.valid.toNat + 7) / 8)) ∧
    (s.w.cap.toNat < s.w.count.toNat + (s.w.valid.toNat + 7) / 8 →
      ∃ t, exec .wFlush s = .next t ∧ ImpreciseFault s t .w .capacity)

/-- Rule R138: a flush with nothing pending changes no state, and the second of two flushes is always one. -/
def Obligations.FlushIsIdempotent : Prop :=
  ∀ s : State, s.Wf → s.w.fault = false →
    (s.w.valid = 0 → exec .wFlush s = .next (s.respond (okResponse none))) ∧
    (∀ t, exec .wFlush s = .next t → t.w.fault = false → exec .wFlush t = .next (t.respond (okResponse none)))

/-- Rules R140, R55: `W.SETAT` sets one bit of the stream where it is; a position past the window, and then one past
the stream, is a precise fault. -/
def Obligations.SetAt : Prop :=
  ∀ (s : State) (a b : Word64), s.Wf → s.w.fault = false →
    (8 * s.w.cap.toNat ≤ a.toNat →
      ∃ t, exec (.wSetAt a b) s = .next t ∧ PreciseFault s t .w .capacity) ∧
    (a.toNat < 8 * s.w.cap.toNat → 8 * s.w.count.toNat + s.w.valid.toNat ≤ a.toNat →
      ∃ t, exec (.wSetAt a b) s = .next t ∧ PreciseFault s t .w .backpatch) ∧
    (a.toNat < 8 * s.w.cap.toNat → a.toNat < 8 * s.w.count.toNat + s.w.valid.toNat →
      ∃ t, exec (.wSetAt a b) s = .next t ∧ t.responses = s.responses ++ [okResponse none] ∧
        PatchesBit s t a.toNat (b.getLsbD 0))

/-- Rules R141, R142: `BitsCount` and `BytesCount`, computed exactly, whether or not bits are pending. -/
def Obligations.Counters : Prop :=
  (encode .wBitsCount).cmd = 0x00000015 ∧ (encode .wBytesCount).cmd = 0x00000016 ∧
  ∀ s : State, s.w.fault = false →
    (∃ x : Word64, exec .wBitsCount s = .next (s.respond (okResponse (some x))) ∧
      x.toNat = 8 * s.w.count.toNat + s.w.valid.toNat) ∧
    (∃ x : Word64, exec .wBytesCount s = .next (s.respond (okResponse (some x))) ∧
      x.toNat = s.w.count.toNat + (s.w.valid.toNat + 7) / 8)

/-- Rule R143: `W.GETARRAY` answers with the base when nothing is pending, else it faults and only the latch
changes. -/
def Obligations.GetArray : Prop :=
  (encode .wGetArray).cmd = 0x00000017 ∧
  ∀ s : State, s.w.fault = false →
    (s.w.valid = 0 → exec .wGetArray s = .next (s.respond (okResponse (some (s.w.base.setWidth 64))))) ∧
    (s.w.valid ≠ 0 → ∃ t, exec .wGetArray s = .next t ∧ PreciseFault s t .w .unflushed)

/-- Rules R144, R170: `W.CLEAR` and `R.CLEAR` start a pass in the same window, from any state, and change nothing
else. -/
def Obligations.Clear : Prop :=
  (encode .wClear).cmd = 0x00000018 ∧ (encode .rClear).cmd = 0x00000028 ∧
  ∀ s : State,
    exec .wClear s = .next
      { s with
        w := { s.w with count := 0, pending := 0, valid := 0, fault := false, cause := 0 }
        responses := s.responses ++ [okResponse none] } ∧
    exec .rClear s = .next
      { s with
        r := { s.r with count := 0, pending := 0, valid := 0, fault := false, cause := 0 }
        responses := s.responses ++ [okResponse none] }

/-- Rules R145, R171, R230: `U.SETARRAY` binds the window and starts a pass when both operands are 32-bit numbers
and the window fits `MEM`, else it raises `Bind` and changes nothing; a faulted unit accepts it. -/
def Obligations.SetArray : Prop :=
  ∀ (s : State) (a b : Word64),
    (a.toNat < 2 ^ 32 → b.toNat < 2 ^ 32 → a.toNat + b.toNat ≤ s.params.memBytes →
      exec (.wSetArray a b) s = .next
        { s with
          w := { s.w with
            base := a.extractLsb' 0 32
            cap := b.extractLsb' 0 32
            count := 0
            pending := 0
            valid := 0
            fault := false
            cause := 0 }
          responses := s.responses ++ [okResponse none] } ∧
      exec (.rSetArray a b) s = .next
        { s with
          r := { s.r with
            base := a.extractLsb' 0 32
            cap := b.extractLsb' 0 32
            count := 0
            pending := 0
            valid := 0
            fault := false
            cause := 0 }
          responses := s.responses ++ [okResponse none] }) ∧
    (2 ^ 32 ≤ a.toNat ∨ 2 ^ 32 ≤ b.toNat ∨ s.params.memBytes < a.toNat + b.toNat →
      exec (.wSetArray a b) s = .next (s.respond (failResponse 7)) ∧
      exec (.rSetArray a b) s = .next (s.respond (failResponse 7)))

/-- Rules R185, R186, R189: `W.LIM` appends `v - min` in the Limit's width; outside the Limit it raises `Range`,
precise, when the instance makes the range check, and appends the truncated field when it does not. -/
def Obligations.LimitedWrite : Prop :=
  ∀ (s : State) (la : LimIdx) (a : Word64), s.Wf → s.w.fault = false → (s.limit la).ok = true →
    let v := (a.extractLsb' 0 32).toInt
    let k := (s.limit la).bits.toNat
    (s.OutOfRange la v → ∃ t, exec (.wLim la a) s = .next t ∧ PreciseFault s t .w .range) ∧
    (¬ s.OutOfRange la v →
      AppendsOrFaults s (.wLim la a) k (limitedField (s.limit la) v) (pushStores s.w.valid.toNat k))

/-- Rules R196 to R199, R213: policy 2 writes the flag, and the value behind it when it differs from the baseline
at the command's width. -/
def Obligations.ChangedWrites : Prop :=
  ∀ (s : State) (a b : Word64) (i : Instr) (k : Nat), s.Wf → s.w.fault = false →
    (i, k) ∈ [(Instr.wChgU8 a b, 8), (.wChgU16 a b, 16), (.wChgU32 a b, 32), (.wChgU64 a b, 64)] →
    (a.toNat % 2 ^ k = b.toNat % 2 ^ k → AppendsOrFaults s i 1 0 (pushStores s.w.valid.toNat 1)) ∧
    (a.toNat % 2 ^ k ≠ b.toNat % 2 ^ k →
      AppendsOrFaults s i (1 + k) (1 + 2 * (a.toNat % 2 ^ k)) (changedStores s.w.valid.toNat k))

/-- Rule R208: policy 3 writes the flag, and the limited field behind it when the value differs from the baseline;
outside the Limit it raises `Range` after the flag, an imprecise fault. -/
def Obligations.ChangedLimitedWrite : Prop :=
  ∀ (s : State) (la : LimIdx) (a b : Word64), s.Wf → s.w.fault = false → (s.limit la).ok = true →
    let u := (a.extractLsb' 0 32).toInt
    let base := (b.extractLsb' 0 32).toInt
    let k := 1 + (s.limit la).bits.toNat
    let flag := pushStores s.w.valid.toNat 1
    (u = base → AppendsOrFaults s (.wChgLim la a b) 1 0 flag) ∧
    (u ≠ base → ¬ s.OutOfRange la u →
      AppendsOrFaults s (.wChgLim la a b) k (1 + 2 * limitedField (s.limit la) u)
        (pushStores s.w.valid.toNat k)) ∧
    (u ≠ base → s.OutOfRange la u → ∃ t, exec (.wChgLim la a b) s = .next t ∧
      ImpreciseFault s t .w (if s.w.cap.toNat < s.w.count.toNat + flag then .capacity else .range))

/-- Rules R210, R212, R214: the three-way decision of policy 4. Unchanged: one flag 0. A difference strictly inside
the second Limit: flags 1, 1 and the difference. Otherwise flags 1, 0 and the value under the first Limit, the only
case the range check can refuse. -/
def Obligations.DiffWrite : Prop :=
  ∀ (s : State) (la lb : LimIdx) (a b : Word64), s.Wf → s.w.fault = false → (s.limit la).ok = true →
    (s.limit lb).ok = true →
    let u := (a.extractLsb' 0 32).toInt
    let base := (b.extractLsb' 0 32).toInt
    let d := u - base
    let eligible := (s.limit lb).min.toInt < d ∧ d < (s.limit lb).max.toInt
    let kd := 2 + (s.limit lb).bits.toNat
    let kf := 2 + (s.limit la).bits.toNat
    let flags := pushStores s.w.valid.toNat 2
    (u = base → AppendsOrFaults s (.wDiff la lb a b) 1 0 (pushStores s.w.valid.toNat 1)) ∧
    (u ≠ base → eligible →
      AppendsOrFaults s (.wDiff la lb a b) kd (1 + 2 + 4 * limitedField (s.limit lb) d)
        (pushStores s.w.valid.toNat kd)) ∧
    (u ≠ base → ¬ eligible → ¬ s.OutOfRange la u →
      AppendsOrFaults s (.wDiff la lb a b) kf (1 + 4 * limitedField (s.limit la) u)
        (pushStores s.w.valid.toNat kf)) ∧
    (u ≠ base → ¬ eligible → s.OutOfRange la u → ∃ t, exec (.wDiff la lb a b) s = .next t ∧
      ImpreciseFault s t .w (if s.w.cap.toNat < s.w.count.toNat + flags then .capacity else .range))

/-! ## Reader commands (42_bit_reader.md, 43_limit.md, 44_delta.md) -/

/-- Rules R160, R161, R114: `R.BITS` and `R.BOOL` deliver the next bits, the first as the least significant. -/
def Obligations.PrimitiveReads : Prop :=
  ∀ s : State, s.Wf → s.r.fault = false →
    (∀ n : Count6, n.toNat ≤ 32 →
      DeliversOrFaults s (.rBits n) n.toNat (popFetches s.r.valid.toNat n.toNat)
        (BitVec.ofNat 64 (s.nextField 0 n.toNat))) ∧
    DeliversOrFaults s .rBool 1 (popFetches s.r.valid.toNat 1) (BitVec.ofNat 64 (s.nextBit 0).toNat)

/-- Rules R162 to R169: a whole-type read delivers the next bits of its width, extended as its row says, on either
path. -/
def Obligations.WholeReads : Prop :=
  ∀ (s : State) (i : Instr) (k : Nat) (sx : Bool), s.Wf → s.r.fault = false →
    (i, k, sx) ∈
      [(Instr.rU8, 8, false), (.rU16, 16, false), (.rI16, 16, true), (.rU32, 32, false), (.rI32, 32, true),
        (.rU64, 64, false), (.rI64, 64, true)] →
    DeliversOrFaults s i k (wholeFetches s.r.valid.toNat k) (extended k sx (s.nextField 0 k))

/-- Rules R187, R188: `R.LIM` delivers the next field of the Limit's width plus `min`, wrapped to 32 bits and
sign-extended, with no range check. -/
def Obligations.LimitedRead : Prop :=
  ∀ (s : State) (la : LimIdx), s.Wf → s.r.fault = false → (s.limit la).ok = true →
    let k := (s.limit la).bits.toNat
    DeliversOrFaults s (.rLim la) k (popFetches s.r.valid.toNat k)
      ((BitVec.ofInt 32 (s.nextField 0 k + (s.limit la).min.toInt)).signExtend 64)

/-- Rules R200 to R207, R213: policy 2 reads a flag, and the value behind it when it is 1; else it answers with the
baseline, extended alike. -/
def Obligations.ChangedReads : Prop :=
  ∀ (s : State) (b : Word64) (i : Instr) (k : Nat) (sx : Bool), s.Wf → s.r.fault = false →
    (i, k, sx) ∈
      [(Instr.rChgU8 b, 8, false), (.rChgU16 b, 16, false), (.rChgI16 b, 16, true), (.rChgU32 b, 32, false),
        (.rChgI32 b, 32, true), (.rChgU64 b, 64, false), (.rChgI64 b, 64, true)] →
    (s.nextBit 0 = false →
      DeliversOrFaults s i 1 (popFetches s.r.valid.toNat 1) (extended k sx b.toNat)) ∧
    (s.nextBit 0 = true →
      DeliversOrFaults s i (1 + k) (changedFetches s.r.valid.toNat k) (extended k sx (s.nextField 1 k)))

/-- Rule R209: policy 3 reads a flag, and the limited field behind it when it is 1; else it answers with the
baseline. -/
def Obligations.ChangedLimitedRead : Prop :=
  ∀ (s : State) (la : LimIdx) (b : Word64), s.Wf → s.r.fault = false → (s.limit la).ok = true →
    let k := (s.limit la).bits.toNat
    (s.nextBit 0 = false →
      DeliversOrFaults s (.rChgLim la b) 1 (popFetches s.r.valid.toNat 1) ((b.extractLsb' 0 32).signExtend 64)) ∧
    (s.nextBit 0 = true →
      DeliversOrFaults s (.rChgLim la b) (1 + k) (popFetches s.r.valid.toNat (1 + k))
        ((BitVec.ofInt 32 (s.nextField 1 k + (s.limit la).min.toInt)).signExtend 64))

/-- Rule R211: policy 4 reads the flags and answers with the baseline, with the baseline plus the difference, wrapped
to 32 bits, or with the value of the full field. -/
def Obligations.DiffRead : Prop :=
  ∀ (s : State) (la lb : LimIdx) (b : Word64), s.Wf → s.r.fault = false → (s.limit la).ok = true →
    (s.limit lb).ok = true →
    let base := (b.extractLsb' 0 32).toInt
    let kd := (s.limit lb).bits.toNat
    let kf := (s.limit la).bits.toNat
    let v := s.r.valid.toNat
    (s.nextBit 0 = false →
      DeliversOrFaults s (.rDiff la lb b) 1 (popFetches v 1) ((b.extractLsb' 0 32).signExtend 64)) ∧
    (s.nextBit 0 = true → s.nextBit 1 = true →
      DeliversOrFaults s (.rDiff la lb b) (2 + kd) (popFetches v (2 + kd))
        ((BitVec.ofInt 32 (base + (BitVec.ofInt 32 (s.nextField 2 kd + (s.limit lb).min.toInt)).toInt)).signExtend
          64)) ∧
    (s.nextBit 0 = true → s.nextBit 1 = false →
      DeliversOrFaults s (.rDiff la lb b) (2 + kf) (popFetches v (2 + kf))
        ((BitVec.ofInt 32 (s.nextField 2 kf + (s.limit la).min.toInt)).signExtend 64))

end
end

