-- ==== Sys2Proof/Laws/State.lean ====
section
/-! SUPPORT. One lemma per field per update of the state, each true by unfolding the update once, so that no
later proof unfolds a record update. -/

namespace Sys2Proof.Machine

/-! ## `State.unit` and `State.setUnit` -/

@[simp] theorem unit_w (s : State) : s.unit .w = s.w := rfl
@[simp] theorem unit_r (s : State) : s.unit .r = s.r := rfl
@[simp] theorem setUnit_w_w (s : State) (x : BitUnit) : (s.setUnit .w x).w = x := rfl
@[simp] theorem setUnit_w_params (s : State) (x : BitUnit) : (s.setUnit .w x).params = s.params := rfl
@[simp] theorem setUnit_w_r (s : State) (x : BitUnit) : (s.setUnit .w x).r = s.r := rfl
@[simp] theorem setUnit_w_lim (s : State) (x : BitUnit) : (s.setUnit .w x).lim = s.lim := rfl
@[simp] theorem setUnit_w_mem (s : State) (x : BitUnit) : (s.setUnit .w x).mem = s.mem := rfl
@[simp] theorem setUnit_w_memEpoch (s : State) (x : BitUnit) : (s.setUnit .w x).memEpoch = s.memEpoch := rfl
@[simp] theorem setUnit_w_draws (s : State) (x : BitUnit) : (s.setUnit .w x).draws = s.draws := rfl
@[simp] theorem setUnit_w_inbox (s : State) (x : BitUnit) : (s.setUnit .w x).inbox = s.inbox := rfl
@[simp] theorem setUnit_w_responses (s : State) (x : BitUnit) : (s.setUnit .w x).responses = s.responses := rfl
@[simp] theorem setUnit_r_r (s : State) (x : BitUnit) : (s.setUnit .r x).r = x := rfl
@[simp] theorem setUnit_r_params (s : State) (x : BitUnit) : (s.setUnit .r x).params = s.params := rfl
@[simp] theorem setUnit_r_w (s : State) (x : BitUnit) : (s.setUnit .r x).w = s.w := rfl
@[simp] theorem setUnit_r_lim (s : State) (x : BitUnit) : (s.setUnit .r x).lim = s.lim := rfl
@[simp] theorem setUnit_r_mem (s : State) (x : BitUnit) : (s.setUnit .r x).mem = s.mem := rfl
@[simp] theorem setUnit_r_memEpoch (s : State) (x : BitUnit) : (s.setUnit .r x).memEpoch = s.memEpoch := rfl
@[simp] theorem setUnit_r_draws (s : State) (x : BitUnit) : (s.setUnit .r x).draws = s.draws := rfl
@[simp] theorem setUnit_r_inbox (s : State) (x : BitUnit) : (s.setUnit .r x).inbox = s.inbox := rfl
@[simp] theorem setUnit_r_responses (s : State) (x : BitUnit) : (s.setUnit .r x).responses = s.responses := rfl
theorem setUnit_w (s : State) (x : BitUnit) : s.setUnit .w x = { s with w := x } := rfl
theorem setUnit_r (s : State) (x : BitUnit) : s.setUnit .r x = { s with r := x } := rfl

@[simp] theorem unit_setUnit (s : State) (u : UnitId) (x : BitUnit) : (s.setUnit u x).unit u = x := by
  cases u <;> rfl

theorem unit_setUnit_of_ne (s : State) {u v : UnitId} (x : BitUnit) (h : v ≠ u) :
    (s.setUnit u x).unit v = s.unit v := by
  cases u <;> cases v <;> first | rfl | exact absurd rfl h

@[simp] theorem setUnit_params (s : State) (u : UnitId) (x : BitUnit) : (s.setUnit u x).params = s.params := by
  cases u <;> rfl
@[simp] theorem setUnit_lim (s : State) (u : UnitId) (x : BitUnit) : (s.setUnit u x).lim = s.lim := by
  cases u <;> rfl
@[simp] theorem setUnit_mem (s : State) (u : UnitId) (x : BitUnit) : (s.setUnit u x).mem = s.mem := by
  cases u <;> rfl
@[simp] theorem setUnit_memEpoch (s : State) (u : UnitId) (x : BitUnit) : (s.setUnit u x).memEpoch = s.memEpoch := by
  cases u <;> rfl
@[simp] theorem setUnit_draws (s : State) (u : UnitId) (x : BitUnit) : (s.setUnit u x).draws = s.draws := by
  cases u <;> rfl
@[simp] theorem setUnit_inbox (s : State) (u : UnitId) (x : BitUnit) : (s.setUnit u x).inbox = s.inbox := by
  cases u <;> rfl
@[simp] theorem setUnit_responses (s : State) (u : UnitId) (x : BitUnit) : (s.setUnit u x).responses = s.responses := by
  cases u <;> rfl

/-! ## `State.respond` -/

@[simp] theorem respond_params (s : State) (x : Response) : (s.respond x).params = s.params := rfl
@[simp] theorem respond_w (s : State) (x : Response) : (s.respond x).w = s.w := rfl
@[simp] theorem respond_r (s : State) (x : Response) : (s.respond x).r = s.r := rfl
@[simp] theorem respond_lim (s : State) (x : Response) : (s.respond x).lim = s.lim := rfl
@[simp] theorem respond_mem (s : State) (x : Response) : (s.respond x).mem = s.mem := rfl
@[simp] theorem respond_memEpoch (s : State) (x : Response) : (s.respond x).memEpoch = s.memEpoch := rfl
@[simp] theorem respond_draws (s : State) (x : Response) : (s.respond x).draws = s.draws := rfl
@[simp] theorem respond_inbox (s : State) (x : Response) : (s.respond x).inbox = s.inbox := rfl
@[simp] theorem respond_responses (s : State) (x : Response) : (s.respond x).responses = s.responses ++ [x] := rfl
@[simp] theorem respond_unit (s : State) (x : Response) (u : UnitId) : (s.respond x).unit u = s.unit u := by
  cases u <;> rfl
@[simp] theorem respond_byteAt (s : State) (x : Response) (a : Nat) : (s.respond x).byteAt a = s.byteAt a := rfl
@[simp] theorem respond_limit (s : State) (x : Response) (i : LimIdx) : (s.respond x).limit i = s.limit i := rfl

/-! ## `State.setLimit` -/

@[simp] theorem setLimit_params (s : State) (i : LimIdx) (v : Limit) : (s.setLimit i v).params = s.params := rfl
@[simp] theorem setLimit_w (s : State) (i : LimIdx) (v : Limit) : (s.setLimit i v).w = s.w := rfl
@[simp] theorem setLimit_r (s : State) (i : LimIdx) (v : Limit) : (s.setLimit i v).r = s.r := rfl
@[simp] theorem setLimit_mem (s : State) (i : LimIdx) (v : Limit) : (s.setLimit i v).mem = s.mem := rfl
@[simp] theorem setLimit_memEpoch (s : State) (i : LimIdx) (v : Limit) : (s.setLimit i v).memEpoch = s.memEpoch := rfl
@[simp] theorem setLimit_draws (s : State) (i : LimIdx) (v : Limit) : (s.setLimit i v).draws = s.draws := rfl
@[simp] theorem setLimit_inbox (s : State) (i : LimIdx) (v : Limit) : (s.setLimit i v).inbox = s.inbox := rfl
@[simp] theorem setLimit_responses (s : State) (i : LimIdx) (v : Limit) : (s.setLimit i v).responses = s.responses := rfl
@[simp] theorem limit_setLimit (s : State) (i : LimIdx) (v : Limit) : (s.setLimit i v).limit i = v := by
  simp [State.setLimit, State.limit]

theorem limit_setLimit_of_ne (s : State) {i j : LimIdx} (v : Limit) (h : j ≠ i) :
    (s.setLimit i v).limit j = s.limit j := by
  have hn : i.toNat ≠ j.toNat := fun e => h (BitVec.eq_of_toNat_eq e.symm)
  simp [State.setLimit, State.limit, hn]

/-! ## `BitUnit.startPass` -/

@[simp] theorem startPass_pending (x : BitUnit) : x.startPass.pending = 0 := rfl
@[simp] theorem startPass_valid (x : BitUnit) : x.startPass.valid = 0 := rfl
@[simp] theorem startPass_count (x : BitUnit) : x.startPass.count = 0 := rfl
@[simp] theorem startPass_fault (x : BitUnit) : x.startPass.fault = false := rfl
@[simp] theorem startPass_cause (x : BitUnit) : x.startPass.cause = 0 := rfl
@[simp] theorem startPass_base (x : BitUnit) : x.startPass.base = x.base := rfl
@[simp] theorem startPass_cap (x : BitUnit) : x.startPass.cap = x.cap := rfl

/-! ## `State.latchFault` -/

theorem latchFault_precise (s : State) (u : UnitId) (c : Cause) :
    s.latchFault u c true = s.setUnit u { s.unit u with fault := true, cause := causeCode c } := rfl

@[simp] theorem latchFault_params (s : State) (u : UnitId) (c : Cause) (p : Bool) : (s.latchFault u c p).params = s.params := by
  cases u <;> cases p <;> rfl
@[simp] theorem latchFault_lim (s : State) (u : UnitId) (c : Cause) (p : Bool) : (s.latchFault u c p).lim = s.lim := by
  cases u <;> cases p <;> rfl
@[simp] theorem latchFault_memEpoch (s : State) (u : UnitId) (c : Cause) (p : Bool) : (s.latchFault u c p).memEpoch = s.memEpoch := by
  cases u <;> cases p <;> rfl
@[simp] theorem latchFault_inbox (s : State) (u : UnitId) (c : Cause) (p : Bool) : (s.latchFault u c p).inbox = s.inbox := by
  cases u <;> cases p <;> rfl
@[simp] theorem latchFault_responses (s : State) (u : UnitId) (c : Cause) (p : Bool) : (s.latchFault u c p).responses = s.responses := by
  cases u <;> cases p <;> rfl
@[simp] theorem latchFault_unit_fault (s : State) (u : UnitId) (c : Cause) (p : Bool) :
    ((s.latchFault u c p).unit u).fault = true := by
  cases u <;> cases p <;> rfl
@[simp] theorem latchFault_unit_cause (s : State) (u : UnitId) (c : Cause) (p : Bool) :
    ((s.latchFault u c p).unit u).cause = causeCode c := by
  cases u <;> cases p <;> rfl
@[simp] theorem latchFault_unit_base (s : State) (u : UnitId) (c : Cause) (p : Bool) :
    ((s.latchFault u c p).unit u).base = (s.unit u).base := by
  cases u <;> cases p <;> rfl
@[simp] theorem latchFault_unit_cap (s : State) (u : UnitId) (c : Cause) (p : Bool) :
    ((s.latchFault u c p).unit u).cap = (s.unit u).cap := by
  cases u <;> cases p <;> rfl
theorem latchFault_unit_of_ne (s : State) {u v : UnitId} (c : Cause) (p : Bool) (h : v ≠ u) :
    (s.latchFault u c p).unit v = s.unit v := by
  cases u <;> cases v <;> first | exact absurd rfl h | (cases p <;> rfl)

@[simp] theorem latchFault_r_mem (s : State) (c : Cause) (p : Bool) : (s.latchFault .r c p).mem = s.mem := by
  cases p <;> rfl

@[simp] theorem latchFault_w_r (s : State) (c : Cause) (p : Bool) : (s.latchFault .w c p).r = s.r := by
  cases p <;> rfl

@[simp] theorem latchFault_r_w (s : State) (c : Cause) (p : Bool) : (s.latchFault .r c p).w = s.w := by
  cases p <;> rfl

/-! ## `State.hostReset` and `State.present` -/

@[simp] theorem hostReset_params (s : State) : s.hostReset.params = s.params := rfl
@[simp] theorem hostReset_w (s : State) : s.hostReset.w = BitUnit.reset := rfl
@[simp] theorem hostReset_r (s : State) : s.hostReset.r = BitUnit.reset := rfl
@[simp] theorem hostReset_lim (s : State) : s.hostReset.lim = Vector.replicate 16 Limit.reset := rfl
@[simp] theorem hostReset_mem (s : State) : s.hostReset.mem = [] := rfl
@[simp] theorem hostReset_memEpoch (s : State) : s.hostReset.memEpoch = s.memEpoch + 1 := rfl
@[simp] theorem hostReset_draws (s : State) : s.hostReset.draws = s.draws := rfl
@[simp] theorem hostReset_inbox (s : State) : s.hostReset.inbox = s.inbox := rfl
@[simp] theorem hostReset_responses (s : State) : s.hostReset.responses = s.responses := rfl
@[simp] theorem present_params (s : State) (c : Command) : (s.present c).params = s.params := rfl
@[simp] theorem present_w (s : State) (c : Command) : (s.present c).w = s.w := rfl
@[simp] theorem present_r (s : State) (c : Command) : (s.present c).r = s.r := rfl
@[simp] theorem present_lim (s : State) (c : Command) : (s.present c).lim = s.lim := rfl
@[simp] theorem present_mem (s : State) (c : Command) : (s.present c).mem = s.mem := rfl
@[simp] theorem present_memEpoch (s : State) (c : Command) : (s.present c).memEpoch = s.memEpoch := rfl
@[simp] theorem present_draws (s : State) (c : Command) : (s.present c).draws = s.draws := rfl
@[simp] theorem present_inbox (s : State) (c : Command) : (s.present c).inbox = .command c :: s.inbox := rfl
@[simp] theorem present_responses (s : State) (c : Command) : (s.present c).responses = s.responses := rfl

end Sys2Proof.Machine
end

