-- ==== Sys2Proof/Laws/Memory.lean ====
section
/-! SUPPORT. What every memory operation does, byte by byte, and that each keeps the canonical form
(`Memory.wf`) and the addresses `MEM` has. -/

namespace Sys2Proof.Machine

/-! ## One byte -/

@[simp] theorem memLookup_writeByte_same (m : Memory) (a : Nat) (b : Byte) :
    memLookup (memWriteByte m a b) a = some b := by
  induction m with
  | nil => simp [memWriteByte, memLookup]
  | cons c m ih =>
    obtain ⟨x, v⟩ := c
    simp only [memWriteByte]
    split
    · simp [memLookup]
    · split
      · simp [memLookup]
      · rename_i h; simp [memLookup, Ne.symm h, ih]

theorem memLookup_writeByte_of_ne (m : Memory) {a x : Nat} (b : Byte) (h : x ≠ a) :
    memLookup (memWriteByte m a b) x = memLookup m x := by
  induction m with
  | nil => simp [memWriteByte, memLookup, Ne.symm h]
  | cons c m ih =>
    obtain ⟨y, v⟩ := c
    simp only [memWriteByte]
    split
    · simp [memLookup, Ne.symm h]
    · split
      · rename_i e; subst e; simp [memLookup, Ne.symm h]
      · simp [memLookup, ih]

theorem mem_memWriteByte (m : Memory) (a : Nat) (b : Byte) {c : Host.Cell} (h : c ∈ memWriteByte m a b) :
    c = (a, b) ∨ c ∈ m := by
  induction m with
  | nil => simpa [memWriteByte] using h
  | cons d m ih =>
    obtain ⟨y, v⟩ := d
    simp only [memWriteByte] at h
    split at h
    · simpa using h
    · split at h
      · simp only [List.mem_cons] at h ⊢; tauto
      · simp only [List.mem_cons] at h ⊢
        rcases h with h | h
        · exact .inr (.inl h)
        · rcases ih h with h | h
          · exact .inl h
          · exact .inr (.inr h)

theorem memWriteByte_wf {m : Memory} (h : Memory.wf m) (a : Nat) (b : Byte) : Memory.wf (memWriteByte m a b) := by
  induction m with
  | nil => simp [Memory.wf, memWriteByte]
  | cons d m ih =>
    obtain ⟨y, v⟩ := d
    obtain ⟨hy, hm⟩ := List.pairwise_cons.mp h
    simp only [memWriteByte]
    split
    · rename_i hlt
      refine List.pairwise_cons.mpr ⟨fun c hc => ?_, h⟩
      rcases List.mem_cons.mp hc with rfl | hc
      · exact hlt
      · exact Nat.lt_trans hlt (hy c hc)
    · split
      · rename_i heq
        subst heq
        exact List.pairwise_cons.mpr ⟨fun c hc => hy c hc, hm⟩
      · refine List.pairwise_cons.mpr ⟨fun c hc => ?_, ih hm⟩
        rcases mem_memWriteByte m a b hc with rfl | hc
        · show y < a
          omega
        · exact hy c hc

theorem memWriteByte_fits {m : Memory} {n : Nat} (h : ∀ c ∈ m, c.1 < n) {a : Nat} (ha : a < n) (b : Byte) :
    ∀ c ∈ memWriteByte m a b, c.1 < n := fun c hc => by
  rcases mem_memWriteByte m a b hc with rfl | hc
  · exact ha
  · exact h c hc

/-! ## `MemWrite` and `MemRead` (20_memory.md rule R52) -/

theorem writeBytes_wf {m : Memory} (h : Memory.wf m) (addr : Nat) (v : Word64) (n : Nat) :
    Memory.wf (writeBytes m addr v n) := by
  induction n generalizing m addr v with
  | zero => exact h
  | succ n ih => exact ih (memWriteByte_wf h _ _) _ _

theorem writeBytes_fits {m : Memory} {k : Nat} (h : ∀ c ∈ m, c.1 < k) (addr : Nat) (v : Word64) (n : Nat)
    (ha : addr + n ≤ k) : ∀ c ∈ writeBytes m addr v n, c.1 < k := by
  induction n generalizing m addr v with
  | zero => exact h
  | succ n ih => exact ih (memWriteByte_fits h (by omega) _) _ _ (by omega)

theorem memLookup_writeBytes_outside (m : Memory) (addr : Nat) (v : Word64) (n : Nat) {a : Nat}
    (h : a < addr ∨ addr + n ≤ a) : memLookup (writeBytes m addr v n) a = memLookup m a := by
  induction n generalizing m addr v with
  | zero => rfl
  | succ n ih =>
    rw [writeBytes, ih _ _ _ (by omega), memLookup_writeByte_of_ne _ _ (by omega)]

theorem memLookup_writeBytes_inside (m : Memory) (addr : Nat) (v : Word64) (n : Nat) {i : Nat} (h : i < n) :
    memLookup (writeBytes m addr v n) (addr + i) = some (low8 (v >>> (8 * i))) := by
  induction n generalizing m addr v i with
  | zero => omega
  | succ n ih =>
    rw [writeBytes]
    cases i with
    | zero => simp [memLookup_writeBytes_outside _ (addr + 1) _ n (a := addr) (by omega)]
    | succ i =>
      have := ih (memWriteByte m addr (low8 v)) (addr + 1) (v >>> 8) (i := i) (by omega)
      rw [show addr + (i + 1) = addr + 1 + i by omega, this, ← BitVec.shiftRight_add,
        show 8 + 8 * i = 8 * (i + 1) by omega]

theorem getLsbD_readBytes (s : State) (addr n j : Nat) (h : n ≤ 8) :
    (readBytes s addr n).getLsbD j = (decide (j < 8 * n) && (s.byteAt (addr + j / 8)).getLsbD (j % 8)) := by
  induction n generalizing addr j with
  | zero => simp [readBytes]
  | succ n ih =>
    simp only [readBytes, BitVec.getLsbD_or, BitVec.getLsbD_setWidth, BitVec.getLsbD_shiftLeft]
    by_cases hj : j < 8
    · simp [hj, show j < 64 by omega, show j < 8 * (n + 1) by omega, show j / 8 = 0 by omega,
        show j % 8 = j by omega]
    · have hb : (s.byteAt addr).getLsbD j = false := BitVec.getLsbD_of_ge _ _ (by omega)
      rw [ih _ _ (by omega), hb]
      by_cases hn : j < 8 * (n + 1)
      · simp [hj, hn, show j < 64 by omega, show j - 8 < 8 * n by omega,
          show addr + 1 + (j - 8) / 8 = addr + j / 8 by omega, show (j - 8) % 8 = j % 8 by omega]
      · simp [hn, show ¬ (j - 8 < 8 * n) by omega]

/-! ## Unspecified bytes (60_exceptions.md rule R223) -/

theorem memUnspecified_wf {m : Memory} (h : Memory.wf m) (draw lo n : Nat) :
    Memory.wf (memUnspecified m draw lo n) := by
  induction n with
  | zero => exact h
  | succ n ih => exact memWriteByte_wf ih _ _

theorem memUnspecified_fits {m : Memory} {k : Nat} (h : ∀ c ∈ m, c.1 < k) (draw lo n : Nat)
    (hn : n = 0 ∨ lo + n ≤ k) : ∀ c ∈ memUnspecified m draw lo n, c.1 < k := by
  induction n with
  | zero => exact h
  | succ n ih => exact memWriteByte_fits (ih (by omega)) (by omega) _

theorem memLookup_memUnspecified_outside (m : Memory) (draw lo n : Nat) {a : Nat} (h : a < lo ∨ lo + n ≤ a) :
    memLookup (memUnspecified m draw lo n) a = memLookup m a := by
  induction n with
  | zero => rfl
  | succ n ih => rw [memUnspecified, memLookup_writeByte_of_ne _ _ (by omega), ih (by omega)]

/-! ## `State.byteAt` -/

/-- What a byte reads as depends on the memory and the epoch alone. -/
theorem byteAt_congr {s t : State} (hm : t.mem = s.mem) (he : t.memEpoch = s.memEpoch) (a : Nat) :
    t.byteAt a = s.byteAt a := by
  rw [State.byteAt, State.byteAt, hm, he]

/-- A byte whose entry is the same reads the same. -/
theorem byteAt_of_lookup {s t : State} {a : Nat} (hm : memLookup t.mem a = memLookup s.mem a)
    (he : t.memEpoch = s.memEpoch) : t.byteAt a = s.byteAt a := by
  rw [State.byteAt, State.byteAt, hm, he]

/-- A byte with an entry reads as the entry. -/
theorem byteAt_of_some {s : State} {a : Nat} {b : Byte} (h : memLookup s.mem a = some b) : s.byteAt a = b := by
  rw [State.byteAt, h]; rfl

end Sys2Proof.Machine
end

