-- ==== Sys2Proof/Laws/Ops.lean ====
section
/-! SUPPORT. For each shared operation, one lemma that says everything it can do, and what it does in a
well-formed state. -/

namespace Sys2Proof.Machine

/-! ## Bits -/

theorem getLsbD_mask {n : Count6} (h : n.toNat ≤ 32) (i : Nat) : (mask n).getLsbD i = decide (i < n.toNat) := by
  rw [mask, BitVec.getLsbD_ofNat, Nat.testBit_two_pow_sub_one]
  by_cases hi : i < n.toNat
  · simp [hi, show i < 32 by omega]
  · simp [hi]

theorem getLsbD_of_lt_two_pow {w k i : Nat} {x : BitVec w} (h : x.toNat < 2 ^ k) (hi : k ≤ i) :
    x.getLsbD i = false :=
  Nat.testBit_lt_two_pow (Nat.lt_of_lt_of_le h (Nat.pow_le_pow_right (by omega) hi))

theorem lt_two_pow_of_getLsbD {w k : Nat} {x : BitVec w} (h : ∀ i, k ≤ i → x.getLsbD i = false) :
    x.toNat < 2 ^ k :=
  Nat.lt_pow_two_of_testBit _ h

@[simp] theorem getLsbD_low32 (v : Word64) (i : Nat) : (low32 v).getLsbD i = (decide (i < 32) && v.getLsbD i) := by
  simp [low32]

@[simp] theorem getLsbD_high32 (v : Word64) (i : Nat) :
    (high32 v).getLsbD i = (decide (i < 32) && v.getLsbD (32 + i)) := by
  simp [high32]

@[simp] theorem getLsbD_low8 (v : Word64) (i : Nat) : (low8 v).getLsbD i = (decide (i < 8) && v.getLsbD i) := by
  simp [low8]

@[simp] theorem getLsbD_zext64 (v : Word32) (i : Nat) : (zext64 v).getLsbD i = v.getLsbD i := by
  by_cases h : i < 64
  · simp [zext64, h]
  · rw [BitVec.getLsbD_of_ge _ _ (by omega), BitVec.getLsbD_of_ge _ _ (by omega)]

/-! ## The Byte Buffer primitives -/

/-- Everything `BBWrite` can do. -/
theorem bbWrite_cases (u : UnitId) (n : Nat) (v : Word64) (s : State) :
    ((s.unit u).cap.toNat < (s.unit u).count.toNat + n ∧
      bbWrite u n v s = .error (.latch u .capacity false)) ∨
    ((s.unit u).count.toNat + n ≤ (s.unit u).cap.toNat ∧
      (s.unit u).base.toNat + (s.unit u).count.toNat + n ≤ s.params.memBytes ∧
      bbWrite u n v s = .ok ({ s with
        mem := writeBytes s.mem ((s.unit u).base.toNat + (s.unit u).count.toNat) v n }.setUnit u
        { s.unit u with count := BitVec.ofNat 32 ((s.unit u).count.toNat + n) })) ∨
    ((s.unit u).count.toNat + n ≤ (s.unit u).cap.toNat ∧
      s.params.memBytes < (s.unit u).base.toNat + (s.unit u).count.toNat + n ∧
      bbWrite u n v s = .error (.missing ((s.unit u).base.toNat + (s.unit u).count.toNat))) := by
  by_cases h : (s.unit u).cap.toNat < (s.unit u).count.toNat + n
  · exact .inl ⟨h, by simp [bbWrite, h]⟩
  · by_cases hm : (s.unit u).base.toNat + (s.unit u).count.toNat + n ≤ s.params.memBytes
    · exact .inr (.inl ⟨by omega, hm, by simp [bbWrite, h, inMemory, hm]⟩)
    · exact .inr (.inr ⟨by omega, by omega, by simp [bbWrite, h, inMemory, hm]⟩)

/-- Everything `BBRead` can do. -/
theorem bbRead_cases (u : UnitId) (n : Nat) (s : State) :
    ((s.unit u).cap.toNat < (s.unit u).count.toNat + n ∧
      bbRead u n s = .error (.latch u .capacity false)) ∨
    ((s.unit u).count.toNat + n ≤ (s.unit u).cap.toNat ∧
      (s.unit u).base.toNat + (s.unit u).count.toNat + n ≤ s.params.memBytes ∧
      bbRead u n s = .ok (readBytes s ((s.unit u).base.toNat + (s.unit u).count.toNat) n,
        s.setUnit u { s.unit u with count := BitVec.ofNat 32 ((s.unit u).count.toNat + n) })) ∨
    ((s.unit u).count.toNat + n ≤ (s.unit u).cap.toNat ∧
      s.params.memBytes < (s.unit u).base.toNat + (s.unit u).count.toNat + n ∧
      bbRead u n s = .error (.missing ((s.unit u).base.toNat + (s.unit u).count.toNat))) := by
  by_cases h : (s.unit u).cap.toNat < (s.unit u).count.toNat + n
  · exact .inl ⟨h, by simp [bbRead, h]⟩
  · by_cases hm : (s.unit u).base.toNat + (s.unit u).count.toNat + n ≤ s.params.memBytes
    · exact .inr (.inl ⟨by omega, hm, by simp [bbRead, h, inMemory, hm]⟩)
    · exact .inr (.inr ⟨by omega, by omega, by simp [bbRead, h, inMemory, hm]⟩)

/-- Everything `BBPatchBit` can do. -/
theorem bbPatchBit_cases (u : UnitId) (p : Nat) (b : Bool) (s : State) :
    ((s.unit u).base.toNat + p / 8 < s.params.memBytes ∧
      bbPatchBit u p b s = .ok { s with
        mem := memWriteByte s.mem ((s.unit u).base.toNat + p / 8)
          (patchByte (s.byteAt ((s.unit u).base.toNat + p / 8)) (p % 8) b) }) ∨
    (s.params.memBytes ≤ (s.unit u).base.toNat + p / 8 ∧
      bbPatchBit u p b s = .error (.missing ((s.unit u).base.toNat + p / 8))) := by
  by_cases h : (s.unit u).base.toNat + p / 8 < s.params.memBytes
  · refine .inl ⟨h, ?_⟩
    have : (s.unit u).base.toNat + p / 8 + 1 ≤ s.params.memBytes := h
    simp [bbPatchBit, inMemory, this]
  · refine .inr ⟨by omega, ?_⟩
    have : ¬ (s.unit u).base.toNat + p / 8 + 1 ≤ s.params.memBytes := by omega
    simp [bbPatchBit, inMemory, this]

theorem getLsbD_one_shiftLeft {w k i : Nat} (hi : i < w) : (1#w <<< k).getLsbD i = decide (i = k) := by
  rw [BitVec.getLsbD_shiftLeft, BitVec.getLsbD_one]
  by_cases h : i < k
  · simp [h, Nat.ne_of_lt h]
  · by_cases h' : i = k
    · subst h'
      simp [hi, Nat.lt_of_le_of_lt (Nat.zero_le i) hi]
    · simp [h', show ¬ (i - k = 0) by omega]

/-- Bit `i` after bit `k` has been set to `b`. -/
theorem getLsbD_setBit {w : Nat} (x : BitVec w) {k i : Nat} (b : Bool) (hi : i < w) :
    ((x &&& ~~~(1#w <<< k)) ||| (if b then 1#w <<< k else 0)).getLsbD i = if i = k then b else x.getLsbD i := by
  have hif : (if b then 1#w <<< k else 0).getLsbD i = (b && decide (i = k)) := by
    cases b
    · simp
    · simpa using getLsbD_one_shiftLeft hi
  rw [BitVec.getLsbD_or, BitVec.getLsbD_and, BitVec.getLsbD_not, getLsbD_one_shiftLeft hi, hif]
  by_cases h : i = k <;> simp [h, hi]

theorem getLsbD_patchByte (old : Byte) {k i : Nat} (b : Bool) (hi : i < 8) :
    (patchByte old k b).getLsbD i = if i = k then b else old.getLsbD i :=
  getLsbD_setBit old b hi

theorem getLsbD_patchPending (old : Word64) {k i : Nat} (b : Bool) (hi : i < 64) :
    (patchPending old k b).getLsbD i = if i = k then b else old.getLsbD i :=
  getLsbD_setBit old b hi

/-- Bit `p` of a value stored with `MemWrite`, found where it was stored (20_memory.md rule R52). -/
theorem byteAt_writeBytes_bit {t : State} {m : Memory} {addr n p : Nat} {v : Word64}
    (hm : t.mem = writeBytes m addr v n) (hp : p < 8 * n) :
    (t.byteAt (addr + p / 8)).getLsbD (p % 8) = v.getLsbD p := by
  have hl := memLookup_writeBytes_inside m addr v n (i := p / 8) (by omega)
  rw [byteAt_of_some (hm ▸ hl), getLsbD_low8, BitVec.getLsbD_ushiftRight,
    show 8 * (p / 8) + p % 8 = p by omega, decide_eq_true (Nat.mod_lt p (by omega)), Bool.true_and]

theorem byteAt_writeBytes_outside {s t : State} {addr n a : Nat} {v : Word64}
    (hm : t.mem = writeBytes s.mem addr v n) (he : t.memEpoch = s.memEpoch) (ha : a < addr ∨ addr + n ≤ a) :
    t.byteAt a = s.byteAt a :=
  byteAt_of_lookup (by rw [hm, memLookup_writeBytes_outside _ _ _ _ ha]) he

/-! ## The accumulator primitives -/

/-- The accumulator of `WPush` after the merge, before any store (rule R112). -/
abbrev merged (s : State) (n : Count6) (v : Word32) : Word64 :=
  s.w.pending ||| (zext64 (v &&& mask n) <<< s.w.valid.toNat)

/-- Everything `WPush` can do. -/
theorem wPush_cases (n : Count6) (v : Word32) (s : State) :
    (s.w.valid.toNat + n.toNat < 32 ∧
      wPush n v s = .ok { s with w := { s.w with
        pending := merged s n v
        valid := BitVec.ofNat 6 (s.w.valid.toNat + n.toNat) } }) ∨
    (32 ≤ s.w.valid.toNat + n.toNat ∧ s.w.count.toNat + 4 ≤ s.w.cap.toNat ∧
      s.w.base.toNat + s.w.count.toNat + 4 ≤ s.params.memBytes ∧
      wPush n v s = .ok { s with
        w := { s.w with
          pending := merged s n v >>> 32
          valid := BitVec.ofNat 6 (s.w.valid.toNat + n.toNat - 32)
          count := BitVec.ofNat 32 (s.w.count.toNat + 4) }
        mem := writeBytes s.mem (s.w.base.toNat + s.w.count.toNat) (zext64 (low32 (merged s n v))) 4 }) ∨
    (32 ≤ s.w.valid.toNat + n.toNat ∧ s.w.cap.toNat < s.w.count.toNat + 4 ∧
      wPush n v s = .error (.latch .w .capacity false)) ∨
    (32 ≤ s.w.valid.toNat + n.toNat ∧ s.w.count.toNat + 4 ≤ s.w.cap.toNat ∧
      s.params.memBytes < s.w.base.toNat + s.w.count.toNat + 4 ∧
      wPush n v s = .error (.missing (s.w.base.toNat + s.w.count.toNat))) := by
  by_cases hge : 32 ≤ s.w.valid.toNat + n.toNat
  · rcases bbWrite_cases .w 4 (zext64 (low32 (merged s n v))) s with ⟨h, e⟩ | ⟨h, hm, e⟩ | ⟨h, hm, e⟩
    · exact .inr (.inr (.inl ⟨hge, h, by unfold wPush; rw [if_pos hge, e]; rfl⟩))
    · exact .inr (.inl ⟨hge, h, hm, by unfold wPush; rw [if_pos hge, e]; rfl⟩)
    · exact .inr (.inr (.inr ⟨hge, h, hm, by unfold wPush; rw [if_pos hge, e]; rfl⟩))
  · exact .inl ⟨by omega, by unfold wPush; rw [if_neg hge]⟩

/-- Everything `RPop` can do. -/
theorem rPop_cases (n : Count6) (s : State) :
    (n.toNat ≤ s.r.valid.toNat ∧
      rPop n s = .ok (low32 s.r.pending &&& mask n, { s with r := { s.r with
        pending := s.r.pending >>> n.toNat
        valid := BitVec.ofNat 6 (s.r.valid.toNat - n.toNat) } })) ∨
    (s.r.valid.toNat < n.toNat ∧ s.r.count.toNat + 4 ≤ s.r.cap.toNat ∧
      s.r.base.toNat + s.r.count.toNat + 4 ≤ s.params.memBytes ∧
      rPop n s =
        let filled := s.r.pending |||
          (readBytes s (s.r.base.toNat + s.r.count.toNat) 4 <<< s.r.valid.toNat)
        .ok (low32 filled &&& mask n, { s with r := { s.r with
          pending := filled >>> n.toNat
          valid := BitVec.ofNat 6 ((BitVec.ofNat 6 (s.r.valid.toNat + 32)).toNat - n.toNat)
          count := BitVec.ofNat 32 (s.r.count.toNat + 4) } })) ∨
    (s.r.valid.toNat < n.toNat ∧ s.r.cap.toNat < s.r.count.toNat + 4 ∧
      rPop n s = .error (.latch .r .capacity false)) ∨
    (s.r.valid.toNat < n.toNat ∧ s.r.count.toNat + 4 ≤ s.r.cap.toNat ∧
      s.params.memBytes < s.r.base.toNat + s.r.count.toNat + 4 ∧
      rPop n s = .error (.missing (s.r.base.toNat + s.r.count.toNat))) := by
  by_cases hlt : s.r.valid.toNat < n.toNat
  · rcases bbRead_cases .r 4 s with ⟨h, e⟩ | ⟨h, hm, e⟩ | ⟨h, hm, e⟩
    · exact .inr (.inr (.inl ⟨hlt, h, by unfold rPop rRefill; rw [if_pos hlt, e]; rfl⟩))
    · exact .inr (.inl ⟨hlt, h, hm, by unfold rPop rRefill; rw [if_pos hlt, e]; rfl⟩)
    · exact .inr (.inr (.inr ⟨hlt, h, hm, by unfold rPop rRefill; rw [if_pos hlt, e]; rfl⟩))
  · exact .inl ⟨by omega, by unfold rPop rRefill; rw [if_neg hlt]; rfl⟩

end Sys2Proof.Machine
end

