-- ==== Sys2Proof/Laws/Accumulator.lean ====
section
/-! SUPPORT. What `WPush`, `RPop` and the operations built on them do in a well-formed state: the writer's
stream grows by a field, the reader's upcoming bits advance (40_accumulator_and_control.md rules R112 to
R115). -/

namespace Sys2Proof.Machine

/-! ## Keeping well-formedness -/

/-- A well-formed state with a well-formed writer and memory in place of its own. -/
theorem State.Wf.withWriter {s t : State} (h : s.Wf) (hp : t.params = s.params) (hr : t.r = s.r)
    (hl : t.lim = s.lim) (hw : t.w.Wf s.params.memBytes)
    (hc : t.w.fault = true → 1 ≤ t.w.cause.toNat ∧ t.w.cause.toNat ≤ 4) (hm : Memory.wf t.mem)
    (hf : ∀ c ∈ t.mem, c.1 < s.params.memBytes) : t.Wf where
  params := hp ▸ h.params
  writer := hp ▸ hw
  reader := hp ▸ hr ▸ h.reader
  limits := hl ▸ h.limits
  writerCause := hc
  readerCause := hr ▸ h.readerCause
  memory := hm
  memoryFits := hp ▸ hf

/-- A well-formed state with a well-formed reader in place of its own. -/
theorem State.Wf.withReader {s t : State} (h : s.Wf) (hp : t.params = s.params) (hw : t.w = s.w)
    (hl : t.lim = s.lim) (hm : t.mem = s.mem) (hr : t.r.Wf s.params.memBytes)
    (hc : t.r.fault = true → t.r.cause = causeCode .capacity) : t.Wf where
  params := hp ▸ h.params
  writer := hp ▸ hw ▸ h.writer
  reader := hp ▸ hr
  limits := hl ▸ h.limits
  writerCause := hw ▸ h.writerCause
  readerCause := hc
  memory := hm ▸ h.memory
  memoryFits := hp ▸ hm ▸ h.memoryFits

/-! ## Fields one after the other -/

/-- A field appended leaves the stream below it, the window and the latch as they were. -/
theorem AppendsField.unchanged {s t : State} {k f a : Nat} (h : AppendsField s t k f a) :
    t.params = s.params ∧ t.r = s.r ∧ t.lim = s.lim ∧ t.memEpoch = s.memEpoch ∧ t.inbox = s.inbox ∧
      t.w.base = s.w.base ∧ t.w.cap = s.w.cap ∧ t.w.fault = s.w.fault ∧ t.w.cause = s.w.cause := by
  rw [h.frame]; simp

/-- Nothing appended. -/
theorem AppendsField.refl (s : State) (f : Nat) : AppendsField s s 0 f 0 where
  frame := rfl
  count := rfl
  bits := rfl
  older := fun _ _ => rfl
  field := fun _ hj => absurd hj (Nat.not_lt_zero _)
  memory := fun _ _ => rfl

/-- Two fields appended are one field, the first in the low bits. -/
theorem AppendsField.trans {s t u : State} {k f a l g b : Nat} (h : AppendsField s t k f a)
    (h' : AppendsField t u l g b) : AppendsField s u (k + l) (f % 2 ^ k + 2 ^ k * g) (a + b) := by
  obtain ⟨hp, hr, hl, he, hi, hb, hc, hf, hca⟩ := h.unchanged
  have hcount := h.count
  refine ⟨?_, ?_, ?_, ?_, ?_, ?_⟩
  · rw [h'.frame, h.frame]
  · rw [h'.count, hcount]; omega
  · rw [h'.bits, h.bits]; omega
  · intro p hp'
    rw [h'.older p (by rw [h.bits]; omega), h.older p hp']
  · intro j hj
    rw [Nat.add_comm (f % 2 ^ k), Nat.testBit_two_pow_mul_add _ (Nat.mod_lt f (Nat.two_pow_pos k))]
    by_cases hjk : j < k
    · rw [h'.older _ (by rw [h.bits]; omega), h.field j hjk]
      simp [hjk, Nat.testBit_mod_two_pow]
    · have := h'.field (j - k) (by omega)
      rw [h.bits, show s.bitsCount + k + (j - k) = s.bitsCount + j by omega] at this
      simp [hjk, this]
  · intro x hx
    rw [h'.memory x (by rw [hb, hcount]; omega), h.memory x (by omega)]

/-- Only the low `k` bits of the value matter. -/
theorem AppendsField.congr {s t : State} {k f g a : Nat} (h : AppendsField s t k f a)
    (e : f % 2 ^ k = g % 2 ^ k) : AppendsField s t k g a :=
  { h with
    field := fun j hj => by
      rw [h.field j hj]
      have := congrArg (fun x => x.testBit j) e
      simpa [Nat.testBit_mod_two_pow, hj] using this }

/-! ## `WPush` (rule R112) -/

/-- The accumulator of `WPush` after the merge, bit by bit (rule R113). -/
theorem getLsbD_merged (pending : Word64) (q : Nat) {n : Count6} (v : Word32) (hn : n.toNat ≤ 32)
    (hq : q ≤ 31) (i : Nat) :
    (pending ||| (zext64 (v &&& mask n) <<< q)).getLsbD i =
      (pending.getLsbD i || (decide (q ≤ i) && decide (i - q < n.toNat) && v.getLsbD (i - q))) := by
  rw [BitVec.getLsbD_or, BitVec.getLsbD_shiftLeft, getLsbD_zext64, BitVec.getLsbD_and, getLsbD_mask hn]
  by_cases hi : q ≤ i
  · by_cases hk : i - q < n.toNat
    · simp [hi, hk, show i < 64 by omega, show ¬ i < q by omega]
    · simp [hi, hk]
  · simp [hi, show i < q by omega]

/-- The stream of a state whose accumulator and last bytes hold the bits of `x` from the old count on. -/
theorem AppendsField.of_bits {s t : State} {k f stored : Nat} {x : Word64}
    (frame : t = { s with
      w := { s.w with pending := t.w.pending, valid := t.w.valid, count := t.w.count }
      mem := t.mem
      responses := t.responses })
    (count : t.w.count.toNat = s.w.count.toNat + stored)
    (bits : t.bitsCount = s.bitsCount + k)
    (memory : ∀ a, a < s.w.base.toNat + s.w.count.toNat ∨ s.w.base.toNat + s.w.count.toNat + stored ≤ a →
      t.byteAt a = s.byteAt a)
    (low : ∀ p, p < 8 * stored →
      (t.byteAt (s.w.base.toNat + s.w.count.toNat + p / 8)).getLsbD (p % 8) = x.getLsbD p)
    (high : ∀ p, t.w.pending.getLsbD p = x.getLsbD (8 * stored + p))
    (old : ∀ p < s.w.valid.toNat, x.getLsbD p = s.w.pending.getLsbD p)
    (new : ∀ j < k, x.getLsbD (s.w.valid.toNat + j) = f.testBit j) : AppendsField s t k f stored := by
  have hbase : t.w.base = s.w.base := by rw [frame]
  have key : ∀ p, t.streamBit (8 * s.w.count.toNat + p) = x.getLsbD p := by
    intro p
    unfold State.streamBit
    rw [hbase, count]
    split
    · rename_i hlt
      rw [← low p (by omega)]
      rw [show s.w.base.toNat + s.w.count.toNat + p / 8 = s.w.base.toNat + (8 * s.w.count.toNat + p) / 8 by omega,
        show p % 8 = (8 * s.w.count.toNat + p) % 8 by omega]
    · rename_i hge
      rw [high]
      congr 1
      omega
  refine ⟨frame, count, bits, ?_, ?_, memory⟩
  · intro p hp
    by_cases hlt : p < 8 * s.w.count.toNat
    · unfold State.streamBit
      rw [if_pos hlt, if_pos (by omega), hbase, memory _ (by omega)]
    · have h1 := key (p - 8 * s.w.count.toNat)
      rw [show 8 * s.w.count.toNat + (p - 8 * s.w.count.toNat) = p by omega] at h1
      unfold State.bitsCount at hp
      rw [h1, old _ (by omega)]
      unfold State.streamBit
      rw [if_neg hlt]
  · intro j hj
    rw [← new j hj, ← key]
    unfold State.bitsCount
    congr 1
    omega

/-- Without room for the word it completes, `WPush` raises the capacity fault (rule R112). -/
theorem wPush_full {s : State} {n : Count6} {v : Word32}
    (h : s.w.cap.toNat < s.w.count.toNat + pushStores s.w.valid.toNat n.toNat)
    (hs : s.w.count.toNat ≤ s.w.cap.toNat) (hn : n.toNat ≤ 32) (hv : s.w.valid.toNat ≤ 31) :
    wPush n v s = .error (.latch .w .capacity false) := by
  unfold pushStores at h
  rcases wPush_cases n v s with ⟨h', -⟩ | ⟨-, h', -⟩ | ⟨-, -, e⟩ | ⟨-, h', -⟩
  · omega
  · omega
  · exact e
  · omega

/-- In a well-formed state with room, `WPush` appends the field of the low `n` bits (rules R112, R113). -/
theorem wPush_appends {s : State} (hs : s.Wf) (hf : s.w.fault = false) {n : Count6} (hn : n.toNat ≤ 32)
    (v : Word32) (h : s.w.count.toNat + pushStores s.w.valid.toNat n.toNat ≤ s.w.cap.toNat) :
    ∃ t, wPush n v s = .ok t ∧ t.Wf ∧ t.responses = s.responses ∧
      AppendsField s t n.toNat v.toNat (pushStores s.w.valid.toNat n.toNat) := by
  obtain ⟨hfit, hacc⟩ := hs.writer
  obtain ⟨hv, hpend, hcnt, hcause⟩ := hacc hf
  have hcap := s.w.cap.isLt
  obtain ⟨x, hx⟩ : ∃ x, merged s n v = x := ⟨_, rfl⟩
  have xbit : ∀ i, x.getLsbD i = (s.w.pending.getLsbD i ||
      (decide (s.w.valid.toNat ≤ i) && decide (i - s.w.valid.toNat < n.toNat) &&
        v.getLsbD (i - s.w.valid.toNat))) := fun i => by
    rw [← hx, getLsbD_merged _ _ _ hn hv]
  have old : ∀ p < s.w.valid.toNat, x.getLsbD p = s.w.pending.getLsbD p := fun p hp => by
    rw [xbit]; simp [show ¬ s.w.valid.toNat ≤ p by omega]
  have new : ∀ j < n.toNat, x.getLsbD (s.w.valid.toNat + j) = v.toNat.testBit j := fun j hj => by
    rw [xbit, getLsbD_of_lt_two_pow hpend (by omega)]
    simp [hj, BitVec.testBit_toNat]
  have top : ∀ i, s.w.valid.toNat + n.toNat ≤ i → x.getLsbD i = false := fun i hi => by
    rw [xbit, getLsbD_of_lt_two_pow hpend (by omega)]
    simp [show ¬ (i - s.w.valid.toNat < n.toNat) by omega]
  rcases wPush_cases n v s with ⟨ht, e⟩ | ⟨ht, hroom, hmem, e⟩ | ⟨ht, h', -⟩ | ⟨ht, -, h', -⟩
  · have hst : pushStores s.w.valid.toNat n.toNat = 0 := by unfold pushStores; omega
    have hval : (BitVec.ofNat 6 (s.w.valid.toNat + n.toNat)).toNat = s.w.valid.toNat + n.toNat :=
      Nat.mod_eq_of_lt (by omega)
    rw [hst]
    rw [hx] at e
    refine ⟨_, e, ?_, rfl, ?_⟩
    · refine hs.withWriter rfl rfl rfl ⟨hfit, fun _ => ⟨?_, ?_, hcnt, hcause⟩⟩ (fun h => ?_)
        hs.memory hs.memoryFits
      · show BitVec.toNat _ ≤ 31
        rw [hval]; omega
      · refine lt_two_pow_of_getLsbD fun i hi => top i ?_
        rwa [hval] at hi
      · simp [hf] at h
    · refine AppendsField.of_bits (x := x) rfl rfl ?_ (fun _ _ => rfl) ?_ ?_ old new
      · show 8 * s.w.count.toNat + BitVec.toNat _ = 8 * s.w.count.toNat + s.w.valid.toNat + n.toNat
        rw [hval]; omega
      · intro p hp; omega
      · intro p; simp
  · have hst : pushStores s.w.valid.toNat n.toNat = 4 := by unfold pushStores; omega
    have hval : (BitVec.ofNat 6 (s.w.valid.toNat + n.toNat - 32)).toNat = s.w.valid.toNat + n.toNat - 32 :=
      Nat.mod_eq_of_lt (by omega)
    have hcount : (BitVec.ofNat 32 (s.w.count.toNat + 4)).toNat = s.w.count.toNat + 4 :=
      Nat.mod_eq_of_lt (by omega)
    rw [hst]
    rw [hx] at e
    refine ⟨_, e, ?_, rfl, ?_⟩
    · refine hs.withWriter rfl rfl rfl ⟨hfit, fun _ => ⟨?_, ?_, ?_, hcause⟩⟩ (fun h => ?_) ?_ ?_
      · show BitVec.toNat _ ≤ 31
        rw [hval]; omega
      · refine lt_two_pow_of_getLsbD fun i hi => ?_
        rw [hval] at hi
        rw [BitVec.getLsbD_ushiftRight]
        exact top _ (by omega)
      · show BitVec.toNat _ ≤ s.w.cap.toNat
        rw [hcount]; exact hroom
      · simp [hf] at h
      · exact writeBytes_wf hs.memory _ _ _
      · exact writeBytes_fits hs.memoryFits _ _ _ (by omega)
    · refine AppendsField.of_bits (x := x) rfl hcount ?_ ?_ ?_ ?_ old new
      · show 8 * BitVec.toNat _ + BitVec.toNat _ = 8 * s.w.count.toNat + s.w.valid.toNat + n.toNat
        rw [hval, hcount]; omega
      · intro a ha
        exact byteAt_writeBytes_outside rfl rfl ha
      · intro p hp
        rw [byteAt_writeBytes_bit rfl hp, getLsbD_zext64, getLsbD_low32]
        simp [show p < 32 by omega]
      · intro p
        rw [BitVec.getLsbD_ushiftRight]
  · unfold pushStores at h; omega
  · unfold pushStores at h; omega

end Sys2Proof.Machine
end

