-- ==== Sys2Proof/Laws/Appending.lean ====
section
/-! SUPPORT. What `WriteWhole`, the flagged whole-type writes and `W.FLUSH` do in a well-formed state: the
writer's stream grows by one field, whichever path a value takes (41_bit_writer.md rules R132, R137,
44_delta.md rules R196 to R199). -/

namespace Sys2Proof.Machine

/-! ## Pushes one after the other -/

theorem pushStores_add {v v' k l : Nat} (h : v' + 8 * pushStores v k = v + k) :
    pushStores v (k + l) = pushStores v k + pushStores v' l := by
  unfold pushStores at *; omega

/-- The pending count after a field was appended. -/
theorem AppendsField.valid {s t : State} {k f a : Nat} (h : AppendsField s t k f a) :
    t.w.valid.toNat + 8 * a = s.w.valid.toNat + k := by
  have h1 := h.bits
  have h2 := h.count
  unfold State.bitsCount at h1
  omega

/-- Pushes of `k` and then of `l` bits are pushes of `k + l` bits. -/
theorem AppendsField.pushes {s t u : State} {k l f g : Nat}
    (h : AppendsField s t k f (pushStores s.w.valid.toNat k))
    (h' : AppendsField t u l g (pushStores t.w.valid.toNat l)) :
    AppendsField s u (k + l) (f % 2 ^ k + 2 ^ k * g) (pushStores s.w.valid.toNat (k + l)) := by
  rw [pushStores_add h.valid]
  exact h.trans h'

/-- There is room for pushes of `k + l` bits when there is for those of `k` bits and then for those of `l`. -/
theorem AppendsField.room {s t : State} {k l f : Nat}
    (h : AppendsField s t k f (pushStores s.w.valid.toNat k)) :
    s.w.count.toNat + pushStores s.w.valid.toNat (k + l) =
      t.w.count.toNat + pushStores t.w.valid.toNat l := by
  rw [pushStores_add h.valid, h.count]; omega

theorem pushStores_le_add (v k l : Nat) : pushStores v k ≤ pushStores v (k + l) := by
  unfold pushStores; omega

theorem AppendsField.respond {s t : State} {k f a : Nat} (h : AppendsField s t k f a) (x : Response) :
    AppendsField s (t.respond x) k f a where
  frame := by
    have := h.frame
    show State.respond t x = _
    rw [this]; rfl
  count := h.count
  bits := h.bits
  older := h.older
  field := h.field
  memory := h.memory

/-! ## `WriteWhole` (rule R132) -/

theorem getLsbD_wholeOperand (wd : Width) (v : Word64) (i : Nat) :
    (wholeOperand wd v).getLsbD i = (decide (i < widthBits wd) && v.getLsbD i) := by
  have h64 : widthBits wd ≤ 64 := by cases wd <;> simp [widthBits]
  rw [wholeOperand, BitVec.getLsbD_setWidth, BitVec.getLsbD_setWidth]
  by_cases h : i < widthBits wd
  · simp [h, show i < 64 by omega]
  · simp [h]

/-- In a well-formed state with room and nothing pending, `BBWrite` appends a field of `8 * n` bits
(20_memory.md rule R53, 30_encoding.md rule R91). -/
theorem bbWrite_appends {s : State} (hs : s.Wf) (hf : s.w.fault = false) (hv : s.w.valid = 0) {n : Nat}
    {x : Word64} (hx : ∀ i, 8 * n ≤ i → x.getLsbD i = false)
    (h : s.w.count.toNat + n ≤ s.w.cap.toNat) :
    ∃ t, bbWrite .w n x s = .ok t ∧ t.Wf ∧ t.responses = s.responses ∧ AppendsField s t (8 * n) x.toNat n := by
  obtain ⟨hfit, hacc⟩ := hs.writer
  obtain ⟨hvle, hpend, hcnt, hcause⟩ := hacc hf
  have hcap := s.w.cap.isLt
  have hv0 : s.w.valid.toNat = 0 := by rw [hv]; rfl
  have hcount : (BitVec.ofNat 32 (s.w.count.toNat + n)).toNat = s.w.count.toNat + n :=
    Nat.mod_eq_of_lt (by omega)
  rcases bbWrite_cases .w n x s with ⟨h', -⟩ | ⟨-, -, e⟩ | ⟨-, h', -⟩
  · exact absurd h' (by simpa using h)
  · simp only [unit_w, setUnit_w] at e
    refine ⟨_, e, ?_, rfl, ?_⟩
    · refine hs.withWriter rfl rfl rfl ⟨hfit, fun _ => ⟨hvle, hpend, hcount.trans_le h, hcause⟩⟩
        (fun h => ?_) ?_ ?_
      · simp [hf] at h
      · exact writeBytes_wf hs.memory _ _ _
      · exact writeBytes_fits hs.memoryFits _ _ _ (by omega)
    · refine AppendsField.of_bits (x := x) rfl hcount ?_ ?_ ?_ ?_ ?_ ?_
      · show 8 * BitVec.toNat _ + s.w.valid.toNat = 8 * s.w.count.toNat + s.w.valid.toNat + 8 * n
        rw [hcount]; omega
      · intro a ha
        exact byteAt_writeBytes_outside rfl rfl ha
      · intro p hp
        exact byteAt_writeBytes_bit rfl hp
      · intro p
        show s.w.pending.getLsbD p = _
        rw [getLsbD_of_lt_two_pow hpend (by omega), hx _ (by omega)]
      · intro p hp; omega
      · intro j hj
        rw [hv0, Nat.zero_add, BitVec.testBit_toNat]
  · simp only [unit_w] at h'; omega

theorem bbWrite_full {s : State} {n : Nat} {x : Word64} (h : s.w.cap.toNat < s.w.count.toNat + n) :
    bbWrite .w n x s = .error (.latch .w .capacity false) := by
  rcases bbWrite_cases .w n x s with ⟨-, e⟩ | ⟨h', -⟩ | ⟨h', -⟩
  · exact e
  · simp only [unit_w] at h'; omega
  · simp only [unit_w] at h'; omega

theorem toNat_ne_zero {w : Nat} {x : BitVec w} (h : ¬ x = 0) : ¬ x.toNat = 0 := fun e =>
  h (BitVec.eq_of_toNat_eq (by simpa using e))

theorem width_cases (wd : Width) :
    widthBits wd / 8 = widthBytes wd ∧ 8 * widthBytes wd = widthBits wd ∧
      ((widthBits wd ≤ 32 ∧ (widthCount wd).toNat = widthBits wd) ∨ widthBits wd = 32 + 32) := by
  cases wd <;> decide

theorem wholeOperand_mod (wd : Width) (v : Word64) :
    (wholeOperand wd v).toNat % 2 ^ widthBits wd = v.toNat % 2 ^ widthBits wd := by
  refine Nat.eq_of_testBit_eq fun i => ?_
  rw [Nat.testBit_mod_two_pow, Nat.testBit_mod_two_pow, BitVec.testBit_toNat, BitVec.testBit_toNat,
    getLsbD_wholeOperand]
  by_cases h : i < widthBits wd <;> simp [h]

theorem low32_wholeOperand_mod {wd : Width} (h : widthBits wd ≤ 32) (v : Word64) :
    (low32 (wholeOperand wd v)).toNat % 2 ^ widthBits wd = v.toNat % 2 ^ widthBits wd := by
  refine Nat.eq_of_testBit_eq fun i => ?_
  rw [Nat.testBit_mod_two_pow, Nat.testBit_mod_two_pow, BitVec.testBit_toNat, BitVec.testBit_toNat,
    getLsbD_low32, getLsbD_wholeOperand]
  by_cases hi : i < widthBits wd
  · simp [hi, show i < 32 by omega]
  · simp [hi]

theorem toNat_halves (v : Word64) : (low32 v).toNat % 2 ^ 32 + 2 ^ 32 * (high32 v).toNat = v.toNat := by
  simp only [low32, high32, BitVec.extractLsb'_toNat, Nat.shiftRight_eq_div_pow]
  have := v.isLt
  omega

/-- In a well-formed state with room, `WriteWhole` appends one field of the value's width, on either path
(rule R132, 30_encoding.md rule R91). -/
theorem writeWhole_appends {s : State} (hs : s.Wf) (hf : s.w.fault = false) (wd : Width) (v : Word64)
    (h : s.w.count.toNat + wholeStores s.w.valid.toNat (widthBits wd) ≤ s.w.cap.toNat) :
    ∃ t, writeWhole wd v s = .ok t ∧ t.Wf ∧ t.responses = s.responses ∧
      AppendsField s t (widthBits wd) v.toNat (wholeStores s.w.valid.toNat (widthBits wd)) := by
  obtain ⟨hbits, hbytes, hw⟩ := width_cases wd
  by_cases hv : s.w.valid = 0
  · have hst : wholeStores s.w.valid.toNat (widthBits wd) = widthBytes wd := by
      rw [wholeStores, if_pos (by rw [hv]; rfl), hbits]
    rw [hst] at h ⊢
    obtain ⟨t, e, h1, h2, h3⟩ := bbWrite_appends hs hf hv (x := wholeOperand wd v)
      (fun i hi => by rw [getLsbD_wholeOperand]; simp [show ¬ i < widthBits wd by omega]) h
    rw [hbytes] at h3
    exact ⟨t, by rw [writeWhole]; simp only [hv, if_true]; exact e, h1, h2, h3.congr (wholeOperand_mod wd v)⟩
  · have hst : wholeStores s.w.valid.toNat (widthBits wd) = pushStores s.w.valid.toNat (widthBits wd) := by
      rw [wholeStores, if_neg (toNat_ne_zero hv)]
    rw [hst] at h ⊢
    rcases hw with ⟨h32, hc⟩ | h64
    · obtain ⟨t, e, h1, h2, h3⟩ := wPush_appends hs hf (n := widthCount wd) (by omega)
        (low32 (wholeOperand wd v)) (by rw [hc]; exact h)
      rw [hc] at h3
      refine ⟨t, ?_, h1, h2, h3.congr (low32_wholeOperand_mod h32 v)⟩
      rw [writeWhole]
      simp only [hv, h32, if_false, if_true]
      exact e
    · rw [h64] at h ⊢
      have hle := pushStores_le_add s.w.valid.toNat 32 32
      obtain ⟨t, e, h1, h2, h3⟩ := wPush_appends hs hf (n := 32) (by decide) (low32 (wholeOperand wd v))
        (show _ + pushStores _ 32 ≤ _ by omega)
      have h3 : AppendsField s t 32 _ (pushStores s.w.valid.toNat 32) := h3
      obtain ⟨-, -, -, -, -, -, hcap, hfa, -⟩ := h3.unchanged
      have hroom := h3.room (l := 32)
      obtain ⟨u, e', h1', h2', h3'⟩ := wPush_appends h1 (hfa.trans hf) (n := 32) (by decide)
        (high32 (wholeOperand wd v)) (show _ + pushStores _ 32 ≤ _ by rw [hcap]; omega)
      have h3' : AppendsField t u 32 _ (pushStores t.w.valid.toNat 32) := h3'
      refine ⟨u, ?_, h1', h2'.trans h2, (h3.pushes h3').congr ?_⟩
      · rw [writeWhole]
        simp only [hv, if_false, show ¬ widthBits wd ≤ 32 by omega, e, bind, Except.bind]
        exact e'
      · have := wholeOperand_mod wd v
        rw [toNat_halves]
        rw [h64] at this
        exact this

/-- Without room, `WriteWhole` raises the capacity fault. -/
theorem writeWhole_full {s : State} (hs : s.Wf) (hf : s.w.fault = false) (wd : Width) (v : Word64)
    (h : s.w.cap.toNat < s.w.count.toNat + wholeStores s.w.valid.toNat (widthBits wd)) :
    writeWhole wd v s = .error (.latch .w .capacity false) := by
  obtain ⟨hbits, hbytes, hw⟩ := width_cases wd
  obtain ⟨hv31, -, hcnt, -⟩ := hs.writer.2 hf
  rw [writeWhole]
  by_cases hv : s.w.valid = 0
  · rw [wholeStores, if_pos (by rw [hv]; rfl), hbits] at h
    simp only [hv, if_true]
    exact bbWrite_full h
  · rw [wholeStores, if_neg (toNat_ne_zero hv)] at h
    rcases hw with ⟨h32, hc⟩ | h64
    · simp only [hv, h32, if_false, if_true]
      exact wPush_full (by rw [hc]; exact h) hcnt (by omega) hv31
    · rw [h64] at h
      simp only [hv, if_false, show ¬ widthBits wd ≤ 32 by omega]
      by_cases h1 : s.w.count.toNat + pushStores s.w.valid.toNat 32 ≤ s.w.cap.toNat
      · obtain ⟨t, e, ht, -, h3⟩ := wPush_appends hs hf (n := 32) (by decide) (low32 (wholeOperand wd v)) h1
        have h3 : AppendsField s t 32 _ (pushStores s.w.valid.toNat 32) := h3
        obtain ⟨-, -, -, -, -, -, hcap, hfa, -⟩ := h3.unchanged
        have hroom := h3.room (l := 32)
        obtain ⟨hv31', -, hcnt', -⟩ := ht.writer.2 (hfa.trans hf)
        rw [e]
        exact wPush_full (n := 32) (show _ < _ + pushStores _ 32 by rw [hcap]; omega) hcnt' (by decide) hv31'
      · rw [wPush_full (n := 32) (show _ < _ + pushStores _ 32 by omega) hcnt (by decide) hv31]
        rfl

/-! ## A flag (44_delta.md rule R195) -/

/-- A push of one flag bit in a well-formed state with room. -/
theorem wPush_one {s : State} (hs : s.Wf) (hf : s.w.fault = false) (b : Bool)
    (h : s.w.count.toNat + pushStores s.w.valid.toNat 1 ≤ s.w.cap.toNat) :
    ∃ t, wPush 1 (bitField b) s = .ok t ∧ t.Wf ∧ t.w.fault = false ∧ t.w.cap = s.w.cap ∧
      t.lim = s.lim ∧ t.params = s.params ∧ t.responses = s.responses ∧
      AppendsField s t 1 b.toNat (pushStores s.w.valid.toNat 1) := by
  obtain ⟨t, e, h1, h2, h3⟩ := wPush_appends hs hf (n := 1) (by decide) (bitField b) h
  have h3 : AppendsField s t 1 _ (pushStores s.w.valid.toNat 1) := h3
  obtain ⟨hp, -, hl, -, -, -, hcap, hfa, -⟩ := h3.unchanged
  exact ⟨t, e, h1, hfa.trans hf, hcap, hl, hp, h2, h3.congr (by cases b <;> rfl)⟩

theorem wPush_one_full {s : State} (hs : s.Wf) (hf : s.w.fault = false) (v : Word32)
    (h : s.w.cap.toNat < s.w.count.toNat + pushStores s.w.valid.toNat 1) :
    wPush 1 v s = .error (.latch .w .capacity false) := by
  obtain ⟨hv31, -, hcnt, -⟩ := hs.writer.2 hf
  exact wPush_full (n := 1) h hcnt (by decide) hv31

theorem changedStores_eq {v v' k : Nat} (hv' : v' + 8 * pushStores v 1 = v + 1) (hv : v ≤ 31) :
    changedStores v k = pushStores v 1 + wholeStores v' k := by
  unfold changedStores wholeStores
  by_cases h : v = 31
  · have h4 : pushStores v 1 = 4 := by unfold pushStores; omega
    rw [if_pos h, if_pos (by omega), h4]
  · rw [if_neg h, if_neg (by unfold pushStores at hv'; omega), pushStores_add hv']

/-- An unchanged value appends the flag 0 alone (rules R196 to R199). -/
theorem writeIfChanged_unchanged {s : State} (hs : s.Wf) (hf : s.w.fault = false) (wd : Width) (a b : Word64)
    (hc : wholeChanged wd a b = false)
    (h : s.w.count.toNat + pushStores s.w.valid.toNat 1 ≤ s.w.cap.toNat) :
    ∃ t, writeIfChanged wd a b s = .ok t ∧ t.Wf ∧ t.responses = s.responses ∧
      AppendsField s t 1 0 (pushStores s.w.valid.toNat 1) := by
  obtain ⟨t, e, h1, -, -, -, -, h2, h3⟩ := wPush_one hs hf false h
  refine ⟨t, ?_, h1, h2, h3⟩
  rw [writeIfChanged, hc, e]
  simp only [bind, Except.bind, Bool.false_eq_true, if_false]

/-- A changed value appends the flag 1 and the value (rules R196 to R199, R213). -/
theorem writeIfChanged_changed {s : State} (hs : s.Wf) (hf : s.w.fault = false) (wd : Width) (a b : Word64)
    (hc : wholeChanged wd a b = true)
    (h : s.w.count.toNat + changedStores s.w.valid.toNat (widthBits wd) ≤ s.w.cap.toNat) :
    ∃ t, writeIfChanged wd a b s = .ok t ∧ t.Wf ∧ t.responses = s.responses ∧
      AppendsField s t (1 + widthBits wd) (1 + 2 * a.toNat)
        (changedStores s.w.valid.toNat (widthBits wd)) := by
  have hv31 := (hs.writer.2 hf).1
  have hle : pushStores s.w.valid.toNat 1 ≤ changedStores s.w.valid.toNat (widthBits wd) := by
    unfold changedStores; split
    · unfold pushStores; omega
    · exact pushStores_le_add _ _ _
  obtain ⟨t, e, h1, hfa, hcap, -, -, h2, h3⟩ := wPush_one hs hf true (by omega)
  have hch := changedStores_eq (k := widthBits wd) h3.valid hv31
  have hcnt := h3.count
  obtain ⟨u, e', h1', h2', h3'⟩ := writeWhole_appends h1 hfa wd a (by rw [hcap]; omega)
  refine ⟨u, ?_, h1', h2'.trans h2, hch ▸ (h3.trans h3').congr (by simp)⟩
  rw [writeIfChanged, hc, e]
  simp only [bind, Except.bind, if_true]
  exact e'

/-- Without room for what it writes, a flagged whole-type write raises the capacity fault. -/
theorem writeIfChanged_full {s : State} (hs : s.Wf) (hf : s.w.fault = false) (wd : Width) (a b : Word64)
    (h : s.w.cap.toNat < s.w.count.toNat + pushStores s.w.valid.toNat 1 ∨
      (wholeChanged wd a b = true ∧
        s.w.cap.toNat < s.w.count.toNat + changedStores s.w.valid.toNat (widthBits wd))) :
    writeIfChanged wd a b s = .error (.latch .w .capacity false) := by
  obtain ⟨hv31, -, hcnt, -⟩ := hs.writer.2 hf
  rw [writeIfChanged]
  by_cases hroom : s.w.count.toNat + pushStores s.w.valid.toNat 1 ≤ s.w.cap.toNat
  · obtain ⟨hb, h⟩ := h.resolve_left (by omega)
    obtain ⟨t, e, h1, hfa, hcap, -, -, h2, h3⟩ := wPush_one hs hf true hroom
    have hch := changedStores_eq (k := widthBits wd) h3.valid hv31
    have hc := h3.count
    rw [hb, e]
    simp only [bind, Except.bind, if_true]
    exact writeWhole_full h1 hfa wd a (by rw [hcap]; omega)
  · rw [wPush_one_full hs hf _ (by omega)]
    rfl

/-! ## `W.FLUSH` (rule R137) -/

/-- The padding of a flush: what is missing to the next byte boundary (30_encoding.md rule R93). -/
theorem padding_eq {v c : Nat} : 8 * ceil8 v - v = (8 - (8 * c + v) % 8) % 8 := by
  unfold ceil8; omega

/-- One byte drained by the flush loop. -/
theorem drainByte {s : State} (hs : s.Wf) (hf : s.w.fault = false) (hv : s.w.valid ≠ 0)
    (h : s.w.count.toNat + 1 ≤ s.w.cap.toNat) :
    ∃ t u, bbWrite .w 1 (s.w.pending &&& 0xFF) s = .ok t ∧
      u = { t with w := { t.w with
        pending := s.w.pending >>> 8
        valid := BitVec.ofNat 6 (s.w.valid.toNat - 8) } } ∧
      u.Wf ∧ u.responses = s.responses ∧ u.w.valid.toNat = s.w.valid.toNat - 8 ∧
        AppendsField s u (8 - s.w.valid.toNat) 0 1 := by
  obtain ⟨hfit, hacc⟩ := hs.writer
  obtain ⟨hv31, hpend, hcnt, hcause⟩ := hacc hf
  have hcap := s.w.cap.isLt
  have hv0 : s.w.valid.toNat ≠ 0 := fun h => hv (BitVec.eq_of_toNat_eq h)
  have hval : (BitVec.ofNat 6 (s.w.valid.toNat - 8)).toNat = s.w.valid.toNat - 8 :=
    Nat.mod_eq_of_lt (by omega)
  have hcount : (BitVec.ofNat 32 (s.w.count.toNat + 1)).toNat = s.w.count.toNat + 1 :=
    Nat.mod_eq_of_lt (by omega)
  rcases bbWrite_cases .w 1 (s.w.pending &&& 0xFF) s with ⟨h', -⟩ | ⟨-, -, e⟩ | ⟨-, h', -⟩
  · exact absurd h' (by simpa using h)
  · simp only [unit_w, setUnit_w] at e
    refine ⟨_, _, e, rfl, ?_, rfl, hval, ?_⟩
    · refine hs.withWriter rfl rfl rfl ⟨hfit, fun _ => ⟨?_, ?_, hcount.trans_le h, hcause⟩⟩
        (fun h => ?_) ?_ ?_
      · show BitVec.toNat _ ≤ 31
        rw [hval]; omega
      · refine lt_two_pow_of_getLsbD fun i hi => ?_
        rw [hval] at hi
        rw [BitVec.getLsbD_ushiftRight]
        exact getLsbD_of_lt_two_pow hpend (by omega)
      · simp [hf] at h
      · exact writeBytes_wf hs.memory _ _ _
      · exact writeBytes_fits hs.memoryFits _ _ _ (by omega)
    · refine AppendsField.of_bits (x := s.w.pending) rfl hcount ?_ ?_ ?_ ?_ (fun _ _ => rfl) ?_
      · show 8 * BitVec.toNat _ + BitVec.toNat _ = 8 * s.w.count.toNat + s.w.valid.toNat + _
        rw [hcount, hval]; omega
      · intro a ha
        exact byteAt_writeBytes_outside rfl rfl ha
      · intro p hp
        rw [byteAt_writeBytes_bit rfl hp, BitVec.getLsbD_and]
        have hff : (0xFF : Word64).getLsbD p = true := by
          have : p < 8 := by omega
          interval_cases p <;> rfl
        rw [hff, Bool.and_true]
      · intro p
        rw [BitVec.getLsbD_ushiftRight]
      · intro j hj
        rw [getLsbD_of_lt_two_pow hpend (by omega)]; simp
  · simp only [unit_w] at h'; omega

/-- The flush loop, with enough rounds and room, appends the padding alone and leaves nothing pending. -/
theorem flushLoop_appends {fuel : Nat} {s : State} (hs : s.Wf) (hf : s.w.fault = false)
    (hfuel : s.w.valid.toNat ≤ 8 * fuel)
    (h : s.w.count.toNat + ceil8 s.w.valid.toNat ≤ s.w.cap.toNat) :
    ∃ t, flushLoop fuel s = .ok t ∧ t.Wf ∧ t.responses = s.responses ∧ t.w.valid = 0 ∧
      AppendsField s t (8 * ceil8 s.w.valid.toNat - s.w.valid.toNat) 0 (ceil8 s.w.valid.toNat) := by
  induction fuel generalizing s with
  | zero =>
    have hv : s.w.valid = 0 := BitVec.eq_of_toNat_eq (by simpa using hfuel)
    exact ⟨s, rfl, hs, rfl, hv, by rw [hv]; exact AppendsField.refl s 0⟩
  | succ fuel ih =>
    by_cases hv : s.w.valid = 0
    · exact ⟨s, by rw [flushLoop, if_pos hv], hs, rfl, hv, by rw [hv]; exact AppendsField.refl s 0⟩
    · have hv0 : s.w.valid.toNat ≠ 0 := fun h => hv (BitVec.eq_of_toNat_eq h)
      have hpos : 1 ≤ ceil8 s.w.valid.toNat := by unfold ceil8; omega
      obtain ⟨t, u, e, hu, h1, h2, h3, h4⟩ := drainByte hs hf hv (by omega)
      obtain ⟨-, -, -, -, -, -, hcap, hfa, -⟩ := h4.unchanged
      have hcnt := h4.count
      have hceil : ceil8 s.w.valid.toNat = ceil8 u.w.valid.toNat + 1 := by rw [h3]; unfold ceil8; omega
      obtain ⟨r, e', h1', h2', h3', h4'⟩ := ih h1 (hfa.trans hf) (by omega) (by rw [hcap]; omega)
      refine ⟨r, ?_, h1', h2'.trans h2, h3', ?_⟩
      · rw [flushLoop, if_neg hv, e]
        simp only [bind, Except.bind]
        rw [← hu]
        exact e'
      · have := (h4.trans h4').congr (g := 0) (by simp)
        rw [show 8 - s.w.valid.toNat + (8 * ceil8 u.w.valid.toNat - u.w.valid.toNat) =
          8 * ceil8 s.w.valid.toNat - s.w.valid.toNat by rw [h3]; unfold ceil8; omega] at this
        rwa [show 1 + ceil8 u.w.valid.toNat = ceil8 s.w.valid.toNat by omega] at this

/-- In a well-formed state with room, `W.FLUSH` appends the zero padding and leaves nothing pending (rules
R137, R139, 30_encoding.md rule R93). -/
theorem flushPending_appends {s : State} (hs : s.Wf) (hf : s.w.fault = false)
    (h : s.w.count.toNat + ceil8 s.w.valid.toNat ≤ s.w.cap.toNat) :
    ∃ t, flushPending s = .ok t ∧ t.Wf ∧ t.responses = s.responses ∧ t.w.valid = 0 ∧ t.w.pending = 0 ∧
      AppendsField s t (8 * ceil8 s.w.valid.toNat - s.w.valid.toNat) 0 (ceil8 s.w.valid.toNat) := by
  have hv31 := (hs.writer.2 hf).1
  obtain ⟨t, e, h1, h2, h3, h4⟩ := flushLoop_appends (fuel := 8) hs hf (by omega) h
  obtain ⟨-, -, -, -, -, -, -, hfa, -⟩ := h4.unchanged
  have hp := (h1.writer.2 (hfa.trans hf)).2.1
  rw [h3] at hp
  have hp0 : t.w.pending = 0 := BitVec.eq_of_toNat_eq (by simpa using hp)
  refine ⟨t, ?_, h1, h2, h3, hp0, h4⟩
  rw [flushPending, e]
  simp only [bind, Except.bind]
  rw [← h3, ← hp0]

/-- Without room for the pending bytes, the flush loop raises the capacity fault. -/
theorem flushLoop_full {fuel : Nat} {s : State} (hs : s.Wf) (hf : s.w.fault = false)
    (hfuel : s.w.valid.toNat ≤ 8 * fuel)
    (h : s.w.cap.toNat < s.w.count.toNat + ceil8 s.w.valid.toNat) :
    flushLoop fuel s = .error (.latch .w .capacity false) := by
  induction fuel generalizing s with
  | zero =>
    have := (hs.writer.2 hf).2.2.1
    unfold ceil8 at h; omega
  | succ fuel ih =>
    have hcnt := (hs.writer.2 hf).2.2.1
    have hv0 : s.w.valid.toNat ≠ 0 := by
      intro h0; unfold ceil8 at h; omega
    have hv : s.w.valid ≠ 0 := fun h => hv0 (by rw [h]; rfl)
    rw [flushLoop, if_neg hv]
    by_cases hroom : s.w.count.toNat + 1 ≤ s.w.cap.toNat
    · obtain ⟨t, u, e, hu, h1, h2, h3, h4⟩ := drainByte hs hf hv hroom
      rw [e]
      simp only [bind, Except.bind]
      rw [← hu]
      obtain ⟨-, -, -, -, -, -, hcap, hfa, -⟩ := h4.unchanged
      have hcnt := h4.count
      refine ih h1 (hfa.trans hf) (by omega) ?_
      rw [hcap, hcnt, h3]
      unfold ceil8 at *; omega
    · rw [bbWrite_full (by omega)]; rfl

/-- Without room for the pending bytes, `W.FLUSH` raises the capacity fault. -/
theorem flushPending_full {s : State} (hs : s.Wf) (hf : s.w.fault = false)
    (h : s.w.cap.toNat < s.w.count.toNat + ceil8 s.w.valid.toNat) :
    flushPending s = .error (.latch .w .capacity false) := by
  have hv31 := (hs.writer.2 hf).1
  rw [flushPending, flushLoop_full (fuel := 8) hs hf (by omega) h]
  rfl

end Sys2Proof.Machine
end

