-- ==== Sys2Proof/Laws/Consuming.lean ====
section
/-! SUPPORT. What `RPop`, `ReadWhole` and `ReadIfChanged` do in a well-formed state: the bits the reader
delivers next advance, and the value is the field they hold (40_accumulator_and_control.md rules R114, R115,
42_bit_reader.md rule R162, 44_delta.md rule R200). -/

namespace Sys2Proof.Machine

/-! ## The bits to come -/

theorem testBit_nextField (s : State) (o k j : Nat) :
    (s.nextField o k).testBit j = (decide (j < k) && s.nextBit (o + j)) := by
  induction k generalizing o j with
  | zero => simp [State.nextField]
  | succ k ih =>
    rw [State.nextField, Nat.add_comm]
    cases j with
    | zero => cases s.nextBit o <;> simp [Nat.testBit_zero, Nat.add_mod]
    | succ j =>
      have hb : (2 * s.nextField (o + 1) k + (s.nextBit o).toNat) / 2 = s.nextField (o + 1) k := by
        have := Bool.toNat_le (s.nextBit o); omega
      rw [Nat.testBit_succ, hb, ih, show o + 1 + j = o + (j + 1) by omega]
      simp

theorem nextField_lt (s : State) (o k : Nat) : s.nextField o k < 2 ^ k :=
  Nat.lt_pow_two_of_testBit _ fun i hi => by simp [testBit_nextField, Nat.not_lt.mpr hi]

/-- A field is cut into two where the next one begins. -/
theorem nextField_add (s : State) (o k l : Nat) :
    s.nextField o (k + l) = s.nextField o k + 2 ^ k * s.nextField (o + k) l := by
  refine Nat.eq_of_testBit_eq fun j => ?_
  rw [Nat.add_comm (s.nextField o k), Nat.testBit_two_pow_mul_add _ (nextField_lt s o k)]
  simp only [testBit_nextField]
  by_cases h : j < k
  · simp [h, show j < k + l by omega]
  · simp [h, show o + k + (j - k) = o + j by omega, show (j < k + l) = (j - k < l) by simp; omega]

@[simp] theorem nextField_zero (s : State) (o : Nat) : s.nextField o 0 = 0 := rfl

theorem nextField_one (s : State) (o : Nat) : s.nextField o 1 = (s.nextBit o).toNat := by
  simp [State.nextField]

/-- When the waiting bits are those of the window, the reader delivers the window in order (rule R95). -/
theorem nextBit_inStep {s : State} (h : s.ReaderInStep) (j : Nat) :
    s.nextBit j = s.windowBit (s.readPosition + j) := by
  obtain ⟨hle, hbits⟩ := h
  unfold State.nextBit
  split
  · rename_i hj; exact hbits j hj
  · rename_i hj
    unfold State.windowBit State.readPosition
    rw [show s.r.base.toNat + s.r.count.toNat + (j - s.r.valid.toNat) / 8 =
        s.r.base.toNat + (8 * s.r.count.toNat - s.r.valid.toNat + j) / 8 by omega,
      show (j - s.r.valid.toNat) % 8 = (8 * s.r.count.toNat - s.r.valid.toNat + j) % 8 by omega]

/-! ## Bits consumed one after the other -/

theorem ConsumesBits.unchanged {s t : State} {k a : Nat} (h : ConsumesBits s t k a) :
    t.params = s.params ∧ t.w = s.w ∧ t.lim = s.lim ∧ t.mem = s.mem ∧ t.memEpoch = s.memEpoch ∧
      t.inbox = s.inbox ∧ t.r.base = s.r.base ∧ t.r.cap = s.r.cap ∧ t.r.fault = s.r.fault ∧
      t.r.cause = s.r.cause := by
  rw [h.frame]; simp

theorem ConsumesBits.refl (s : State) : ConsumesBits s s 0 0 where
  frame := rfl
  count := rfl
  valid := rfl
  rest := fun j => by rw [Nat.zero_add]

theorem ConsumesBits.trans {s t u : State} {k a l b : Nat} (h : ConsumesBits s t k a)
    (h' : ConsumesBits t u l b) : ConsumesBits s u (k + l) (a + b) where
  frame := by rw [h'.frame, h.frame]
  count := by rw [h'.count, h.count]; omega
  valid := by have := h.valid; have := h'.valid; omega
  rest := fun j => by rw [h'.rest, h.rest, Nat.add_assoc]

theorem ConsumesBits.nextField {s t : State} {k a : Nat} (h : ConsumesBits s t k a) (o l : Nat) :
    t.nextField o l = s.nextField (k + o) l := by
  refine Nat.eq_of_testBit_eq fun j => ?_
  rw [testBit_nextField, testBit_nextField, h.rest, Nat.add_assoc]

theorem ConsumesBits.respond {s t : State} {k a : Nat} (h : ConsumesBits s t k a) (x : Response) :
    ConsumesBits s (t.respond x) k a where
  frame := by
    have := h.frame
    show State.respond t x = _
    rw [this]; rfl
  count := h.count
  valid := h.valid
  rest := h.rest

/-- The reader stays in step, and its position grows by the bits consumed (rule R115). -/
theorem ConsumesBits.inStep {s t : State} {k a : Nat} (h : ConsumesBits s t k a) (hs : s.ReaderInStep) :
    t.ReaderInStep ∧ t.readPosition = s.readPosition + k := by
  obtain ⟨-, -, -, hm, he, -, hb, -, -, -⟩ := h.unchanged
  have hc := h.count
  have hv := h.valid
  have hle := hs.1
  have hpos : t.readPosition = s.readPosition + k := by
    unfold State.readPosition; omega
  refine ⟨⟨by omega, fun j hj => ?_⟩, hpos⟩
  have h1 : t.r.pending.getLsbD j = t.nextBit j := by rw [State.nextBit, if_pos hj]
  rw [h1, h.rest, nextBit_inStep hs, hpos, ← Nat.add_assoc]
  unfold State.windowBit
  rw [hb, byteAt_congr hm he]

theorem ConsumesBits.of_bits {s t : State} {n fetched : Nat}
    (frame : t = { s with
      r := { s.r with pending := t.r.pending, valid := t.r.valid, count := t.r.count }
      responses := t.responses })
    (count : t.r.count.toNat = s.r.count.toNat + fetched)
    (valid : t.r.valid.toNat + n = s.r.valid.toNat + 8 * fetched)
    (waiting : ∀ p < t.r.valid.toNat, t.r.pending.getLsbD p = s.nextBit (n + p))
    (enough : s.r.valid.toNat ≤ n + t.r.valid.toNat) : ConsumesBits s t n fetched := by
  refine ⟨frame, count, valid, fun j => ?_⟩
  obtain ⟨hb, hm, he⟩ : t.r.base = s.r.base ∧ t.mem = s.mem ∧ t.memEpoch = s.memEpoch := by
    rw [frame]; simp
  by_cases hj : j < t.r.valid.toNat
  · rw [← waiting j hj, State.nextBit, if_pos hj]
  · rw [State.nextBit, if_neg hj, State.nextBit, if_neg (by omega), byteAt_congr hm he, hb, count]
    rw [show s.r.base.toNat + (s.r.count.toNat + fetched) + (j - t.r.valid.toNat) / 8 =
        s.r.base.toNat + s.r.count.toNat + (n + j - s.r.valid.toNat) / 8 by omega,
      show (j - t.r.valid.toNat) % 8 = (n + j - s.r.valid.toNat) % 8 by omega]

/-! ## `RPop` (rule R114) -/

/-- Without room for the word it must fetch, `RPop` raises the capacity fault (rule R114). -/
theorem rPop_full {s : State} {n : Count6}
    (h : s.r.cap.toNat < s.r.count.toNat + popFetches s.r.valid.toNat n.toNat)
    (hs : s.r.count.toNat ≤ s.r.cap.toNat) (hn : n.toNat ≤ 32) :
    rPop n s = .error (.latch .r .capacity false) := by
  unfold popFetches at h
  rcases rPop_cases n s with ⟨h', -⟩ | ⟨-, h', -⟩ | ⟨-, -, e⟩ | ⟨-, h', -⟩
  · omega
  · omega
  · exact e
  · omega

/-- The refilled register holds the bits to come (rule R114). -/
theorem getLsbD_filled {s : State} (hv : s.r.valid.toNat ≤ 31)
    (hp : s.r.pending.toNat < 2 ^ s.r.valid.toNat) (p : Nat) (h : p < s.r.valid.toNat + 32) :
    (s.r.pending ||| (readBytes s (s.r.base.toNat + s.r.count.toNat) 4 <<< s.r.valid.toNat)).getLsbD p =
      s.nextBit p := by
  rw [BitVec.getLsbD_or, BitVec.getLsbD_shiftLeft, getLsbD_readBytes _ _ _ _ (by omega), State.nextBit]
  by_cases hlt : p < s.r.valid.toNat
  · simp [hlt]
  · rw [getLsbD_of_lt_two_pow hp (by omega)]
    simp [hlt, show p < 64 by omega, show p - s.r.valid.toNat < 32 by omega]

theorem field_of_bits {s : State} {x : Word64} {n : Count6} (hn : n.toNat ≤ 32)
    (h : ∀ p < n.toNat, x.getLsbD p = s.nextBit p) :
    low32 x &&& mask n = BitVec.ofNat 32 (s.nextField 0 n.toNat) := by
  refine BitVec.eq_of_getLsbD_eq fun i hi => ?_
  rw [BitVec.getLsbD_and, getLsbD_low32, getLsbD_mask hn, BitVec.getLsbD_ofNat, testBit_nextField]
  by_cases hin : i < n.toNat
  · simp [hi, hin, h i hin]
  · simp [hin]

/-- In a well-formed state with room, `RPop` delivers the next `n` bits (rules R114, R115). -/
theorem rPop_consumes {s : State} (hs : s.Wf) (hf : s.r.fault = false) {n : Count6} (hn : n.toNat ≤ 32)
    (h : s.r.count.toNat + popFetches s.r.valid.toNat n.toNat ≤ s.r.cap.toNat) :
    ∃ t, rPop n s = .ok (BitVec.ofNat 32 (s.nextField 0 n.toNat), t) ∧ t.Wf ∧
      t.responses = s.responses ∧ ConsumesBits s t n.toNat (popFetches s.r.valid.toNat n.toNat) := by
  obtain ⟨hfit, hacc⟩ := hs.reader
  obtain ⟨hv, hpend, hcnt, hcause⟩ := hacc hf
  have hcap := s.r.cap.isLt
  rcases rPop_cases n s with ⟨ht, e⟩ | ⟨ht, hroom, hmem, e⟩ | ⟨ht, h', -⟩ | ⟨ht, -, h', -⟩
  · have hst : popFetches s.r.valid.toNat n.toNat = 0 := by unfold popFetches; omega
    have hval : (BitVec.ofNat 6 (s.r.valid.toNat - n.toNat)).toNat = s.r.valid.toNat - n.toNat :=
      Nat.mod_eq_of_lt (by omega)
    have bits : ∀ p < s.r.valid.toNat, s.r.pending.getLsbD p = s.nextBit p := fun p hp => by
      rw [State.nextBit, if_pos hp]
    rw [hst]
    rw [field_of_bits hn fun p hp => bits p (by omega)] at e
    refine ⟨_, e, ?_, rfl, ?_⟩
    · refine hs.withReader rfl rfl rfl rfl ⟨hfit, fun _ => ⟨?_, ?_, hcnt, hcause⟩⟩ (fun h => ?_)
      · show BitVec.toNat _ ≤ 31
        rw [hval]; omega
      · refine lt_two_pow_of_getLsbD fun i hi => ?_
        rw [hval] at hi
        rw [BitVec.getLsbD_ushiftRight]
        exact getLsbD_of_lt_two_pow hpend (by omega)
      · simp [hf] at h
    · refine ConsumesBits.of_bits rfl rfl ?_ ?_ ?_
      · show BitVec.toNat _ + n.toNat = _
        rw [hval]; omega
      · intro p hp
        have hp' : p < s.r.valid.toNat - n.toNat := hval ▸ hp
        rw [BitVec.getLsbD_ushiftRight, bits _ (by omega)]
      · show _ ≤ n.toNat + BitVec.toNat _
        rw [hval]; omega
  · have hst : popFetches s.r.valid.toNat n.toNat = 4 := by unfold popFetches; omega
    have hval : (BitVec.ofNat 6 ((BitVec.ofNat 6 (s.r.valid.toNat + 32)).toNat - n.toNat)).toNat =
        s.r.valid.toNat + 32 - n.toNat := by
      have h1 : (BitVec.ofNat 6 (s.r.valid.toNat + 32)).toNat = s.r.valid.toNat + 32 :=
        Nat.mod_eq_of_lt (by omega)
      rw [h1]
      exact Nat.mod_eq_of_lt (by omega)
    have hcount : (BitVec.ofNat 32 (s.r.count.toNat + 4)).toNat = s.r.count.toNat + 4 :=
      Nat.mod_eq_of_lt (by omega)
    have bits := getLsbD_filled hv hpend
    rw [hst]
    simp only at e
    rw [field_of_bits hn fun p hp => bits p (by omega)] at e
    refine ⟨_, e, ?_, rfl, ?_⟩
    · refine hs.withReader rfl rfl rfl rfl ⟨hfit, fun _ => ⟨?_, ?_, ?_, hcause⟩⟩ (fun h => ?_)
      · show BitVec.toNat _ ≤ 31
        rw [hval]; omega
      · refine lt_two_pow_of_getLsbD fun i hi => ?_
        rw [hval] at hi
        rw [BitVec.getLsbD_ushiftRight, BitVec.getLsbD_or, BitVec.getLsbD_shiftLeft,
          getLsbD_readBytes _ _ _ _ (by omega), getLsbD_of_lt_two_pow hpend (by omega)]
        simp [show ¬ (n.toNat + i - s.r.valid.toNat < 32) by omega]
      · show BitVec.toNat _ ≤ s.r.cap.toNat
        rw [hcount]; exact hroom
      · simp [hf] at h
    · refine ConsumesBits.of_bits rfl hcount ?_ ?_ ?_
      · show BitVec.toNat _ + n.toNat = _
        rw [hval]; omega
      · intro p hp
        have hp' : p < s.r.valid.toNat + 32 - n.toNat := hval ▸ hp
        rw [BitVec.getLsbD_ushiftRight, bits _ (by omega)]
      · show _ ≤ n.toNat + BitVec.toNat _
        rw [hval]; omega
  · unfold popFetches at h; omega
  · unfold popFetches at h; omega

/-! ## Pops one after the other -/

theorem popFetches_add {v v' k l : Nat} (h : v' + k = v + 8 * popFetches v k) :
    popFetches v (k + l) = popFetches v k + popFetches v' l := by
  unfold popFetches at *; omega

/-- Pops of `k` and then of `l` bits are pops of `k + l` bits. -/
theorem ConsumesBits.pops {s t u : State} {k l : Nat} (h : ConsumesBits s t k (popFetches s.r.valid.toNat k))
    (h' : ConsumesBits t u l (popFetches t.r.valid.toNat l)) :
    ConsumesBits s u (k + l) (popFetches s.r.valid.toNat (k + l)) := by
  rw [popFetches_add h.valid]
  exact h.trans h'

/-- There is room for pops of `k + l` bits when there is for those of `k` bits and then for those of `l`. -/
theorem ConsumesBits.room {s t : State} {k l : Nat} (h : ConsumesBits s t k (popFetches s.r.valid.toNat k)) :
    s.r.count.toNat + popFetches s.r.valid.toNat (k + l) =
      t.r.count.toNat + popFetches t.r.valid.toNat l := by
  rw [popFetches_add h.valid, h.count]; omega

theorem popFetches_le_add (v k l : Nat) : popFetches v k ≤ popFetches v (k + l) := by
  unfold popFetches; omega

/-! ## `ReadWhole` (42_bit_reader.md rule R162) -/

/-- In a well-formed state with room, the fast path delivers the next `8 * n` bits (20_memory.md rule R54). -/
theorem bbRead_consumes {s : State} (hs : s.Wf) (hf : s.r.fault = false) (hv : s.r.valid = 0) {n : Nat}
    (hn : n ≤ 8) (h : s.r.count.toNat + n ≤ s.r.cap.toNat) :
    ∃ t, bbRead .r n s = .ok (BitVec.ofNat 64 (s.nextField 0 (8 * n)), t) ∧ t.Wf ∧
      t.responses = s.responses ∧ ConsumesBits s t (8 * n) n := by
  obtain ⟨hfit, hacc⟩ := hs.reader
  obtain ⟨hvle, hpend, hcnt, hcause⟩ := hacc hf
  have hcap := s.r.cap.isLt
  have hv0 : s.r.valid.toNat = 0 := by rw [hv]; rfl
  rcases bbRead_cases .r n s with ⟨h', -⟩ | ⟨-, -, e⟩ | ⟨-, h', -⟩
  · exact absurd h' (by simpa using h)
  · simp only [unit_r] at e
    have hcount : (BitVec.ofNat 32 (s.r.count.toNat + n)).toNat = s.r.count.toNat + n :=
      Nat.mod_eq_of_lt (by omega)
    have hval : readBytes s (s.r.base.toNat + s.r.count.toNat) n = BitVec.ofNat 64 (s.nextField 0 (8 * n)) := by
      refine BitVec.eq_of_getLsbD_eq fun i hi => ?_
      rw [getLsbD_readBytes _ _ _ _ hn, BitVec.getLsbD_ofNat, testBit_nextField]
      simp [hi, State.nextBit, hv0]
    rw [hval] at e
    refine ⟨_, e, ?_, rfl, ?_⟩
    · refine hs.withReader rfl rfl rfl rfl ⟨hfit, fun _ => ⟨hvle, hpend, ?_, hcause⟩⟩ (fun h => ?_)
      · exact hcount.trans_le h
      · simp [hf] at h
    · refine ConsumesBits.of_bits rfl hcount ?_ ?_ ?_
      · show s.r.valid.toNat + 8 * n = s.r.valid.toNat + 8 * n
        rfl
      · intro p hp
        exact absurd (show p < s.r.valid.toNat from hp) (by omega)
      · show s.r.valid.toNat ≤ _
        omega
  · simp only [unit_r] at h'; omega

theorem bbRead_full {s : State} {n : Nat} (h : s.r.cap.toNat < s.r.count.toNat + n) :
    bbRead .r n s = .error (.latch .r .capacity false) := by
  rcases bbRead_cases .r n s with ⟨-, e⟩ | ⟨h', -⟩ | ⟨h', -⟩
  · exact e
  · simp only [unit_r] at h'; omega
  · simp only [unit_r] at h'; omega

theorem toNat_zext64_ofNat {f : Nat} (h : f < 2 ^ 32) : zext64 (BitVec.ofNat 32 f) = BitVec.ofNat 64 f := by
  refine BitVec.eq_of_toNat_eq ?_
  simp only [zext64, BitVec.toNat_setWidth, BitVec.toNat_ofNat]
  omega

/-- Two halves are one number, the first in the low bits (rule R162). -/
theorem halves_eq {lo hi : Nat} (h : lo < 2 ^ 32) :
    BitVec.ofNat 64 lo ||| (BitVec.ofNat 64 hi <<< 32) = BitVec.ofNat 64 (lo + 2 ^ 32 * hi) := by
  refine BitVec.eq_of_getLsbD_eq fun i hi' => ?_
  rw [BitVec.getLsbD_or, BitVec.getLsbD_shiftLeft, BitVec.getLsbD_ofNat, BitVec.getLsbD_ofNat,
    BitVec.getLsbD_ofNat, Nat.add_comm lo, Nat.testBit_two_pow_mul_add _ h]
  by_cases hi32 : i < 32
  · simp [hi', hi32]
  · have := Nat.testBit_lt_two_pow (Nat.lt_of_lt_of_le h (Nat.pow_le_pow_right (by omega) (Nat.not_lt.mp hi32)))
    simp [hi', hi32, this, show i - 32 < 64 by omega]

/-- In a well-formed state with room, `ReadWhole` reads the next `width` bits on either path. -/
theorem readPattern_consumes {s : State} (hs : s.Wf) (hf : s.r.fault = false) (wd : Width)
    (h : s.r.count.toNat + wholeFetches s.r.valid.toNat (widthBits wd) ≤ s.r.cap.toNat) :
    ∃ t, readPattern wd s = .ok (BitVec.ofNat 64 (s.nextField 0 (widthBits wd)), t) ∧ t.Wf ∧
      t.responses = s.responses ∧
      ConsumesBits s t (widthBits wd) (wholeFetches s.r.valid.toNat (widthBits wd)) := by
  have hbytes : widthBits wd / 8 = widthBytes wd ∧ 8 * widthBytes wd = widthBits wd := by
    cases wd <;> simp [widthBits, widthBytes]
  by_cases hv : s.r.valid = 0
  · have hw : wholeFetches s.r.valid.toNat (widthBits wd) = widthBytes wd := by
      rw [wholeFetches, if_pos (by rw [hv]; rfl), hbytes.1]
    rw [hw] at h ⊢
    have hn : widthBytes wd ≤ 8 := by cases wd <;> simp [widthBytes]
    obtain ⟨t, e, h1, h2, h3⟩ := bbRead_consumes hs hf hv hn h
    rw [hbytes.2] at e h3
    exact ⟨t, by rw [readPattern, if_pos hv]; exact e, h1, h2, h3⟩
  · have hv' : s.r.valid.toNat ≠ 0 := fun h => hv (BitVec.eq_of_toNat_eq h)
    have hw : wholeFetches s.r.valid.toNat (widthBits wd) = popFetches s.r.valid.toNat (widthBits wd) := by
      rw [wholeFetches, if_neg hv']
    rw [hw] at h ⊢
    by_cases h32 : widthBits wd ≤ 32
    · have hc : (widthCount wd).toNat = widthBits wd := Nat.mod_eq_of_lt (by omega)
      obtain ⟨t, e, h1, h2, h3⟩ := rPop_consumes hs hf (n := widthCount wd) (by omega) (by rw [hc]; exact h)
      rw [hc] at e h3
      refine ⟨t, ?_, h1, h2, h3⟩
      rw [readPattern, if_neg hv, if_pos h32, e]
      simp only [bind, Except.bind]
      rw [toNat_zext64_ofNat]
      exact Nat.lt_of_lt_of_le (nextField_lt _ _ _) (Nat.pow_le_pow_right (by omega) h32)
    · have h64 : widthBits wd = 32 + 32 := by cases wd <;> simp_all [widthBits]
      rw [h64] at h ⊢
      have hle := popFetches_le_add s.r.valid.toNat 32 32
      obtain ⟨t, e, h1, h2, h3⟩ := rPop_consumes hs hf (n := 32) (by decide)
        (show _ + popFetches _ 32 ≤ _ by omega)
      have h3 : ConsumesBits s t 32 (popFetches s.r.valid.toNat 32) := h3
      obtain ⟨-, -, -, -, -, -, hb, hcap, hfa, -⟩ := h3.unchanged
      have hroom := h3.room (l := 32)
      obtain ⟨u, e', h1', h2', h3'⟩ := rPop_consumes h1 (hfa.trans hf) (n := 32) (by decide)
        (show t.r.count.toNat + popFetches t.r.valid.toNat 32 ≤ _ by rw [hcap]; omega)
      have h3' : ConsumesBits t u 32 (popFetches t.r.valid.toNat 32) := h3'
      refine ⟨u, ?_, h1', h2'.trans h2, h3.pops h3'⟩
      rw [readPattern, if_neg hv, if_neg h32, e]
      simp only [bind, Except.bind]
      rw [e']
      simp only
      rw [show (32 : Count6).toNat = 32 from rfl, h3.nextField, toNat_zext64_ofNat (nextField_lt _ _ _),
        toNat_zext64_ofNat (nextField_lt _ _ _), nextField_add, Nat.zero_add]
      rw [halves_eq (nextField_lt _ _ _)]

/-- Without room, `ReadWhole` raises the capacity fault. -/
theorem readPattern_full {s : State} (hs : s.Wf) (hf : s.r.fault = false) (wd : Width)
    (h : s.r.cap.toNat < s.r.count.toNat + wholeFetches s.r.valid.toNat (widthBits wd)) :
    readPattern wd s = .error (.latch .r .capacity false) := by
  obtain ⟨-, hacc⟩ := hs.reader
  obtain ⟨-, -, hcnt, -⟩ := hacc hf
  have hbytes : widthBits wd / 8 = widthBytes wd := by cases wd <;> simp [widthBits, widthBytes]
  by_cases hv : s.r.valid = 0
  · rw [wholeFetches, if_pos (by rw [hv]; rfl), hbytes] at h
    rw [readPattern, if_pos hv, bbRead_full h]
  · have hv' : s.r.valid.toNat ≠ 0 := fun h => hv (BitVec.eq_of_toNat_eq h)
    rw [wholeFetches, if_neg hv'] at h
    by_cases h32 : widthBits wd ≤ 32
    · have hc : (widthCount wd).toNat = widthBits wd := Nat.mod_eq_of_lt (by omega)
      rw [readPattern, if_neg hv, if_pos h32, rPop_full (by rw [hc]; exact h) hcnt (by omega)]
      rfl
    · have h64 : widthBits wd = 32 + 32 := by cases wd <;> simp_all [widthBits]
      rw [h64] at h
      rw [readPattern, if_neg hv, if_neg h32]
      by_cases h1 : s.r.count.toNat + popFetches s.r.valid.toNat 32 ≤ s.r.cap.toNat
      · obtain ⟨t, e, ht, h2, h3⟩ := rPop_consumes hs hf (n := 32) (by decide) h1
        have h3 : ConsumesBits s t 32 (popFetches s.r.valid.toNat 32) := h3
        obtain ⟨-, -, -, -, -, -, hb, hcap, hfa, -⟩ := h3.unchanged
        have hroom := h3.room (l := 32)
        obtain ⟨-, -, hcnt', -⟩ := ht.reader.2 (hfa.trans hf)
        rw [e]
        simp only [bind, Except.bind]
        rw [rPop_full (n := 32) (show _ < _ + popFetches _ 32 by rw [hcap]; omega) hcnt' (by decide)]
      · rw [rPop_full (n := 32) (show _ < _ + popFetches _ 32 by omega) hcnt (by decide)]
        rfl

theorem readWhole_consumes {s : State} (hs : s.Wf) (hf : s.r.fault = false) (wd : Width) (sx : Bool)
    (h : s.r.count.toNat + wholeFetches s.r.valid.toNat (widthBits wd) ≤ s.r.cap.toNat) :
    ∃ t, readWhole wd sx s =
        .ok (extendWhole wd sx (BitVec.ofNat 64 (s.nextField 0 (widthBits wd))), t) ∧ t.Wf ∧
      t.responses = s.responses ∧
      ConsumesBits s t (widthBits wd) (wholeFetches s.r.valid.toNat (widthBits wd)) := by
  obtain ⟨t, e, h1⟩ := readPattern_consumes hs hf wd h
  exact ⟨t, by rw [readWhole, e]; rfl, h1⟩

theorem readWhole_full {s : State} (hs : s.Wf) (hf : s.r.fault = false) (wd : Width) (sx : Bool)
    (h : s.r.cap.toNat < s.r.count.toNat + wholeFetches s.r.valid.toNat (widthBits wd)) :
    readWhole wd sx s = .error (.latch .r .capacity false) := by
  rw [readWhole, readPattern_full hs hf wd h]; rfl

/-! ## Results (30_encoding.md rule R85) -/

/-- The extension of a whole-type result, by its width in bits. -/
theorem extendWhole_eq (wd : Width) (sx : Bool) (x : Word64) :
    extendWhole wd sx x = extended (widthBits wd) sx x.toNat := by
  have h : x.setWidth (widthBits wd) = BitVec.ofNat (widthBits wd) x.toNat :=
    BitVec.eq_of_toNat_eq (by simp)
  unfold extendWhole extended
  cases sx
  · exact BitVec.eq_of_toNat_eq (by simp [BitVec.toNat_setWidth])
  · simp only [if_true, h]

theorem extendWhole_ofNat (wd : Width) (sx : Bool) {x : Nat} (h : x < 2 ^ widthBits wd) :
    extendWhole wd sx (BitVec.ofNat 64 x) = extended (widthBits wd) sx x := by
  have h64 : widthBits wd ≤ 64 := by cases wd <;> decide
  rw [extendWhole_eq, BitVec.toNat_ofNat,
    Nat.mod_eq_of_lt (Nat.lt_of_lt_of_le h (Nat.pow_le_pow_right (by omega) h64))]

/-! ## `ReadIfChanged` (44_delta.md rule R200) -/

/-- A pop of one bit in a well-formed state with room. -/
theorem rPop_one {s : State} (hs : s.Wf) (hf : s.r.fault = false)
    (h : s.r.count.toNat + popFetches s.r.valid.toNat 1 ≤ s.r.cap.toNat) :
    ∃ t, rPop 1 s = .ok (bitField (s.nextBit 0), t) ∧ t.Wf ∧ t.r.fault = false ∧
      t.r.cap = s.r.cap ∧ t.responses = s.responses ∧
      ConsumesBits s t 1 (popFetches s.r.valid.toNat 1) := by
  obtain ⟨t, e, h1, h2, h3⟩ := rPop_consumes hs hf (n := 1) (by decide) h
  have h3 : ConsumesBits s t 1 (popFetches s.r.valid.toNat 1) := h3
  obtain ⟨-, -, -, -, -, -, -, hcap, hfa, -⟩ := h3.unchanged
  refine ⟨t, ?_, h1, hfa.trans hf, hcap, h2, h3⟩
  rw [e, show (1 : Count6).toNat = 1 from rfl, nextField_one]
  cases s.nextBit 0 <;> rfl

@[simp] theorem bitField_eq_one (b : Bool) : bitField b = 1 ↔ b = true := by cases b <;> simp [bitField]

@[simp] theorem bitField_eq_zero (b : Bool) : bitField b = 0 ↔ b = false := by cases b <;> simp [bitField]

/-- With flag 0, `ReadIfChanged` delivers the baseline. -/
theorem readIfChanged_unchanged {s : State} (hs : s.Wf) (hf : s.r.fault = false) (wd : Width) (sx : Bool)
    (b : Word64) (hb : s.nextBit 0 = false)
    (h : s.r.count.toNat + popFetches s.r.valid.toNat 1 ≤ s.r.cap.toNat) :
    ∃ t, readIfChanged wd sx b s = .ok (extendWhole wd sx b, t) ∧ t.Wf ∧ t.responses = s.responses ∧
      ConsumesBits s t 1 (popFetches s.r.valid.toNat 1) := by
  obtain ⟨t, e, h1, -, -, h2, h3⟩ := rPop_one hs hf h
  refine ⟨t, ?_, h1, h2, h3⟩
  rw [readIfChanged, e]
  simp only [bind, Except.bind, bitField_eq_one, hb, Bool.false_eq_true, if_false]

theorem changedFetches_eq {v v' k : Nat} (hv' : v' + 1 = v + 8 * popFetches v 1) (hv : v ≤ 31) :
    changedFetches v k = popFetches v 1 + wholeFetches v' k := by
  unfold changedFetches wholeFetches
  by_cases h : v = 1
  · have h0 : popFetches v 1 = 0 := by unfold popFetches; omega
    rw [if_pos h, if_pos (by omega), h0]; omega
  · rw [if_neg h, if_neg (by unfold popFetches at hv'; omega), popFetches_add hv']

/-- With flag 1, `ReadIfChanged` delivers the value behind it. -/
theorem readIfChanged_changed {s : State} (hs : s.Wf) (hf : s.r.fault = false) (wd : Width) (sx : Bool)
    (b : Word64) (hb : s.nextBit 0 = true)
    (h : s.r.count.toNat + changedFetches s.r.valid.toNat (widthBits wd) ≤ s.r.cap.toNat) :
    ∃ t, readIfChanged wd sx b s =
        .ok (extendWhole wd sx (BitVec.ofNat 64 (s.nextField 1 (widthBits wd))), t) ∧ t.Wf ∧
      t.responses = s.responses ∧
      ConsumesBits s t (1 + widthBits wd) (changedFetches s.r.valid.toNat (widthBits wd)) := by
  have hv31 := (hs.reader.2 hf).1
  have hle : popFetches s.r.valid.toNat 1 ≤ changedFetches s.r.valid.toNat (widthBits wd) := by
    unfold changedFetches; split
    · unfold popFetches; omega
    · exact popFetches_le_add _ _ _
  obtain ⟨t, e, h1, hfa, hcap, h2, h3⟩ := rPop_one hs hf (by omega)
  have hch := changedFetches_eq (k := widthBits wd) h3.valid hv31
  have hcnt := h3.count
  obtain ⟨u, e', h1', h2', h3'⟩ := readWhole_consumes h1 hfa wd sx (by rw [hcap]; omega)
  refine ⟨u, ?_, h1', h2'.trans h2, hch ▸ h3.trans h3'⟩
  rw [readIfChanged, e]
  simp only [bind, Except.bind, bitField_eq_one, hb, if_true]
  rw [e', h3.nextField]

/-- Without room for what its flag asks for, `ReadIfChanged` raises the capacity fault. -/
theorem readIfChanged_full {s : State} (hs : s.Wf) (hf : s.r.fault = false) (wd : Width) (sx : Bool)
    (b : Word64)
    (h : s.r.cap.toNat < s.r.count.toNat + popFetches s.r.valid.toNat 1 ∨
      (s.nextBit 0 = true ∧
        s.r.cap.toNat < s.r.count.toNat + changedFetches s.r.valid.toNat (widthBits wd))) :
    readIfChanged wd sx b s = .error (.latch .r .capacity false) := by
  obtain ⟨hv31, -, hcnt, -⟩ := hs.reader.2 hf
  by_cases hroom : s.r.count.toNat + popFetches s.r.valid.toNat 1 ≤ s.r.cap.toNat
  · obtain ⟨hb, h⟩ := h.resolve_left (by omega)
    obtain ⟨t, e, h1, hfa, hcap, h2, h3⟩ := rPop_one hs hf hroom
    have hch := changedFetches_eq (k := widthBits wd) h3.valid hv31
    have hc := h3.count
    rw [readIfChanged, e]
    simp only [bind, Except.bind, bitField_eq_one, hb, if_true]
    rw [readWhole_full h1 hfa wd sx (by rw [hcap]; omega)]
  · rw [readIfChanged, rPop_full (n := 1) (show _ < _ + popFetches _ 1 by omega) hcnt (by decide)]
    rfl

end Sys2Proof.Machine
end

