-- ==== Sys2Proof/Laws/Policies.lean ====
section
/-! SUPPORT. What the Limit operations and the limited policies do in a well-formed state (43_limit.md rules
R180, R185, R187, 44_delta.md rules R208 to R212). -/

namespace Sys2Proof.Machine

/-! ## The width of a Limit (rule R180) -/

/-- Everything `leastWidth` says: it stays within its fuel, every smaller width is too small, and its width is
enough when any within the fuel is. -/
theorem leastWidth_spec (size fuel n : Nat) :
    n ≤ leastWidth size fuel n ∧ leastWidth size fuel n ≤ n + fuel ∧
      (∀ m, n ≤ m → m < leastWidth size fuel n → 2 ^ m < size) ∧
      (size ≤ 2 ^ (n + fuel) → size ≤ 2 ^ leastWidth size fuel n) := by
  induction fuel generalizing n with
  | zero => exact ⟨Nat.le_refl _, Nat.le_refl _, fun m h h' => absurd h' (Nat.not_lt.mpr h), fun h => h⟩
  | succ fuel ih =>
    rw [leastWidth]
    split
    · rename_i h
      exact ⟨Nat.le_refl _, by omega, fun m h h' => absurd h' (Nat.not_lt.mpr h), fun _ => h⟩
    · rename_i h
      obtain ⟨h1, h2, h3, h4⟩ := ih (n + 1)
      refine ⟨by omega, by omega, fun m hm hm' => ?_, fun hs => h4 ?_⟩
      · by_cases hmn : m = n
        · subst hmn; omega
        · exact h3 m (by omega) hm'
      · rwa [show n + 1 + fuel = n + (fuel + 1) by omega]

theorem bitCount_le (mn mx : Int) : bitCount mn mx ≤ 32 := by
  have := (leastWidth_spec (mx - mn + 1).toNat 32 0).2.1
  unfold bitCount; omega

/-- The width of a well-formed Limit is a bit count the accumulator takes. -/
theorem State.Wf.limit {s : State} (hs : s.Wf) (i : LimIdx) : (s.limit i).Wf := by
  exact hs.limits i.toFin

theorem State.Wf.bits_le {s : State} (hs : s.Wf) {i : LimIdx} (hok : (s.limit i).ok = true) :
    (s.limit i).bits.toNat ≤ 32 := by
  rw [(hs.limit i hok).2]; exact bitCount_le _ _

/-! ## `needLimit` (60_exceptions.md rule R229) -/

theorem needLimit_ok {s : State} {i : LimIdx} (h : (s.limit i).ok = true) : needLimit i s = .ok () := by
  rw [needLimit, if_pos h]

theorem needLimit_unset {s : State} {i : LimIdx} (h : (s.limit i).ok = false) :
    needLimit i s = .error (.plain .limit) := by
  rw [needLimit, if_neg (by simp [h])]

/-! ## `WriteLimited` (rule R185) -/

theorem inLimit_eq_false (l : Limit) (v : Int) :
    inLimit l v = false ↔ v < l.min.toInt ∨ l.max.toInt < v := by
  simp only [inLimit, Bool.and_eq_false_iff, decide_eq_false_iff_not]
  omega

theorem writeLimited_range {s : State} {i : LimIdx} {v : Int} (precise : Bool) (h : s.OutOfRange i v) :
    writeLimited i v precise s = .error (.latch .w .range precise) := by
  simp [writeLimited, h.1, (inLimit_eq_false _ _).mpr h.2]

theorem writeLimited_push {s : State} {i : LimIdx} {v : Int} (precise : Bool) (h : ¬ s.OutOfRange i v) :
    writeLimited i v precise s = wPush (s.limit i).bits (trunc32 (v - (s.limit i).min.toInt)) s := by
  have h' : (s.params.rangeCheck && !inLimit (s.limit i) v) = false := by
    unfold State.OutOfRange at h
    rw [← inLimit_eq_false] at h
    cases h1 : s.params.rangeCheck <;> cases h2 : inLimit (s.limit i) v <;> simp_all
  simp [writeLimited, h']

/-- In a well-formed state with room, a value the range check lets through is appended as its field. -/
theorem writeLimited_appends {s : State} (hs : s.Wf) (hf : s.w.fault = false) {i : LimIdx}
    (hok : (s.limit i).ok = true) {v : Int} (hv : ¬ s.OutOfRange i v) (precise : Bool)
    (h : s.w.count.toNat + pushStores s.w.valid.toNat (s.limit i).bits.toNat ≤ s.w.cap.toNat) :
    ∃ t, writeLimited i v precise s = .ok t ∧ t.Wf ∧ t.responses = s.responses ∧
      AppendsField s t (s.limit i).bits.toNat (limitedField (s.limit i) v)
        (pushStores s.w.valid.toNat (s.limit i).bits.toNat) := by
  obtain ⟨t, e, h1, h2, h3⟩ := wPush_appends hs hf (hs.bits_le hok) _ h
  exact ⟨t, (writeLimited_push precise hv).trans e, h1, h2, h3.congr (by rw [limitedField, Nat.mod_mod])⟩

theorem writeLimited_full {s : State} (hs : s.Wf) (hf : s.w.fault = false) {i : LimIdx}
    (hok : (s.limit i).ok = true) {v : Int} (hv : ¬ s.OutOfRange i v) (precise : Bool)
    (h : s.w.cap.toNat < s.w.count.toNat + pushStores s.w.valid.toNat (s.limit i).bits.toNat) :
    writeLimited i v precise s = .error (.latch .w .capacity false) := by
  obtain ⟨hv31, -, hcnt, -⟩ := hs.writer.2 hf
  rw [writeLimited_push precise hv, wPush_full h hcnt (hs.bits_le hok) hv31]

/-! ## `ReadLimited` (rule R187) -/

theorem readLimited_consumes {s : State} (hs : s.Wf) (hf : s.r.fault = false) {i : LimIdx}
    (hok : (s.limit i).ok = true)
    (h : s.r.count.toNat + popFetches s.r.valid.toNat (s.limit i).bits.toNat ≤ s.r.cap.toNat) :
    ∃ t, readLimited i s = .ok (s.nextLimited i 0, t) ∧ t.Wf ∧ t.responses = s.responses ∧
      ConsumesBits s t (s.limit i).bits.toNat (popFetches s.r.valid.toNat (s.limit i).bits.toNat) := by
  have h32 := hs.bits_le hok
  obtain ⟨t, e, h1⟩ := rPop_consumes hs hf h32 h
  refine ⟨t, ?_, h1⟩
  have hlt : s.nextField 0 (s.limit i).bits.toNat < 2 ^ 32 :=
    Nat.lt_of_lt_of_le (nextField_lt _ _ _) (Nat.pow_le_pow_right (by omega) h32)
  rw [readLimited, e]
  simp only [bind, Except.bind, BitVec.toNat_ofNat, Nat.mod_eq_of_lt hlt]
  rfl

theorem readLimited_full {s : State} (hs : s.Wf) (hf : s.r.fault = false) {i : LimIdx}
    (hok : (s.limit i).ok = true)
    (h : s.r.cap.toNat < s.r.count.toNat + popFetches s.r.valid.toNat (s.limit i).bits.toNat) :
    readLimited i s = .error (.latch .r .capacity false) := by
  rw [readLimited, rPop_full h (hs.reader.2 hf).2.2.1 (hs.bits_le hok)]
  rfl

/-- What was consumed before does not change what a limited field means. -/
theorem ConsumesBits.nextLimited {s t : State} {k a : Nat} (h : ConsumesBits s t k a) (i : LimIdx) (o : Nat) :
    t.nextLimited i o = s.nextLimited i (k + o) := by
  have hl : t.limit i = s.limit i := by
    obtain ⟨-, -, hl, -⟩ := h.unchanged
    simp only [State.limit, hl]
  rw [State.nextLimited, State.nextLimited, hl, h.nextField]

theorem limit_congr {s t : State} (h : t.lim = s.lim) (i : LimIdx) : t.limit i = s.limit i := by
  simp only [State.limit, h]

/-! ## Policy 3 (44_delta.md rules R208, R209) -/

/-- Everything the writer side of policy 3 can do in a well-formed state. -/
theorem writeLimitedIfChanged_cases {s : State} (hs : s.Wf) (hf : s.w.fault = false) {i : LimIdx}
    (hok : (s.limit i).ok = true) (u b : Int) :
    let v := s.w.valid.toNat
    let k := 1 + (s.limit i).bits.toNat
    (u = b → s.w.count.toNat + pushStores v 1 ≤ s.w.cap.toNat →
      ∃ t, writeLimitedIfChanged i u b s = .ok t ∧ t.Wf ∧ t.responses = s.responses ∧
        AppendsField s t 1 0 (pushStores v 1)) ∧
    (u ≠ b → ¬ s.OutOfRange i u → s.w.count.toNat + pushStores v k ≤ s.w.cap.toNat →
      ∃ t, writeLimitedIfChanged i u b s = .ok t ∧ t.Wf ∧ t.responses = s.responses ∧
        AppendsField s t k (1 + 2 * limitedField (s.limit i) u) (pushStores v k)) ∧
    (u ≠ b → s.OutOfRange i u → s.w.count.toNat + pushStores v 1 ≤ s.w.cap.toNat →
      writeLimitedIfChanged i u b s = .error (.latch .w .range false)) ∧
    ((s.w.cap.toNat < s.w.count.toNat + pushStores v 1 ∨
        (u ≠ b ∧ ¬ s.OutOfRange i u ∧ s.w.cap.toNat < s.w.count.toNat + pushStores v k)) →
      writeLimitedIfChanged i u b s = .error (.latch .w .capacity false)) := by
  simp only
  refine ⟨fun hub h => ?_, fun hub hr h => ?_, fun hub hr h => ?_, fun h => ?_⟩
  · obtain ⟨t, e, h1, -, -, -, -, h2, h3⟩ := wPush_one hs hf false h
    refine ⟨t, ?_, h1, h2, h3⟩
    rw [writeLimitedIfChanged, show limitedChanged u b = false by simp [limitedChanged, hub], e]
    simp only [bind, Except.bind, Bool.false_eq_true, if_false]
  · have hle := pushStores_le_add s.w.valid.toNat 1 (s.limit i).bits.toNat
    obtain ⟨t, e, h1, hfa, hcap, hl, hp, h2, h3⟩ := wPush_one hs hf true (by omega)
    have hli := limit_congr hl i
    have hroom := h3.room (l := (s.limit i).bits.toNat)
    have hr' : ¬ t.OutOfRange i u := by rw [State.OutOfRange, hp, hli]; exact hr
    obtain ⟨r, e', h1', h2', h3'⟩ := writeLimited_appends h1 hfa (by rw [hli]; exact hok) hr' false
      (by rw [hli, hcap]; omega)
    rw [hli] at h3'
    refine ⟨r, ?_, h1', h2'.trans h2, (h3.pushes h3').congr (by simp)⟩
    rw [writeLimitedIfChanged, show limitedChanged u b = true by simp [limitedChanged, hub], e]
    simp only [bind, Except.bind, if_true]
    exact e'
  · obtain ⟨t, e, h1, hfa, hcap, hl, hp, h2, h3⟩ := wPush_one hs hf true h
    have hr' : t.OutOfRange i u := by rw [State.OutOfRange, hp, limit_congr hl i]; exact hr
    rw [writeLimitedIfChanged, show limitedChanged u b = true by simp [limitedChanged, hub], e]
    simp only [bind, Except.bind, if_true]
    exact writeLimited_range false hr'
  · by_cases hroom : s.w.count.toNat + pushStores s.w.valid.toNat 1 ≤ s.w.cap.toNat
    · obtain ⟨hub, hr, h⟩ := h.resolve_left (by omega)
      obtain ⟨t, e, h1, hfa, hcap, hl, hp, h2, h3⟩ := wPush_one hs hf true hroom
      have hli := limit_congr hl i
      have hroom' := h3.room (l := (s.limit i).bits.toNat)
      have hr' : ¬ t.OutOfRange i u := by rw [State.OutOfRange, hp, hli]; exact hr
      rw [writeLimitedIfChanged, show limitedChanged u b = true by simp [limitedChanged, hub], e]
      simp only [bind, Except.bind, if_true]
      exact writeLimited_full h1 hfa (by rw [hli]; exact hok) hr' false (by rw [hli, hcap]; omega)
    · rw [writeLimitedIfChanged, wPush_one_full hs hf _ (by omega)]
      rfl

/-- Everything the reader side of policy 3 can do in a well-formed state. -/
theorem readLimitedIfChanged_cases {s : State} (hs : s.Wf) (hf : s.r.fault = false) {i : LimIdx}
    (hok : (s.limit i).ok = true) (b : Word64) :
    let v := s.r.valid.toNat
    let k := 1 + (s.limit i).bits.toNat
    (s.nextBit 0 = false → s.r.count.toNat + popFetches v 1 ≤ s.r.cap.toNat →
      ∃ t, readLimitedIfChanged i b s = .ok (sext64 (low32 b), t) ∧ t.Wf ∧ t.responses = s.responses ∧
        ConsumesBits s t 1 (popFetches v 1)) ∧
    (s.nextBit 0 = true → s.r.count.toNat + popFetches v k ≤ s.r.cap.toNat →
      ∃ t, readLimitedIfChanged i b s = .ok (sext64 (s.nextLimited i 1), t) ∧ t.Wf ∧
        t.responses = s.responses ∧ ConsumesBits s t k (popFetches v k)) ∧
    ((s.r.cap.toNat < s.r.count.toNat + popFetches v 1 ∨
        (s.nextBit 0 = true ∧ s.r.cap.toNat < s.r.count.toNat + popFetches v k)) →
      readLimitedIfChanged i b s = .error (.latch .r .capacity false)) := by
  simp only
  refine ⟨fun hb h => ?_, fun hb h => ?_, fun h => ?_⟩
  · obtain ⟨t, e, h1, -, -, h2, h3⟩ := rPop_one hs hf h
    refine ⟨t, ?_, h1, h2, h3⟩
    rw [readLimitedIfChanged, e]
    simp only [bind, Except.bind, bitField_eq_one, hb, Bool.false_eq_true, if_false]
  · have hle := popFetches_le_add s.r.valid.toNat 1 (s.limit i).bits.toNat
    obtain ⟨t, e, h1, hfa, hcap, h2, h3⟩ := rPop_one hs hf (by omega)
    have hli := limit_congr h3.unchanged.2.2.1 i
    have hroom := h3.room (l := (s.limit i).bits.toNat)
    obtain ⟨r, e', h1', h2', h3'⟩ := readLimited_consumes h1 hfa (by rw [hli]; exact hok)
      (by rw [hli, hcap]; omega)
    rw [hli] at h3'
    refine ⟨r, ?_, h1', h2'.trans h2, h3.pops h3'⟩
    rw [readLimitedIfChanged, e]
    simp only [bind, Except.bind, bitField_eq_one, hb, if_true]
    rw [e', h3.nextLimited]
  · by_cases hroom : s.r.count.toNat + popFetches s.r.valid.toNat 1 ≤ s.r.cap.toNat
    · obtain ⟨hb, h⟩ := h.resolve_left (by omega)
      obtain ⟨t, e, h1, hfa, hcap, h2, h3⟩ := rPop_one hs hf hroom
      have hli := limit_congr h3.unchanged.2.2.1 i
      have hroom' := h3.room (l := (s.limit i).bits.toNat)
      rw [readLimitedIfChanged, e]
      simp only [bind, Except.bind, bitField_eq_one, hb, if_true]
      rw [readLimited_full h1 hfa (by rw [hli]; exact hok) (by rw [hli, hcap]; omega)]
    · rw [readLimitedIfChanged, rPop_full (n := 1) (show _ < _ + popFetches _ 1 by omega)
        (hs.reader.2 hf).2.2.1 (by decide)]
      rfl

/-! ## Policy 4 (44_delta.md rules R210 to R212) -/

/-- Two flag bits pushed one after the other. -/
theorem wPush_flags {s : State} (hs : s.Wf) (hf : s.w.fault = false) (b : Bool)
    (h : s.w.count.toNat + pushStores s.w.valid.toNat 2 ≤ s.w.cap.toNat) :
    ∃ t u, wPush 1 1 s = .ok t ∧ wPush 1 (bitField b) t = .ok u ∧ u.Wf ∧ u.w.fault = false ∧
      u.w.cap = s.w.cap ∧ t.lim = s.lim ∧ u.lim = s.lim ∧ u.params = s.params ∧
      u.responses = s.responses ∧ AppendsField s u 2 (1 + 2 * b.toNat) (pushStores s.w.valid.toNat 2) := by
  have hle : pushStores s.w.valid.toNat 1 ≤ pushStores s.w.valid.toNat 2 := pushStores_le_add _ 1 1
  obtain ⟨t, e, h1, hfa, hcap, hl, hp, h2, h3⟩ := wPush_one hs hf true (by omega)
  have hroom : s.w.count.toNat + pushStores s.w.valid.toNat 2 = _ := h3.room (l := 1)
  obtain ⟨u, e', h1', hfa', hcap', hl', hp', h2', h3'⟩ := wPush_one h1 hfa b (by rw [hcap]; omega)
  exact ⟨t, u, e, e', h1', hfa', hcap'.trans hcap, hl, hl'.trans hl, hp'.trans hp, h2'.trans h2,
    (h3.pushes h3').congr (by simp)⟩

/-- Without room for two flag bits, pushing them raises the capacity fault. -/
theorem wPush_flags_full {s : State} (hs : s.Wf) (hf : s.w.fault = false) (v : Word32)
    (h : s.w.cap.toNat < s.w.count.toNat + pushStores s.w.valid.toNat 2) :
    wPush 1 1 s = .error (.latch .w .capacity false) ∨
      ∃ t, wPush 1 1 s = .ok t ∧ t.lim = s.lim ∧ wPush 1 v t = .error (.latch .w .capacity false) := by
  by_cases hroom : s.w.count.toNat + pushStores s.w.valid.toNat 1 ≤ s.w.cap.toNat
  · obtain ⟨t, e, h1, hfa, hcap, hl, -, -, h3⟩ := wPush_one hs hf true hroom
    have hroom' : s.w.count.toNat + pushStores s.w.valid.toNat 2 = _ := h3.room (l := 1)
    exact .inr ⟨t, e, hl, wPush_one_full h1 hfa v (by rw [hcap]; omega)⟩
  · exact .inl (wPush_one_full hs hf 1 (by omega))

/-- The Limit register and the value a changed value of policy 4 is encoded with (rule R212). -/
def diffChoice (s : State) (la lb : LimIdx) (u b : Int) : LimIdx × Int :=
  if diffEligible (s.limit lb) (u - b) then (lb, u - b) else (la, u)

/-- The bits of a changed value of policy 4: two flags and a limited field (rule R212). -/
def diffBits (s : State) (la lb : LimIdx) (u b : Int) : Nat :=
  2 + (s.limit (diffChoice s la lb u b).1).bits.toNat

/-- The field of a changed value of policy 4 (rule R212). -/
def diffField (s : State) (la lb : LimIdx) (u b : Int) : Nat :=
  1 + 2 * (diffEligible (s.limit lb) (u - b)).toNat +
    4 * limitedField (s.limit (diffChoice s la lb u b).1) (diffChoice s la lb u b).2

theorem diffChoice_eq (s : State) (la lb : LimIdx) (u b : Int) :
    diffChoice s la lb u b = if diffEligible (s.limit lb) (u - b) then (lb, u - b) else (la, u) := rfl

/-- `writeDiff` on a changed value, in terms of the choice it makes. -/
theorem writeDiff_changed (s : State) (la lb : LimIdx) {u b : Int} (h : u ≠ b) :
    writeDiff la lb u b s =
      (wPush 1 1 s).bind fun s1 =>
        (wPush 1 (bitField (diffEligible (s.limit lb) (u - b))) s1).bind fun s2 =>
          writeLimited (diffChoice s la lb u b).1 (diffChoice s la lb u b).2 false s2 := by
  have hc : limitedChanged u b = true := by simp [limitedChanged, h]
  rw [writeDiff, hc, if_pos rfl, diffChoice_eq]
  cases diffEligible (s.limit lb) (u - b) <;> rfl

/-- Everything the writer side of policy 4 can do in a well-formed state. -/
theorem writeDiff_cases {s : State} (hs : s.Wf) (hf : s.w.fault = false) {la lb : LimIdx}
    (hla : (s.limit la).ok = true) (hlb : (s.limit lb).ok = true) (u b : Int) :
    let v := s.w.valid.toNat
    let c := diffChoice s la lb u b
    let k := diffBits s la lb u b
    (u = b → s.w.count.toNat + pushStores v 1 ≤ s.w.cap.toNat →
      ∃ t, writeDiff la lb u b s = .ok t ∧ t.Wf ∧ t.responses = s.responses ∧
        AppendsField s t 1 0 (pushStores v 1)) ∧
    (u ≠ b → ¬ s.OutOfRange c.1 c.2 → s.w.count.toNat + pushStores v k ≤ s.w.cap.toNat →
      ∃ t, writeDiff la lb u b s = .ok t ∧ t.Wf ∧ t.responses = s.responses ∧
        AppendsField s t k (diffField s la lb u b) (pushStores v k)) ∧
    (u ≠ b → s.OutOfRange c.1 c.2 → s.w.count.toNat + pushStores v 2 ≤ s.w.cap.toNat →
      writeDiff la lb u b s = .error (.latch .w .range false)) ∧
    ((s.w.cap.toNat < s.w.count.toNat + pushStores v 1 ∨
        (u ≠ b ∧ s.w.cap.toNat < s.w.count.toNat + pushStores v 2) ∨
        (u ≠ b ∧ ¬ s.OutOfRange c.1 c.2 ∧ s.w.cap.toNat < s.w.count.toNat + pushStores v k)) →
      writeDiff la lb u b s = .error (.latch .w .capacity false)) := by
  simp only
  have hok : (s.limit (diffChoice s la lb u b).1).ok = true := by
    rw [diffChoice_eq]; split <;> assumption
  have hkk : ∀ f, 2 + (s.limit (diffChoice s la lb u b).1).bits.toNat = f → f = diffBits s la lb u b :=
    fun f h => h ▸ rfl
  refine ⟨fun hub h => ?_, fun hub hr h => ?_, fun hub hr h => ?_, fun h => ?_⟩
  · obtain ⟨t, e, h1, -, -, -, -, h2, h3⟩ := wPush_one hs hf false h
    refine ⟨t, ?_, h1, h2, h3⟩
    have hc : limitedChanged u b = false := by simp [limitedChanged, hub]
    rw [writeDiff, hc, if_neg Bool.false_ne_true]
    exact e
  · have hle := pushStores_le_add s.w.valid.toNat 2 (s.limit (diffChoice s la lb u b).1).bits.toNat
    rw [hkk _ rfl] at hle
    obtain ⟨t, r, e, e', h1, hfa, hcap, -, hl, hp, h2, h3⟩ := wPush_flags hs hf
      (diffEligible (s.limit lb) (u - b)) (by omega)
    have hli := limit_congr hl (diffChoice s la lb u b).1
    have hroom := h3.room (l := (s.limit (diffChoice s la lb u b).1).bits.toNat)
    rw [hkk _ rfl] at hroom
    have hr' : ¬ r.OutOfRange (diffChoice s la lb u b).1 (diffChoice s la lb u b).2 := by
      rw [State.OutOfRange, hp, hli]; exact hr
    obtain ⟨q, e'', h1', h2', h3'⟩ := writeLimited_appends h1 hfa (by rw [hli]; exact hok) hr' false
      (by rw [hli, hcap]; omega)
    rw [hli] at h3'
    have h4 := h3.pushes h3'
    rw [hkk _ rfl] at h4
    refine ⟨q, ?_, h1', h2'.trans h2, h4.congr ?_⟩
    · rw [writeDiff_changed s la lb hub, e]
      simp only [Except.bind, e']
      exact e''
    · have : (1 + 2 * (diffEligible (s.limit lb) (u - b)).toNat) % 2 ^ 2 =
          1 + 2 * (diffEligible (s.limit lb) (u - b)).toNat := by
        have := Bool.toNat_le (diffEligible (s.limit lb) (u - b)); omega
      rw [this]; rfl
  · obtain ⟨t, r, e, e', h1, hfa, hcap, -, hl, hp, h2, h3⟩ := wPush_flags hs hf
      (diffEligible (s.limit lb) (u - b)) h
    have hr' : r.OutOfRange (diffChoice s la lb u b).1 (diffChoice s la lb u b).2 := by
      rw [State.OutOfRange, hp, limit_congr hl]; exact hr
    rw [writeDiff_changed s la lb hub, e]
    simp only [Except.bind, e']
    exact writeLimited_range false hr'
  · have hle : pushStores s.w.valid.toNat 1 ≤ pushStores s.w.valid.toNat 2 := pushStores_le_add _ 1 1
    by_cases hub : u = b
    · have hc : limitedChanged u b = false := by simp [limitedChanged, hub]
      rw [writeDiff, hc, if_neg Bool.false_ne_true]
      exact wPush_one_full hs hf 0 (by
        rcases h with h | h | h
        · exact h
        · exact absurd hub h.1
        · exact absurd hub h.1)
    · rw [writeDiff_changed s la lb hub]
      by_cases hroom : s.w.count.toNat + pushStores s.w.valid.toNat 2 ≤ s.w.cap.toNat
      · obtain ⟨t, r, e, e', h1, hfa, hcap, -, hl, hp, h2, h3⟩ := wPush_flags hs hf
          (diffEligible (s.limit lb) (u - b)) hroom
        have hli := limit_congr hl (diffChoice s la lb u b).1
        have hroom' := h3.room (l := (s.limit (diffChoice s la lb u b).1).bits.toNat)
        rw [hkk _ rfl] at hroom'
        obtain ⟨-, hr, h⟩ := (h.resolve_left (by omega)).resolve_left (by omega)
        have hr' : ¬ r.OutOfRange (diffChoice s la lb u b).1 (diffChoice s la lb u b).2 := by
          rw [State.OutOfRange, hp, hli]; exact hr
        rw [e]
        simp only [Except.bind, e']
        exact writeLimited_full h1 hfa (by rw [hli]; exact hok) hr' false (by rw [hli, hcap]; omega)
      · rcases wPush_flags_full hs hf (bitField (diffEligible (s.limit lb) (u - b))) (by omega)
          with e | ⟨t, e, -, e'⟩
        · rw [e]; rfl
        · rw [e]; simp only [Except.bind, e']

/-- Everything the reader side of policy 4 can do in a well-formed state. -/
theorem readDiff_cases {s : State} (hs : s.Wf) (hf : s.r.fault = false) {la lb : LimIdx}
    (hla : (s.limit la).ok = true) (hlb : (s.limit lb).ok = true) (b : Word64) :
    let v := s.r.valid.toNat
    let i := if s.nextBit 1 then lb else la
    let k := 2 + (s.limit i).bits.toNat
    let res := if s.nextBit 1 then trunc32 (limitedOperand b + (s.nextLimited lb 2).toInt)
      else s.nextLimited la 2
    (s.nextBit 0 = false → s.r.count.toNat + popFetches v 1 ≤ s.r.cap.toNat →
      ∃ t, readDiff la lb b s = .ok (sext64 (low32 b), t) ∧ t.Wf ∧ t.responses = s.responses ∧
        ConsumesBits s t 1 (popFetches v 1)) ∧
    (s.nextBit 0 = true → s.r.count.toNat + popFetches v k ≤ s.r.cap.toNat →
      ∃ t, readDiff la lb b s = .ok (sext64 res, t) ∧ t.Wf ∧ t.responses = s.responses ∧
        ConsumesBits s t k (popFetches v k)) ∧
    ((s.r.cap.toNat < s.r.count.toNat + popFetches v 1 ∨
        (s.nextBit 0 = true ∧ s.r.cap.toNat < s.r.count.toNat + popFetches v k)) →
      readDiff la lb b s = .error (.latch .r .capacity false)) := by
  simp only
  obtain ⟨i, hi⟩ : ∃ i, (if s.nextBit 1 then lb else la) = i := ⟨_, rfl⟩
  have hok : (s.limit i).ok = true := by rw [← hi]; split <;> assumption
  rw [hi]
  have hle := popFetches_le_add s.r.valid.toNat 1 (1 + (s.limit i).bits.toNat)
  rw [show 1 + (1 + (s.limit i).bits.toNat) = 2 + (s.limit i).bits.toNat by omega] at hle
  refine ⟨fun hb h => ?_, fun hb h => ?_, fun h => ?_⟩
  · obtain ⟨t, e, h1, -, -, h2, h3⟩ := rPop_one hs hf h
    refine ⟨t, ?_, h1, h2, h3⟩
    rw [readDiff, e]
    simp only [bind, Except.bind, bitField_eq_zero, hb, if_true]
  · obtain ⟨t, e, h1, hfa, hcap, h2, h3⟩ := rPop_one hs hf (by omega)
    have hroom := h3.room (l := 1 + (s.limit i).bits.toNat)
    rw [show 1 + (1 + (s.limit i).bits.toNat) = 2 + (s.limit i).bits.toNat by omega] at hroom
    have hle' := popFetches_le_add t.r.valid.toNat 1 (s.limit i).bits.toNat
    obtain ⟨t2, e2, h12, hfa2, hcap2, h22, h32⟩ := rPop_one h1 hfa (by rw [hcap]; omega)
    have hroom2 := h32.room (l := (s.limit i).bits.toNat)
    have hbit : t.nextBit 0 = s.nextBit 1 := h3.rest 0
    have hli := limit_congr (h32.unchanged.2.2.1.trans h3.unchanged.2.2.1) i
    obtain ⟨r, e', h1', h2', h3'⟩ := readLimited_consumes h12 hfa2 (by rw [hli]; exact hok)
      (by rw [hli, hcap2, hcap]; omega)
    rw [hli] at h3'
    have h4 := (h3.pops (h32.pops h3'))
    rw [show 1 + (1 + (s.limit i).bits.toNat) = 2 + (s.limit i).bits.toNat by omega] at h4
    refine ⟨r, ?_, h1', h2'.trans (h22.trans h2), h4⟩
    have hnl : t2.nextLimited i 0 = s.nextLimited i 2 := by rw [h32.nextLimited, h3.nextLimited]
    rw [hnl] at e'
    rw [readDiff, e]
    simp only [bind, Except.bind, bitField_eq_zero, hb, Bool.true_eq_false, if_false]
    rw [e2, hbit]
    simp only [bitField_eq_one]
    cases h1b : s.nextBit 1
    · have hila : i = la := by rw [← hi, h1b]; rfl
      subst hila
      simp only [Bool.false_eq_true, if_false, e']
    · have hilb : i = lb := by rw [← hi, h1b]; rfl
      subst hilb
      simp only [if_true, e']
  · by_cases hroom1 : s.r.count.toNat + popFetches s.r.valid.toNat 1 ≤ s.r.cap.toNat
    · obtain ⟨hb, h⟩ := h.resolve_left (by omega)
      obtain ⟨t, e, h1, hfa, hcap, h2, h3⟩ := rPop_one hs hf hroom1
      have hroom := h3.room (l := 1 + (s.limit i).bits.toNat)
      rw [show 1 + (1 + (s.limit i).bits.toNat) = 2 + (s.limit i).bits.toNat by omega] at hroom
      have hbit : t.nextBit 0 = s.nextBit 1 := h3.rest 0
      rw [readDiff, e]
      simp only [bind, Except.bind, bitField_eq_zero, hb, Bool.true_eq_false, if_false]
      by_cases hroom2 : t.r.count.toNat + popFetches t.r.valid.toNat 1 ≤ t.r.cap.toNat
      · obtain ⟨t2, e2, h12, hfa2, hcap2, h22, h32⟩ := rPop_one h1 hfa hroom2
        have hroom2' := h32.room (l := (s.limit i).bits.toNat)
        have hli := limit_congr (h32.unchanged.2.2.1.trans h3.unchanged.2.2.1) i
        have e' := readLimited_full h12 hfa2 (i := i) (by rw [hli]; exact hok)
          (by rw [hli, hcap2, hcap]; omega)
        rw [e2, hbit]
        simp only [bitField_eq_one]
        cases h1b : s.nextBit 1
        · have hila : i = la := by rw [← hi, h1b]; rfl
          subst hila
          simp only [Bool.false_eq_true, if_false, e']
        · have hilb : i = lb := by rw [← hi, h1b]; rfl
          subst hilb
          simp only [if_true, e']
      · rw [rPop_full (n := 1) (show _ < _ + popFetches _ 1 by omega) (h1.reader.2 hfa).2.2.1 (by decide)]
    · rw [readDiff, rPop_full (n := 1) (show _ < _ + popFetches _ 1 by omega)
        (hs.reader.2 hf).2.2.1 (by decide)]
      rfl

end Sys2Proof.Machine
end

