-- ==== Sys2Proof/Laws/Commands.lean ====
section
/-! SUPPORT. What the command wrapper, a raised fault, the binding of a window, the patch of a bit and the
host's events do (40_accumulator_and_control.md rule R118, 60_exceptions.md rules R222, R223, R230, R231,
41_bit_writer.md rule R140, 70_reset_and_hazards.md rules R250, R266). -/

namespace Sys2Proof.Machine

/-! ## The wrapper (rule R118) -/

@[simp] theorem complete_ok (s t : State) (res : Option Word64) :
    complete s (.ok (t, res)) = .next (t.respond (okResponse res)) := rfl

@[simp] theorem complete_latch (s : State) (u : UnitId) (c : Cause) (precise : Bool) :
    complete s (.error (.latch u c precise)) =
      .next ((s.latchFault u c precise).respond (failResponse (causeCode c))) := rfl

@[simp] theorem complete_plain (s : State) (c : Cause) :
    complete s (.error (.plain c)) = .next (s.respond (failResponse (causeCode c))) := rfl

@[simp] theorem complete_missing (s : State) (a : Nat) :
    complete s (.error (.missing a)) = .fault (.noSuchAddress a) := rfl

@[simp] theorem finish_ok (s t : State) : finish s (.ok t) = .next (t.respond (okResponse none)) := rfl

@[simp] theorem finish_error (s : State) (a : Abort) : finish s (.error a) = complete s (.error a) := rfl

@[simp] theorem finishWith_ok (s t : State) (x : Word64) :
    finishWith s (.ok (x, t)) = .next (t.respond (okResponse (some x))) := rfl

@[simp] theorem finishWith_error (s : State) (a : Abort) : finishWith s (.error a) = complete s (.error a) := rfl

theorem onUnit_clear {u : UnitId} {s : State} (h : (s.unit u).fault = false)
    (rule : Host.Outcome State Fault Refusal) : onUnit u s rule = rule := by
  rw [onUnit, if_neg (by simp [h])]

theorem onUnit_w_clear {s : State} (h : s.w.fault = false) (rule : Host.Outcome State Fault Refusal) :
    onUnit .w s rule = rule := onUnit_clear (u := .w) h rule

theorem onUnit_r_clear {s : State} (h : s.r.fault = false) (rule : Host.Outcome State Fault Refusal) :
    onUnit .r s rule = rule := onUnit_clear (u := .r) h rule

theorem onUnit_faulted {u : UnitId} {s : State} (h : (s.unit u).fault = true)
    (rule : Host.Outcome State Fault Refusal) :
    onUnit u s rule = .next (s.respond (failResponse (s.unit u).cause)) := by
  rw [onUnit, if_pos h]

theorem withLegalCount_ok {n : Count6} (h : n.toNat ≤ 32) (s : State)
    (rule : Host.Outcome State Fault Refusal) : withLegalCount n s rule = rule := by
  rw [withLegalCount, if_pos h]

/-! ## Answers keep well-formedness -/

theorem State.Wf.congr {s t : State} (h : s.Wf) (hp : t.params = s.params) (hw : t.w = s.w) (hr : t.r = s.r)
    (hl : t.lim = s.lim) (hm : t.mem = s.mem) : t.Wf :=
  h.withWriter hp hr hl (hw ▸ h.writer) (hw ▸ h.writerCause) (hm ▸ h.memory) (hm ▸ h.memoryFits)

theorem State.Wf.respond {s : State} (h : s.Wf) (x : Response) : (s.respond x).Wf :=
  h.congr rfl rfl rfl rfl rfl

/-! ## A raised fault (rules R222, R223) -/

/-- The causes a unit can latch (60_exceptions.md rule R221). -/
def canLatch (u : UnitId) (c : Cause) : Prop :=
  (u = .w ∧ (c = .capacity ∨ c = .unflushed ∨ c = .backpatch ∨ c = .range)) ∨ (u = .r ∧ c = .capacity)

theorem State.Wf.latchFault {s : State} (h : s.Wf) {u : UnitId} {c : Cause} (hc : canLatch u c)
    (precise : Bool) : (s.latchFault u c precise).Wf := by
  rcases hc with ⟨rfl, hc⟩ | ⟨rfl, rfl⟩
  · have hcode : 1 ≤ (causeCode c).toNat ∧ (causeCode c).toNat ≤ 4 := by
      rcases hc with rfl | rfl | rfl | rfl <;> decide
    cases precise
    · refine h.withWriter rfl rfl rfl ⟨h.writer.1, fun hf => ?_⟩ (fun _ => hcode) ?_ ?_
      · cases hf
      · exact memUnspecified_wf h.memory _ _ _
      · refine memUnspecified_fits h.memoryFits _ _ _ ?_
        have : Nat.min (s.w.base.toNat + s.w.cap.toNat) s.params.memBytes ≤ s.params.memBytes :=
          Nat.min_le_right _ _
        omega
    · exact h.withWriter rfl rfl rfl ⟨h.writer.1, fun hf => by cases hf⟩ (fun _ => hcode) h.memory h.memoryFits
  · cases precise
    · exact h.withReader rfl rfl rfl rfl ⟨h.reader.1, fun hf => by cases hf⟩ (fun _ => rfl)
    · exact h.withReader rfl rfl rfl rfl ⟨h.reader.1, fun hf => by cases hf⟩ (fun _ => rfl)

/-- Raising a latching fault leaves what rule R223 says of every one. -/
theorem imprecise_of_latch (s : State) (u : UnitId) (c : Cause) (precise : Bool) :
    ImpreciseFault s ((s.latchFault u c precise).respond (failResponse (causeCode c))) u c where
  latched := by simp
  window := by simp
  otherUnit := fun v hv => by rw [respond_unit, latchFault_unit_of_ne _ _ _ hv]
  limits := by simp
  parameters := by simp
  memory := fun a ha => by
    rw [respond_byteAt]
    cases u with
    | r => exact byteAt_congr (by simp) (by simp) a
    | w =>
      have ha := ha.resolve_left (by decide)
      refine byteAt_of_lookup ?_ (by simp)
      cases precise
      · have hmin : Nat.min (s.w.base.toNat + s.w.cap.toNat) s.params.memBytes ≤
            s.w.base.toNat + s.w.cap.toNat := Nat.min_le_left _ _
        by_cases hlt : s.w.base.toNat + s.w.count.toNat ≤
            Nat.min (s.w.base.toNat + s.w.cap.toNat) s.params.memBytes
        · exact memLookup_memUnspecified_outside _ _ _ _ (by omega)
        · show memLookup (memUnspecified s.mem s.draws _ (_ - _)) a = _
          rw [show Nat.min (s.w.base.toNat + s.w.cap.toNat) s.params.memBytes -
            (s.w.base.toNat + s.w.count.toNat) = 0 by omega]
          rfl
      · rfl
  answer := by simp
  inbox := by simp

/-- A precise fault changes the latch alone. -/
theorem precise_of_latch (s : State) (u : UnitId) (c : Cause) :
    PreciseFault s ((s.latchFault u c true).respond (failResponse (causeCode c))) u c := rfl

/-! ## How the rule of a stream command ends -/

/-- A rule that appends a field answers without a result. -/
theorem finish_appends {s t : State} {k f stored : Nat} {x : Except Abort State} (e : x = .ok t)
    (hr : t.responses = s.responses) (h : AppendsField s t k f stored) :
    ∃ t', finish s x = .next t' ∧ t'.responses = s.responses ++ [okResponse none] ∧
      AppendsField s t' k f stored :=
  ⟨t.respond (okResponse none), by rw [e]; rfl, by simp [hr], h.respond _⟩

/-- A rule without a result that raises a latching fault leaves what rule R223 says. -/
theorem finish_latch {s : State} {x : Except Abort State} {u : UnitId} {c : Cause} {precise : Bool}
    (e : x = .error (.latch u c precise)) : ∃ t', finish s x = .next t' ∧ ImpreciseFault s t' u c :=
  ⟨_, by rw [e]; rfl, imprecise_of_latch s u c precise⟩

/-- A rule that consumes bits answers with its result. -/
theorem finishWith_consumes {s t : State} {k fetched : Nat} {res : Word64}
    {x : Except Abort (Word64 × State)} (e : x = .ok (res, t)) (hr : t.responses = s.responses)
    (h : ConsumesBits s t k fetched) :
    ∃ t', finishWith s x = .next t' ∧ t'.responses = s.responses ++ [okResponse (some res)] ∧
      ConsumesBits s t' k fetched :=
  ⟨t.respond (okResponse (some res)), by rw [e]; rfl, by simp [hr], h.respond _⟩

/-- A rule with a result that raises a latching fault leaves what rule R223 says. -/
theorem finishWith_latch {s : State} {x : Except Abort (Word64 × State)} {u : UnitId} {c : Cause}
    {precise : Bool} (e : x = .error (.latch u c precise)) :
    ∃ t', finishWith s x = .next t' ∧ ImpreciseFault s t' u c :=
  ⟨_, by rw [e]; rfl, imprecise_of_latch s u c precise⟩

/-! ## The start of a pass and the binding of a window (10_state.md rule R35, rule R230) -/

theorem startPass_wf {memBytes : Nat} {x : BitUnit} (h : x.base.toNat + x.cap.toNat ≤ memBytes) :
    x.startPass.Wf memBytes :=
  ⟨h, fun _ => ⟨by simp, by simp, by simp, rfl⟩⟩

theorem State.Wf.window {s : State} (h : s.Wf) (u : UnitId) :
    (s.unit u).base.toNat + (s.unit u).cap.toNat ≤ s.params.memBytes := by
  cases u
  · exact h.writer.1
  · exact h.reader.1

theorem State.Wf.setUnit {s : State} (h : s.Wf) (u : UnitId) {x : BitUnit} (hx : x.Wf s.params.memBytes)
    (hf : x.fault = false) : (s.setUnit u x).Wf := by
  cases u
  · exact h.withWriter rfl rfl rfl hx (fun h => by rw [setUnit_w_w, hf] at h; cases h) h.memory h.memoryFits
  · exact h.withReader rfl rfl rfl rfl hx (fun h => by rw [setUnit_r_r, hf] at h; cases h)

/-- Everything the binding of a window can do. -/
theorem bindWindow_cases (u : UnitId) (a b : Word64) (s : State) :
    ((a.toNat < 2 ^ 32 ∧ b.toNat < 2 ^ 32 ∧ a.toNat + b.toNat ≤ s.params.memBytes) ∧
      bindWindow u a b s =
        .ok (s.setUnit u { (s.unit u).startPass with base := low32 a, cap := low32 b })) ∨
    ((2 ^ 32 ≤ a.toNat ∨ 2 ^ 32 ≤ b.toNat ∨ s.params.memBytes < a.toNat + b.toNat) ∧
      bindWindow u a b s = .error (.plain .bind)) := by
  have key : ∀ x : Word64, (high32 x = 0 ↔ x.toNat < 2 ^ 32) ∧ (x.toNat < 2 ^ 32 → (low32 x).toNat = x.toNat) := by
    intro x
    have hh := toNat_halves x
    have hl : (low32 x).toNat % 2 ^ 32 = (low32 x).toNat := Nat.mod_eq_of_lt (low32 x).isLt
    have hlt := (low32 x).isLt
    constructor
    · constructor
      · intro h; rw [h] at hh; simp at hh; omega
      · intro h; exact BitVec.eq_of_toNat_eq (by simp; omega)
    · intro h; omega
  by_cases ha : a.toNat < 2 ^ 32
  · by_cases hb : b.toNat < 2 ^ 32
    · by_cases hm : a.toNat + b.toNat ≤ s.params.memBytes
      · refine .inl ⟨⟨ha, hb, hm⟩, ?_⟩
        rw [bindWindow, if_neg]
        rw [(key a).2 ha, (key b).2 hb]
        rintro (h | h | h)
        · exact h ((key a).1.mpr ha)
        · exact h ((key b).1.mpr hb)
        · omega
      · refine .inr ⟨.inr (.inr (by omega)), ?_⟩
        rw [bindWindow, if_pos]
        rw [(key a).2 ha, (key b).2 hb]
        exact .inr (.inr (by omega))
    · refine .inr ⟨.inr (.inl (by omega)), ?_⟩
      rw [bindWindow, if_pos (.inr (.inl fun h => hb ((key b).1.mp h)))]
  · refine .inr ⟨.inl (by omega), ?_⟩
    rw [bindWindow, if_pos (.inl fun h => ha ((key a).1.mp h))]

/-! ## `W.SETAT` (rule R140) -/

/-- Everything the rule of `W.SETAT` can do in a well-formed state. -/
theorem setAt_cases {s : State} (hs : s.Wf) (hf : s.w.fault = false) (p : Nat) (b : Bool) :
    (8 * s.w.cap.toNat ≤ p → setAt p b s = .error (.latch .w .capacity true)) ∧
    (p < 8 * s.w.cap.toNat → s.bitsCount ≤ p → setAt p b s = .error (.latch .w .backpatch true)) ∧
    (p < 8 * s.w.cap.toNat → p < s.bitsCount →
      ∃ t, setAt p b s = .ok t ∧ t.Wf ∧ t.responses = s.responses ∧ PatchesBit s t p b) := by
  obtain ⟨hfit, hacc⟩ := hs.writer
  obtain ⟨hv31, hpend, hcnt, hcause⟩ := hacc hf
  refine ⟨fun h => by rw [setAt, if_pos h], fun h h' => by rw [setAt, if_neg (by omega), if_pos h'],
    fun h h' => ?_⟩
  have hbc : s.bitsCount = 8 * s.w.count.toNat + s.w.valid.toNat := rfl
  by_cases hmem : p < 8 * s.w.count.toNat
  · rcases bbPatchBit_cases .w p b s with ⟨hin, e⟩ | ⟨hout, -⟩
    · simp only [unit_w] at hin e
      obtain ⟨t, ht⟩ : ∃ t, t = { s with
        mem := memWriteByte s.mem (s.w.base.toNat + p / 8)
          (patchByte (s.byteAt (s.w.base.toNat + p / 8)) (p % 8) b) } := ⟨_, rfl⟩
      have hmemt : t.mem = _ := congrArg State.mem ht
      have hother : ∀ a, a ≠ s.w.base.toNat + p / 8 → t.byteAt a = s.byteAt a := fun a ha =>
        byteAt_of_lookup (by rw [hmemt]; exact memLookup_writeByte_of_ne _ _ ha) (by rw [ht])
      have hthis : t.byteAt (s.w.base.toNat + p / 8) =
          patchByte (s.byteAt (s.w.base.toNat + p / 8)) (p % 8) b :=
        byteAt_of_some (by rw [hmemt]; exact memLookup_writeByte_same _ _ _)
      have htw : t.w = s.w := by rw [ht]
      refine ⟨t, ?_, ?_, by rw [ht], ?_⟩
      · rw [setAt, if_neg (by omega), if_neg (by omega), if_pos hmem, e, ht]
      · refine hs.withWriter (by rw [ht]) (by rw [ht]) (by rw [ht]) (htw ▸ hs.writer) (htw ▸ hs.writerCause) ?_ ?_
        · rw [hmemt]; exact memWriteByte_wf hs.memory _ _
        · rw [hmemt]; exact memWriteByte_fits hs.memoryFits hin _
      · refine ⟨by rw [ht], ?_, fun q hq => ?_, fun a ha => hother a (ha.resolve_left (by omega))⟩
        · rw [State.streamBit, htw, if_pos hmem, hthis, getLsbD_patchByte _ _ (by omega)]
          simp
        · rw [State.streamBit, State.streamBit, htw]
          by_cases hqm : q < 8 * s.w.count.toNat
          · rw [if_pos hqm, if_pos hqm]
            by_cases hbyte : q / 8 = p / 8
            · rw [hbyte, hthis, getLsbD_patchByte _ _ (by omega), if_neg (by omega)]
            · rw [hother _ (by omega)]
          · rw [if_neg hqm, if_neg hqm]
    · simp only [unit_w] at hout; omega
  · obtain ⟨k, hk⟩ : ∃ k, p - 8 * s.w.count.toNat = k := ⟨_, rfl⟩
    have e : setAt p b s = .ok { s with w := { s.w with pending := patchPending s.w.pending k b } } := by
      rw [setAt, if_neg (by omega), if_neg (by omega), if_neg hmem, hk]
    refine ⟨_, e, ?_, rfl, rfl, ?_, ?_, fun a _ => rfl⟩
    · refine hs.withWriter rfl rfl rfl ⟨hfit, fun _ => ⟨hv31, ?_, hcnt, hcause⟩⟩ hs.writerCause hs.memory
        hs.memoryFits
      refine lt_two_pow_of_getLsbD fun i hi => ?_
      have hi : s.w.valid.toNat ≤ i := hi
      by_cases hi64 : i < 64
      · rw [getLsbD_patchPending _ _ hi64, if_neg (by omega)]
        exact getLsbD_of_lt_two_pow hpend hi
      · exact BitVec.getLsbD_of_ge _ _ (by omega)
    · show (if p < 8 * s.w.count.toNat then _ else _) = b
      rw [if_neg hmem, hk, getLsbD_patchPending _ _ (by omega)]
      simp
    · intro q hq
      show (if q < 8 * s.w.count.toNat then _ else _) = (if q < 8 * s.w.count.toNat then _ else _)
      by_cases hqm : q < 8 * s.w.count.toNat
      · rw [if_pos hqm, if_pos hqm]; rfl
      · rw [if_neg hqm, if_neg hqm]
        show (patchPending s.w.pending k b).getLsbD (q - 8 * s.w.count.toNat) = _
        by_cases hi64 : q - 8 * s.w.count.toNat < 64
        · rw [getLsbD_patchPending _ _ hi64, if_neg (by omega)]
        · rw [BitVec.getLsbD_of_ge _ _ (by omega), BitVec.getLsbD_of_ge _ _ (by omega)]

/-! ## The host's events (rules R250, R266) -/

/-- Everything a host write can do. -/
theorem hostStore_cases (s : State) (addr : Word32) (b : Byte) :
    (addr.toNat < s.params.memBytes ∧
      s.hostStore addr b = .next { s with mem := memWriteByte s.mem addr.toNat b }) ∨
    (s.params.memBytes ≤ addr.toNat ∧ s.hostStore addr b = .fault (.noSuchAddress addr.toNat)) := by
  by_cases h : addr.toNat < s.params.memBytes
  · refine .inl ⟨h, ?_⟩
    rw [State.hostStore, if_pos (by simpa [inMemory] using h)]
  · refine .inr ⟨by omega, ?_⟩
    rw [State.hostStore, if_neg (by simp [inMemory]; omega)]

end Sys2Proof.Machine
end

