-- ==== Sys2Proof/Laws/Exec.lean ====
section
/-! SUPPORT. What `exec` can do with any command in a well-formed state, said once: it answers an operand fault and
changes nothing, it refuses for a faulted unit, it latches a fault, or it completes with the frame of its unit
(40_accumulator_and_control.md rule R118, 60_exceptions.md rules R221 to R231). -/

namespace Sys2Proof.Machine

/-! ## What a completed command leaves -/

/-- A writer command completed: the answer apart, only the writer and bytes of its window changed. -/
structure WriterDone (s t : State) (i : Instr) : Prop where
  wf : t.Wf
  frame : t = { s with w := t.w, mem := t.mem }
  latch : t.w.fault = false
  window : bindsWindow i = false → t.w.base = s.w.base ∧ t.w.cap = s.w.cap
  pass : startsPass i = true → t.w.count = 0 ∧ t.w.valid = 0 ∧ t.w.pending = 0 ∧ t.w.cause = 0
  below : (∀ p b, i ≠ .wSetAt p b) → ∀ a, a < s.w.base.toNat + s.w.count.toNat → t.byteAt a = s.byteAt a
  outside : ∀ a, a < s.w.base.toNat ∨ s.w.base.toNat + s.w.cap.toNat ≤ a → t.byteAt a = s.byteAt a

/-- A reader command completed: the answer apart, only the reader changed. -/
structure ReaderDone (s t : State) (i : Instr) : Prop where
  wf : t.Wf
  frame : t = { s with r := t.r }
  latch : t.r.fault = false
  window : bindsWindow i = false → t.r.base = s.r.base ∧ t.r.cap = s.r.cap
  pass : startsPass i = true → t.r.count = 0 ∧ t.r.valid = 0 ∧ t.r.pending = 0 ∧ t.r.cause = 0
  inStep : s.ReaderInStep → t.ReaderInStep

/-- A global command completed: the answer apart, at most the Limit register `LIM.SET` names changed. -/
structure GlobalDone (s t : State) (i : Instr) : Prop where
  wf : t.Wf
  frame : t = { s with lim := t.lim }
  limits : t.lim ≠ s.lim → ∃ j a b, i = .limSet j a b ∧ ∀ k, k ≠ j → t.limit k = s.limit k

/-- A command completed, by the unit it is addressed to. -/
def Done (s t : State) (i : Instr) : Prop :=
  match unitOf i with
  | none => GlobalDone s t i
  | some .w => WriterDone s t i
  | some .r => ReaderDone s t i

/-- The four ways a command can end. -/
inductive Ends (s : State) (i : Instr) : Prop where
  | unchanged (c : Cause) (hc : c ∈ [Cause.illegal, Cause.limit, Cause.bind])
      (e : exec i s = .next (s.respond (failResponse (causeCode c))))
  | refused (u : UnitId) (hu : unitOf i = some u) (hi : startsPass i = false) (hf : (s.unit u).fault = true)
      (e : exec i s = .next (s.respond (failResponse (s.unit u).cause)))
  | latched (u : UnitId) (c : Cause) (precise : Bool) (hu : unitOf i = some u) (hi : startsPass i = false)
      (hf : (s.unit u).fault = false) (hc : canLatch u c)
      (e : exec i s = .next ((s.latchFault u c precise).respond (failResponse (causeCode c))))
  | completed (t : State) (res : Option Word64) (hd : Done s t i)
      (e : exec i s = .next (t.respond (okResponse res)))

/-! ## Stream rules -/

/-- The rule of a writer command that appends a field or raises a fault. -/
def AppendsOrRaises (s : State) (x : Except Abort State) : Prop :=
  (∃ t k f a, x = .ok t ∧ t.Wf ∧ t.responses = s.responses ∧ AppendsField s t k f a) ∨
    (∃ c p, canLatch .w c ∧ x = .error (.latch .w c p)) ∨ x = .error (.plain .limit)

/-- The rule of a reader command that consumes bits or raises a fault. -/
def ConsumesOrRaises (s : State) (x : Except Abort (Word64 × State)) : Prop :=
  (∃ t v k a, x = .ok (v, t) ∧ t.Wf ∧ t.responses = s.responses ∧ ConsumesBits s t k a) ∨
    (∃ p, x = .error (.latch .r .capacity p)) ∨ x = .error (.plain .limit)

theorem canLatch_capacity : canLatch .w .capacity := .inl ⟨rfl, .inl rfl⟩

theorem canLatch_range : canLatch .w .range := .inl ⟨rfl, .inr (.inr (.inr rfl))⟩

theorem AppendsOrRaises.capacity {s : State} {x : Except Abort State} {p : Bool}
    (e : x = .error (.latch .w .capacity p)) : AppendsOrRaises s x :=
  .inr (.inl ⟨_, _, canLatch_capacity, e⟩)

theorem AppendsOrRaises.range {s : State} {x : Except Abort State} {p : Bool}
    (e : x = .error (.latch .w .range p)) : AppendsOrRaises s x :=
  .inr (.inl ⟨_, _, canLatch_range, e⟩)

/-- A field appended stays within the writer's window. -/
theorem WriterDone.of_appends {s t : State} {i : Instr} {k f a : Nat} (hf : s.w.fault = false)
    (hi : startsPass i = false) (ht : t.Wf) (hr : t.responses = s.responses)
    (h : AppendsField s t k f a) : WriterDone s t i := by
  obtain ⟨-, -, -, -, -, hb, hc, hfa, -⟩ := h.unchanged
  have hcnt := h.count
  have hle := (ht.writer.2 (hfa.trans hf)).2.2.1
  rw [hc] at hle
  refine ⟨ht, ?_, hfa.trans hf, fun _ => ⟨hb, hc⟩, fun h' => (by rw [hi] at h'; cases h'), ?_, ?_⟩
  · have := h.frame
    rw [hr] at this
    rw [this]
  · exact fun _ x hx => h.memory x (.inl hx)
  · exact fun x hx => h.memory x (by omega)

theorem ends_of_appends {s : State} {i : Instr} {x : Except Abort State} (hf : s.w.fault = false)
    (hu : unitOf i = some .w) (hi : startsPass i = false) (e0 : exec i s = finish s x)
    (hx : AppendsOrRaises s x) : Ends s i := by
  rcases hx with ⟨t, k, f, a, e, ht, hr, h⟩ | ⟨c, p, hc, e⟩ | e
  · exact .completed t none (by rw [Done, hu]; exact .of_appends hf hi ht hr h) (by rw [e0, e]; rfl)
  · exact .latched .w c p hu hi hf hc (by rw [e0, e]; rfl)
  · exact .unchanged .limit (by simp) (by rw [e0, e]; rfl)

theorem ends_of_consumes {s : State} {i : Instr} {x : Except Abort (Word64 × State)}
    (hf : s.r.fault = false) (hu : unitOf i = some .r) (hi : startsPass i = false)
    (e0 : exec i s = finishWith s x) (hx : ConsumesOrRaises s x) : Ends s i := by
  rcases hx with ⟨t, v, k, a, e, ht, hr, h⟩ | ⟨p, e⟩ | e
  · refine .completed t (some v) ?_ (by rw [e0, e]; rfl)
    obtain ⟨-, -, -, -, -, -, hb, hc, hfa, -⟩ := h.unchanged
    rw [Done, hu]
    refine ⟨ht, ?_, hfa.trans hf, fun _ => ⟨hb, hc⟩, fun h' => (by rw [hi] at h'; cases h'), fun h' => (h.inStep h').1⟩
    have := h.frame
    rw [hr] at this
    rw [this]
  · exact .latched .r .capacity p hu hi hf (.inr ⟨rfl, rfl⟩) (by rw [e0, e]; rfl)
  · exact .unchanged .limit (by simp) (by rw [e0, e]; rfl)

theorem ends_of_faulted {s : State} {i : Instr} {u : UnitId} (hu : unitOf i = some u)
    (hi : startsPass i = false) (hf : (s.unit u).fault = true) (rule : Host.Outcome State Fault Refusal)
    (e0 : exec i s = onUnit u s rule) : Ends s i :=
  .refused u hu hi hf (by rw [e0, onUnit_faulted hf])

/-! ## The rules of the stream commands -/

theorem wPush_raises {s : State} (hs : s.Wf) (hf : s.w.fault = false) {n : Count6} (hn : n.toNat ≤ 32)
    (v : Word32) : AppendsOrRaises s (wPush n v s) := by
  obtain ⟨hv31, -, hcnt, -⟩ := hs.writer.2 hf
  rcases Nat.lt_or_ge s.w.cap.toNat (s.w.count.toNat + pushStores s.w.valid.toNat n.toNat) with h | h
  · exact .capacity (wPush_full h hcnt hn hv31)
  · obtain ⟨t, h'⟩ := wPush_appends hs hf hn v h
    exact .inl ⟨t, _, _, _, h'⟩

theorem writeWhole_raises {s : State} (hs : s.Wf) (hf : s.w.fault = false) (wd : Width) (v : Word64) :
    AppendsOrRaises s (writeWhole wd v s) := by
  rcases Nat.lt_or_ge s.w.cap.toNat (s.w.count.toNat + wholeStores s.w.valid.toNat (widthBits wd)) with h | h
  · exact .capacity (writeWhole_full hs hf wd v h)
  · obtain ⟨t, h'⟩ := writeWhole_appends hs hf wd v h
    exact .inl ⟨t, _, _, _, h'⟩

theorem writeIfChanged_raises {s : State} (hs : s.Wf) (hf : s.w.fault = false) (wd : Width) (a b : Word64) :
    AppendsOrRaises s (writeIfChanged wd a b s) := by
  cases hc : wholeChanged wd a b
  · rcases Nat.lt_or_ge s.w.cap.toNat (s.w.count.toNat + pushStores s.w.valid.toNat 1) with h | h
    · exact .capacity (writeIfChanged_full hs hf wd a b (.inl h))
    · obtain ⟨t, h'⟩ := writeIfChanged_unchanged hs hf wd a b hc h
      exact .inl ⟨t, _, _, _, h'⟩
  · rcases Nat.lt_or_ge s.w.cap.toNat (s.w.count.toNat + changedStores s.w.valid.toNat (widthBits wd))
      with h | h
    · exact .capacity (writeIfChanged_full hs hf wd a b (.inr ⟨hc, h⟩))
    · obtain ⟨t, h'⟩ := writeIfChanged_changed hs hf wd a b hc h
      exact .inl ⟨t, _, _, _, h'⟩

theorem flushPending_raises {s : State} (hs : s.Wf) (hf : s.w.fault = false) :
    AppendsOrRaises s (flushPending s) := by
  rcases Nat.lt_or_ge s.w.cap.toNat (s.w.count.toNat + ceil8 s.w.valid.toNat) with h | h
  · exact .capacity (flushPending_full hs hf h)
  · obtain ⟨t, e, ht, hr, -, -, h'⟩ := flushPending_appends hs hf h
    exact .inl ⟨t, _, _, _, e, ht, hr, h'⟩

theorem writeLimited_raises {s : State} (hs : s.Wf) (hf : s.w.fault = false) {i : LimIdx}
    (hok : (s.limit i).ok = true) (v : Int) (precise : Bool) :
    AppendsOrRaises s (writeLimited i v precise s) := by
  by_cases hr : s.OutOfRange i v
  · exact .range (writeLimited_range precise hr)
  · rcases Nat.lt_or_ge s.w.cap.toNat
      (s.w.count.toNat + pushStores s.w.valid.toNat (s.limit i).bits.toNat) with h | h
    · exact .capacity (writeLimited_full hs hf hok hr precise h)
    · obtain ⟨t, h'⟩ := writeLimited_appends hs hf hok hr precise h
      exact .inl ⟨t, _, _, _, h'⟩

theorem writeLimitedIfChanged_raises {s : State} (hs : s.Wf) (hf : s.w.fault = false) {i : LimIdx}
    (hok : (s.limit i).ok = true) (u b : Int) : AppendsOrRaises s (writeLimitedIfChanged i u b s) := by
  obtain ⟨h1, h2, h3, h4⟩ := writeLimitedIfChanged_cases hs hf hok u b
  rcases Nat.lt_or_ge s.w.cap.toNat (s.w.count.toNat + pushStores s.w.valid.toNat 1) with h | h
  · exact .capacity (h4 (.inl h))
  by_cases hub : u = b
  · obtain ⟨t, h'⟩ := h1 hub h
    exact .inl ⟨t, _, _, _, h'⟩
  by_cases hr : s.OutOfRange i u
  · exact .range (h3 hub hr h)
  rcases Nat.lt_or_ge s.w.cap.toNat
    (s.w.count.toNat + pushStores s.w.valid.toNat (1 + (s.limit i).bits.toNat)) with h' | h'
  · exact .capacity (h4 (.inr ⟨hub, hr, h'⟩))
  · obtain ⟨t, h''⟩ := h2 hub hr h'
    exact .inl ⟨t, _, _, _, h''⟩

theorem writeDiff_raises {s : State} (hs : s.Wf) (hf : s.w.fault = false) {la lb : LimIdx}
    (hla : (s.limit la).ok = true) (hlb : (s.limit lb).ok = true) (u b : Int) :
    AppendsOrRaises s (writeDiff la lb u b s) := by
  obtain ⟨h1, h2, h3, h4⟩ := writeDiff_cases hs hf hla hlb u b
  rcases Nat.lt_or_ge s.w.cap.toNat (s.w.count.toNat + pushStores s.w.valid.toNat 1) with h | h
  · exact .capacity (h4 (.inl h))
  by_cases hub : u = b
  · obtain ⟨t, h'⟩ := h1 hub h
    exact .inl ⟨t, _, _, _, h'⟩
  rcases Nat.lt_or_ge s.w.cap.toNat (s.w.count.toNat + pushStores s.w.valid.toNat 2) with h' | h'
  · exact .capacity (h4 (.inr (.inl ⟨hub, h'⟩)))
  by_cases hr : s.OutOfRange (diffChoice s la lb u b).1 (diffChoice s la lb u b).2
  · exact .range (h3 hub hr h')
  rcases Nat.lt_or_ge s.w.cap.toNat
    (s.w.count.toNat + pushStores s.w.valid.toNat (diffBits s la lb u b)) with h'' | h''
  · exact .capacity (h4 (.inr (.inr ⟨hub, hr, h''⟩)))
  · obtain ⟨t, h3⟩ := h2 hub hr h''
    exact .inl ⟨t, _, _, _, h3⟩

theorem popResult_raises {s : State} (hs : s.Wf) (hf : s.r.fault = false) {n : Count6} (hn : n.toNat ≤ 32) :
    ConsumesOrRaises s (popResult (rPop n s)) := by
  rcases Nat.lt_or_ge s.r.cap.toNat (s.r.count.toNat + popFetches s.r.valid.toNat n.toNat) with h | h
  · exact .inr (.inl ⟨false, by rw [rPop_full h (hs.reader.2 hf).2.2.1 hn]; rfl⟩)
  · obtain ⟨t, e, h'⟩ := rPop_consumes hs hf hn h
    exact .inl ⟨t, _, _, _, by rw [e]; rfl, h'⟩

theorem readWhole_raises {s : State} (hs : s.Wf) (hf : s.r.fault = false) (wd : Width) (sx : Bool) :
    ConsumesOrRaises s (readWhole wd sx s) := by
  rcases Nat.lt_or_ge s.r.cap.toNat (s.r.count.toNat + wholeFetches s.r.valid.toNat (widthBits wd)) with h | h
  · exact .inr (.inl ⟨false, readWhole_full hs hf wd sx h⟩)
  · obtain ⟨t, e, h'⟩ := readWhole_consumes hs hf wd sx h
    exact .inl ⟨t, _, _, _, e, h'⟩

theorem readIfChanged_raises {s : State} (hs : s.Wf) (hf : s.r.fault = false) (wd : Width) (sx : Bool)
    (b : Word64) : ConsumesOrRaises s (readIfChanged wd sx b s) := by
  cases hb : s.nextBit 0
  · rcases Nat.lt_or_ge s.r.cap.toNat (s.r.count.toNat + popFetches s.r.valid.toNat 1) with h | h
    · exact .inr (.inl ⟨false, readIfChanged_full hs hf wd sx b (.inl h)⟩)
    · obtain ⟨t, e, h'⟩ := readIfChanged_unchanged hs hf wd sx b hb h
      exact .inl ⟨t, _, _, _, e, h'⟩
  · rcases Nat.lt_or_ge s.r.cap.toNat (s.r.count.toNat + changedFetches s.r.valid.toNat (widthBits wd))
      with h | h
    · exact .inr (.inl ⟨false, readIfChanged_full hs hf wd sx b (.inr ⟨hb, h⟩)⟩)
    · obtain ⟨t, e, h'⟩ := readIfChanged_changed hs hf wd sx b hb h
      exact .inl ⟨t, _, _, _, e, h'⟩

theorem readLimited_raises {s : State} (hs : s.Wf) (hf : s.r.fault = false) {i : LimIdx}
    (hok : (s.limit i).ok = true) :
    ConsumesOrRaises s ((readLimited i s).bind fun p => .ok (sext64 p.1, p.2)) := by
  rcases Nat.lt_or_ge s.r.cap.toNat
    (s.r.count.toNat + popFetches s.r.valid.toNat (s.limit i).bits.toNat) with h | h
  · exact .inr (.inl ⟨false, by rw [readLimited_full hs hf hok h]; rfl⟩)
  · obtain ⟨t, e, h'⟩ := readLimited_consumes hs hf hok h
    exact .inl ⟨t, _, _, _, by rw [e]; rfl, h'⟩

theorem readLimitedIfChanged_raises {s : State} (hs : s.Wf) (hf : s.r.fault = false) {i : LimIdx}
    (hok : (s.limit i).ok = true) (b : Word64) : ConsumesOrRaises s (readLimitedIfChanged i b s) := by
  obtain ⟨h1, h2, h3⟩ := readLimitedIfChanged_cases hs hf hok b
  cases hb : s.nextBit 0
  · rcases Nat.lt_or_ge s.r.cap.toNat (s.r.count.toNat + popFetches s.r.valid.toNat 1) with h | h
    · exact .inr (.inl ⟨false, h3 (.inl h)⟩)
    · obtain ⟨t, e, h'⟩ := h1 hb h
      exact .inl ⟨t, _, _, _, e, h'⟩
  · rcases Nat.lt_or_ge s.r.cap.toNat
      (s.r.count.toNat + popFetches s.r.valid.toNat (1 + (s.limit i).bits.toNat)) with h | h
    · exact .inr (.inl ⟨false, h3 (.inr ⟨hb, h⟩)⟩)
    · obtain ⟨t, e, h'⟩ := h2 hb h
      exact .inl ⟨t, _, _, _, e, h'⟩

theorem readDiff_raises {s : State} (hs : s.Wf) (hf : s.r.fault = false) {la lb : LimIdx}
    (hla : (s.limit la).ok = true) (hlb : (s.limit lb).ok = true) (b : Word64) :
    ConsumesOrRaises s (readDiff la lb b s) := by
  obtain ⟨h1, h2, h3⟩ := readDiff_cases hs hf hla hlb b
  cases hb : s.nextBit 0
  · rcases Nat.lt_or_ge s.r.cap.toNat (s.r.count.toNat + popFetches s.r.valid.toNat 1) with h | h
    · exact .inr (.inl ⟨false, h3 (.inl h)⟩)
    · obtain ⟨t, e, h'⟩ := h1 hb h
      exact .inl ⟨t, _, _, _, e, h'⟩
  · rcases Nat.lt_or_ge s.r.cap.toNat (s.r.count.toNat + popFetches s.r.valid.toNat
        (2 + (s.limit (if s.nextBit 1 then lb else la)).bits.toNat)) with h | h
    · exact .inr (.inl ⟨false, h3 (.inr ⟨hb, h⟩)⟩)
    · obtain ⟨t, e, h'⟩ := h2 hb h
      exact .inl ⟨t, _, _, _, e, h'⟩

/-- A rule behind the test of a Limit register. -/
theorem needLimit_appends {s : State} (i : LimIdx) {x : Except Abort State}
    (h : (s.limit i).ok = true → AppendsOrRaises s x) :
    AppendsOrRaises s ((needLimit i s).bind fun _ => x) := by
  cases hok : (s.limit i).ok
  · exact .inr (.inr (by rw [needLimit_unset hok]; rfl))
  · rw [needLimit_ok hok]; exact h hok

theorem needLimit_consumes {s : State} (i : LimIdx) {x : Except Abort (Word64 × State)}
    (h : (s.limit i).ok = true → ConsumesOrRaises s x) :
    ConsumesOrRaises s ((needLimit i s).bind fun _ => x) := by
  cases hok : (s.limit i).ok
  · exact .inr (.inr (by rw [needLimit_unset hok]; rfl))
  · rw [needLimit_ok hok]; exact h hok

/-! ## Every command -/

/-- A command that only looks. -/
theorem WriterDone.same {s : State} {i : Instr} (hs : s.Wf) (hf : s.w.fault = false)
    (hi : startsPass i = false) : WriterDone s s i :=
  ⟨hs, rfl, hf, fun _ => ⟨rfl, rfl⟩, fun h => (by rw [hi] at h; cases h), fun _ _ _ => rfl, fun _ _ => rfl⟩

theorem GlobalDone.same {s : State} {i : Instr} (hs : s.Wf) : GlobalDone s s i :=
  ⟨hs, rfl, fun h => absurd rfl h⟩

theorem inStep_of_empty {s : State} (h : s.r.valid = 0) : s.ReaderInStep := by
  have h0 : s.r.valid.toNat = 0 := by rw [h]; rfl
  exact ⟨by omega, fun k hk => absurd hk (by omega)⟩

/-- A new pass of the writer. -/
theorem WriterDone.pass_of {s : State} {i : Instr} (hs : s.Wf) {x : BitUnit}
    (hx : x.base.toNat + x.cap.toNat ≤ s.params.memBytes)
    (hb : bindsWindow i = false → x.base = s.w.base ∧ x.cap = s.w.cap) :
    WriterDone s { s with w := x.startPass } i where
  wf := hs.setUnit .w (startPass_wf hx) rfl
  frame := rfl
  latch := rfl
  window := hb
  pass := fun _ => ⟨rfl, rfl, rfl, rfl⟩
  below := fun _ _ _ => rfl
  outside := fun _ _ => rfl

/-- A new pass of the reader. -/
theorem ReaderDone.pass_of {s : State} {i : Instr} (hs : s.Wf) {x : BitUnit}
    (hx : x.base.toNat + x.cap.toNat ≤ s.params.memBytes)
    (hb : bindsWindow i = false → x.base = s.r.base ∧ x.cap = s.r.cap) :
    ReaderDone s { s with r := x.startPass } i where
  wf := hs.setUnit .r (startPass_wf hx) rfl
  frame := rfl
  latch := rfl
  window := hb
  pass := fun _ => ⟨rfl, rfl, rfl, rfl⟩
  inStep := fun _ => inStep_of_empty rfl

/-- The binding of a window as a whole command. -/
theorem bindWindow_ends {s : State} (hs : s.Wf) {i : Instr} {u : UnitId} (hu : unitOf i = some u)
    (hb : bindsWindow i = true) (a b : Word64) (e0 : exec i s = finish s (bindWindow u a b s)) : Ends s i := by
  rcases bindWindow_cases u a b s with ⟨⟨ha, hb', hm⟩, e⟩ | ⟨-, e⟩
  · have hl : (low32 a).toNat + (low32 b).toNat ≤ s.params.memBytes := by
      simp only [low32, BitVec.extractLsb'_toNat, Nat.shiftRight_zero]
      omega
    refine .completed _ none ?_ (by rw [e0, e]; rfl)
    rw [Done, hu]
    cases u
    · exact WriterDone.pass_of hs (x := { s.w with base := low32 a, cap := low32 b }) hl
        fun h => by rw [hb] at h; cases h
    · exact ReaderDone.pass_of hs (x := { s.r with base := low32 a, cap := low32 b }) hl
        fun h => by rw [hb] at h; cases h
  · exact .unchanged .bind (by simp) (by rw [e0, e]; rfl)

theorem execLimSet_ends {s : State} (hs : s.Wf) (la : LimIdx) (a b : Word64) : Ends s (.limSet la a b) := by
  by_cases h : limitedOperand b < limitedOperand a
  · exact .unchanged .limit (by simp) (by show finish s _ = _; rw [if_pos h]; rfl)
  · refine .completed (s.setLimit la
      { ok := true
        min := low32 a
        max := low32 b
        bits := BitVec.ofNat 6 (bitCount (limitedOperand a) (limitedOperand b)) }) none ?_
      (by show finish s _ = _; rw [if_neg h]; rfl)
    refine ⟨⟨hs.params, hs.writer, hs.reader, fun j => ?_, hs.writerCause, hs.readerCause, hs.memory,
      hs.memoryFits⟩, rfl, fun _ => ⟨la, a, b, rfl, fun k hk => limit_setLimit_of_ne s _ hk⟩⟩
    have hv : (Limit.mk true (low32 a) (low32 b)
        (BitVec.ofNat 6 (bitCount (limitedOperand a) (limitedOperand b)))).Wf := by
      refine fun _ => ⟨Int.not_lt.mp h, ?_⟩
      exact Nat.mod_eq_of_lt (Nat.lt_of_le_of_lt (bitCount_le _ _) (by decide))
    have hj := Vector.getElem_set (xs := s.lim) (i := la.toNat) (hi := la.isLt) (hj := j.isLt)
      (x := Limit.mk true (low32 a) (low32 b) (BitVec.ofNat 6 (bitCount (limitedOperand a) (limitedOperand b))))
    show ((s.lim.set la.toNat _ la.isLt)[j.val]'j.isLt).Wf
    rw [hj]
    split
    · exact hv
    · exact hs.limits j

theorem execSetAt_ends {s : State} (hs : s.Wf) (hf : s.w.fault = false) (a b : Word64) :
    Ends s (.wSetAt a b) := by
  have e0 : exec (.wSetAt a b) s = finish s (setAt a.toNat (b.getLsbD 0) s) := onUnit_w_clear hf _
  obtain ⟨h1, h2, h3⟩ := setAt_cases hs hf a.toNat (b.getLsbD 0)
  rcases Nat.lt_or_ge a.toNat (8 * s.w.cap.toNat) with hp | hp
  · rcases Nat.lt_or_ge a.toNat s.bitsCount with hq | hq
    · obtain ⟨t, e, ht, hr, hpb⟩ := h3 hp hq
      have hframe := hpb.frame
      rw [hr] at hframe
      refine .completed t none ⟨ht, ?_, ?_, fun _ => ?_, fun h => (by cases h), fun h => absurd rfl (h a b), ?_⟩
        (by rw [e0, e]; rfl)
      · rw [hframe]
      · rw [hframe]; exact hf
      · rw [hframe]; exact ⟨rfl, rfl⟩
      · exact fun x hx => hpb.memory x (by omega)
    · exact .latched .w .backpatch true rfl rfl hf (.inl ⟨rfl, .inr (.inr (.inl rfl))⟩)
        (by rw [e0, h2 hp hq]; rfl)
  · exact .latched .w .capacity true rfl rfl hf canLatch_capacity (by rw [e0, h1 hp]; rfl)

theorem execGetArray_ends {s : State} (hs : s.Wf) (hf : s.w.fault = false) : Ends s .wGetArray := by
  have e0 : exec .wGetArray s = finishWith s
      (if s.w.valid ≠ 0 then .error (.latch .w .unflushed true) else .ok (zext64 s.w.base, s)) :=
    onUnit_w_clear hf _
  by_cases hv : s.w.valid = 0
  · exact .completed s (some (zext64 s.w.base)) (WriterDone.same hs hf rfl)
      (by rw [e0, if_neg (by simp [hv])]; rfl)
  · exact .latched .w .unflushed true rfl rfl hf (.inl ⟨rfl, .inr (.inl rfl)⟩) (by rw [e0, if_pos hv]; rfl)

theorem limGet_ends {s : State} (hs : s.Wf) {i : Instr} {la : LimIdx} {v : Word64} (hu : unitOf i = none)
    (e0 : exec i s = finishWith s ((needLimit la s).bind fun _ => .ok (v, s))) : Ends s i := by
  cases hok : (s.limit la).ok
  · exact .unchanged .limit (by simp) (by rw [e0, needLimit_unset hok]; rfl)
  · exact .completed s (some v) (by rw [Done, hu]; exact .same hs) (by rw [e0, needLimit_ok hok]; rfl)

/-- The commands of the writer. -/
theorem writer_ends {s : State} (hs : s.Wf) (i : Instr) (hu : unitOf i = some .w) : Ends s i := by
  cases hf : s.w.fault
  case true =>
    cases i <;> first
      | cases hu; done
      | exact ends_of_faulted (u := .w) rfl rfl hf _ rfl
      | skip
    case wBits n a =>
      by_cases hn : n.toNat ≤ 32
      · exact ends_of_faulted (u := .w) rfl rfl hf _ (withLegalCount_ok hn s _)
      · exact .unchanged .illegal (by simp) (by show execWBits n a s = _; rw [execWBits, withLegalCount, if_neg hn]; rfl)
    case wClear => exact .completed _ none (WriterDone.pass_of hs hs.writer.1 fun _ => ⟨rfl, rfl⟩) rfl
    case wSetArray a b => exact bindWindow_ends hs rfl rfl a b rfl
  case false =>
    have e : ∀ rule, onUnit .w s rule = rule := onUnit_w_clear hf
    cases i <;> first
      | cases hu; done
      | skip
    case wBits n a =>
      by_cases hn : n.toNat ≤ 32
      · exact ends_of_appends hf rfl rfl ((withLegalCount_ok hn s _).trans (e _)) (wPush_raises hs hf hn _)
      · exact .unchanged .illegal (by simp) (by show execWBits n a s = _; rw [execWBits, withLegalCount, if_neg hn]; rfl)
    case wBool a => exact ends_of_appends hf rfl rfl (e _) (wPush_raises hs hf (by decide) _)
    case wU8 a => exact ends_of_appends hf rfl rfl (e _) (writeWhole_raises hs hf _ _)
    case wU16 a => exact ends_of_appends hf rfl rfl (e _) (writeWhole_raises hs hf _ _)
    case wU32 a => exact ends_of_appends hf rfl rfl (e _) (writeWhole_raises hs hf _ _)
    case wU64 a => exact ends_of_appends hf rfl rfl (e _) (writeWhole_raises hs hf _ _)
    case wFlush => exact ends_of_appends hf rfl rfl (e _) (flushPending_raises hs hf)
    case wSetAt a b => exact execSetAt_ends hs hf a b
    case wBitsCount => exact .completed s _ (WriterDone.same hs hf rfl) (e _)
    case wBytesCount => exact .completed s _ (WriterDone.same hs hf rfl) (e _)
    case wGetArray => exact execGetArray_ends hs hf
    case wClear => exact .completed _ none (WriterDone.pass_of hs hs.writer.1 fun _ => ⟨rfl, rfl⟩) rfl
    case wSetArray a b => exact bindWindow_ends hs rfl rfl a b rfl
    case wLim la a =>
      exact ends_of_appends hf rfl rfl (e _)
        (needLimit_appends la fun hok => writeLimited_raises hs hf hok _ _)
    case wChgU8 a b => exact ends_of_appends hf rfl rfl (e _) (writeIfChanged_raises hs hf _ _ _)
    case wChgU16 a b => exact ends_of_appends hf rfl rfl (e _) (writeIfChanged_raises hs hf _ _ _)
    case wChgU32 a b => exact ends_of_appends hf rfl rfl (e _) (writeIfChanged_raises hs hf _ _ _)
    case wChgU64 a b => exact ends_of_appends hf rfl rfl (e _) (writeIfChanged_raises hs hf _ _ _)
    case wChgLim la a b =>
      exact ends_of_appends hf rfl rfl (e _)
        (needLimit_appends la fun hok => writeLimitedIfChanged_raises hs hf hok _ _)
    case wDiff la lb a b =>
      exact ends_of_appends hf rfl rfl (e _)
        (needLimit_appends la fun hla => needLimit_appends lb fun hlb => writeDiff_raises hs hf hla hlb _ _)

/-- The commands of the reader. -/
theorem reader_ends {s : State} (hs : s.Wf) (i : Instr) (hu : unitOf i = some .r) : Ends s i := by
  cases hf : s.r.fault
  case true =>
    cases i <;> first
      | cases hu; done
      | exact ends_of_faulted (u := .r) rfl rfl hf _ rfl
      | skip
    case rBits n =>
      by_cases hn : n.toNat ≤ 32
      · exact ends_of_faulted (u := .r) rfl rfl hf _ (withLegalCount_ok hn s _)
      · exact .unchanged .illegal (by simp) (by show execRBits n s = _; rw [execRBits, withLegalCount, if_neg hn]; rfl)
    case rClear => exact .completed _ none (ReaderDone.pass_of hs hs.reader.1 fun _ => ⟨rfl, rfl⟩) rfl
    case rSetArray a b => exact bindWindow_ends hs rfl rfl a b rfl
  case false =>
    have e : ∀ rule, onUnit .r s rule = rule := onUnit_r_clear hf
    cases i <;> first
      | cases hu; done
      | exact ends_of_consumes hf rfl rfl (e _) (readWhole_raises hs hf _ _)
      | exact ends_of_consumes hf rfl rfl (e _) (readIfChanged_raises hs hf _ _ _)
      | skip
    case rBits n =>
      by_cases hn : n.toNat ≤ 32
      · exact ends_of_consumes hf rfl rfl ((withLegalCount_ok hn s _).trans (e _)) (popResult_raises hs hf hn)
      · exact .unchanged .illegal (by simp) (by show execRBits n s = _; rw [execRBits, withLegalCount, if_neg hn]; rfl)
    case rBool => exact ends_of_consumes hf rfl rfl (e _) (popResult_raises hs hf (by decide))
    case rClear => exact .completed _ none (ReaderDone.pass_of hs hs.reader.1 fun _ => ⟨rfl, rfl⟩) rfl
    case rSetArray a b => exact bindWindow_ends hs rfl rfl a b rfl
    case rLim la =>
      exact ends_of_consumes hf rfl rfl (e _) (needLimit_consumes la fun hok => readLimited_raises hs hf hok)
    case rChgLim la b =>
      exact ends_of_consumes hf rfl rfl (e _)
        (needLimit_consumes la fun hok => readLimitedIfChanged_raises hs hf hok b)
    case rDiff la lb b =>
      exact ends_of_consumes hf rfl rfl (e _)
        (needLimit_consumes la fun hla => needLimit_consumes lb fun hlb => readDiff_raises hs hf hla hlb b)

/-- The global commands. -/
theorem global_ends {s : State} (hs : s.Wf) (i : Instr) (hu : unitOf i = none) : Ends s i := by
  cases i <;> first
    | cases hu; done
    | skip
  case limSet la a b => exact execLimSet_ends hs la a b
  case limGetMin la => exact limGet_ends hs rfl rfl
  case limGetMax la => exact limGet_ends hs rfl rfl
  case limGetBits la => exact limGet_ends hs rfl rfl
  case statRd reg => exact .completed s (some (statValue s reg)) (.same hs) rfl

/-- Everything `exec` can do in a well-formed state. -/
theorem exec_ends {s : State} (hs : s.Wf) (i : Instr) : Ends s i := by
  cases hu : unitOf i with
  | none => exact global_ends hs i hu
  | some u =>
    cases u
    · exact writer_ends hs i hu
    · exact reader_ends hs i hu

end Sys2Proof.Machine
end

