-- ==== Sys2Proof/Laws/PerInstr.lean ====
section
/-! SUPPORT. The per-instruction family `Encoding`: the fields and operands a well-formed command is encoded
with are read back as the command (30_encoding.md rules R81 to R83, R85). One lemma for each constructor. -/

namespace Sys2Proof.Laws.Encoding

/-- The encoded fields and operands of a well-formed command decode to it. -/
def Statement (i : Instr) : Prop :=
  i.wellFormed = true → decodeFields (encodeFields i) (encodeOperands i).1 (encodeOperands i).2 = some i

theorem limSet (la : LimIdx) (a b : Word64) : Statement (.limSet la a b) := fun _ => rfl

theorem limGetMin (la : LimIdx) : Statement (.limGetMin la) := fun _ => rfl

theorem limGetMax (la : LimIdx) : Statement (.limGetMax la) := fun _ => rfl

theorem limGetBits (la : LimIdx) : Statement (.limGetBits la) := fun _ => rfl

theorem statRd (reg : StatReg) : Statement (.statRd reg) := fun _ => by cases reg <;> rfl

theorem wBits (n : Count6) (a : Word64) : Statement (.wBits n a) := fun h => by
  have h : bitCountOk n = true := h
  show withFormat formatFN _ (withCount n _) = _
  rw [withCount, if_pos h]
  rfl

theorem wBool (a : Word64) : Statement (.wBool a) := fun _ => rfl

theorem wU8 (a : Word64) : Statement (.wU8 a) := fun _ => rfl

theorem wU16 (a : Word64) : Statement (.wU16 a) := fun _ => rfl

theorem wU32 (a : Word64) : Statement (.wU32 a) := fun _ => rfl

theorem wU64 (a : Word64) : Statement (.wU64 a) := fun _ => rfl

theorem wFlush : Statement .wFlush := fun _ => rfl

theorem wSetAt (a b : Word64) : Statement (.wSetAt a b) := fun _ => rfl

theorem wBitsCount : Statement .wBitsCount := fun _ => rfl

theorem wBytesCount : Statement .wBytesCount := fun _ => rfl

theorem wGetArray : Statement .wGetArray := fun _ => rfl

theorem wClear : Statement .wClear := fun _ => rfl

theorem wSetArray (a b : Word64) : Statement (.wSetArray a b) := fun _ => rfl

theorem wLim (la : LimIdx) (a : Word64) : Statement (.wLim la a) := fun _ => rfl

theorem wChgU8 (a b : Word64) : Statement (.wChgU8 a b) := fun _ => rfl

theorem wChgU16 (a b : Word64) : Statement (.wChgU16 a b) := fun _ => rfl

theorem wChgU32 (a b : Word64) : Statement (.wChgU32 a b) := fun _ => rfl

theorem wChgU64 (a b : Word64) : Statement (.wChgU64 a b) := fun _ => rfl

theorem wChgLim (la : LimIdx) (a b : Word64) : Statement (.wChgLim la a b) := fun _ => rfl

theorem wDiff (la lb : LimIdx) (a b : Word64) : Statement (.wDiff la lb a b) := fun _ => rfl

theorem rBits (n : Count6) : Statement (.rBits n) := fun h => by
  have h : bitCountOk n = true := h
  show withFormat formatFN _ (withCount n _) = _
  rw [withCount, if_pos h]
  rfl

theorem rBool : Statement .rBool := fun _ => rfl

theorem rU8 : Statement .rU8 := fun _ => rfl

theorem rU16 : Statement .rU16 := fun _ => rfl

theorem rI16 : Statement .rI16 := fun _ => rfl

theorem rU32 : Statement .rU32 := fun _ => rfl

theorem rI32 : Statement .rI32 := fun _ => rfl

theorem rU64 : Statement .rU64 := fun _ => rfl

theorem rI64 : Statement .rI64 := fun _ => rfl

theorem rClear : Statement .rClear := fun _ => rfl

theorem rSetArray (a b : Word64) : Statement (.rSetArray a b) := fun _ => rfl

theorem rLim (la : LimIdx) : Statement (.rLim la) := fun _ => rfl

theorem rChgU8 (b : Word64) : Statement (.rChgU8 b) := fun _ => rfl

theorem rChgU16 (b : Word64) : Statement (.rChgU16 b) := fun _ => rfl

theorem rChgI16 (b : Word64) : Statement (.rChgI16 b) := fun _ => rfl

theorem rChgU32 (b : Word64) : Statement (.rChgU32 b) := fun _ => rfl

theorem rChgI32 (b : Word64) : Statement (.rChgI32 b) := fun _ => rfl

theorem rChgU64 (b : Word64) : Statement (.rChgU64 b) := fun _ => rfl

theorem rChgI64 (b : Word64) : Statement (.rChgI64 b) := fun _ => rfl

theorem rChgLim (la : LimIdx) (b : Word64) : Statement (.rChgLim la b) := fun _ => rfl

theorem rDiff (la lb : LimIdx) (b : Word64) : Statement (.rDiff la lb b) := fun _ => rfl

end Sys2Proof.Laws.Encoding
end

