-- ==== Sys2Proof/Laws/Fields.lean ====
section
/-! SUPPORT. The fields of a command word and the word they make up are two forms of one thing (30_encoding.md
rule R81), and what a decoded word went through (rule R82). -/

namespace Sys2Proof

theorem fieldsOf_packFields (f : Fields) : fieldsOf (packFields f) = f := by
  obtain ⟨op, n, wd, la, lb, sx, zero⟩ := f
  simp only [fieldsOf, packFields, Fields.mk.injEq]
  refine ⟨?_, ?_, ?_, ?_, ?_, ?_, ?_⟩ <;>
  · refine BitVec.eq_of_getLsbD_eq fun i hi => ?_
    simp only [BitVec.getLsbD_extractLsb', BitVec.getLsbD_append, hi, decide_true, Bool.true_and]
    split_ifs <;> first | omega | (congr 1; omega)

theorem packFields_fieldsOf (w : Word32) : packFields (fieldsOf w) = w := by
  refine BitVec.eq_of_getLsbD_eq fun i hi => ?_
  simp only [fieldsOf, packFields, BitVec.getLsbD_extractLsb', BitVec.getLsbD_append]
  split_ifs <;>
  · rw [decide_eq_true (by omega), Bool.true_and]
    congr 1; omega

/-- A decoded word has zero in its reserved bits and was read by the opcode map. -/
theorem decode_eq_some {c : Command} {i : Instr} :
    decode c = some i ↔ (fieldsOf c.cmd).zero = 0 ∧ decodeFields (fieldsOf c.cmd) c.a c.b = some i := by
  simp only [decode]
  split
  · rename_i h; exact ⟨fun h' => ⟨h, h'⟩, fun h' => h'.2⟩
  · rename_i h; exact ⟨fun h' => (by cases h'), fun h' => absurd h'.1 h⟩

/-- A word is decoded by its fields, once they are known: the opcode map can then be read off for any operands. -/
theorem decode_of_fields {cmd : Word32} {f : Fields} (h : fieldsOf cmd = f) (hz : f.zero = 0) (a b : Word64) :
    decode { cmd := cmd, a := a, b := b } = decodeFields f a b := by
  subst h
  exact if_pos hz

/-- A format accepts a word exactly when the fields it does not use are zero. -/
theorem withFormat_eq_some {u : Uses} {f : Fields} {x : Option Instr} {i : Instr} :
    withFormat u f x = some i ↔ unusedZero u f = true ∧ x = some i := by
  unfold withFormat
  split
  · rename_i h; simp [h]
  · rename_i h; simp [h]

end Sys2Proof
end

