-- ==== Sys2Proof/Laws/Frames.lean ====
section
/-! SUPPORT. What the rules of the stream commands can change, in every state, well formed or not: a writer rule
the accumulator and count of the writer and `MEM`, a reader rule the accumulator and count of the reader
(70_reset_and_hazards.md rules R266, R268). -/

namespace Sys2Proof.Machine

/-! ## The form of a rule -/

/-- At most the writer's accumulator and count and the memory differ. -/
def WriterOnly (s t : State) : Prop :=
  t = { s with
    w := { s.w with pending := t.w.pending, valid := t.w.valid, count := t.w.count }
    mem := t.mem }

/-- At most the reader's accumulator and count differ. -/
def ReaderOnly (s t : State) : Prop :=
  t = { s with r := { s.r with pending := t.r.pending, valid := t.r.valid, count := t.r.count } }

/-- A writer rule begun in `s` changes only what is the writer's and latches only in the writer. -/
def WriterRule (s : State) : Except Abort State → Prop
  | .ok t => WriterOnly s t
  | .error (.latch u _ _) => u = .w
  | .error _ => True

/-- A reader rule begun in `s` changes only what is the reader's and latches only in the reader. -/
def ReaderRule (s : State) {α : Type} : Except Abort (α × State) → Prop
  | .ok p => ReaderOnly s p.2
  | .error (.latch u _ _) => u = .r
  | .error _ => True

theorem WriterOnly.refl (s : State) : WriterOnly s s := rfl

theorem ReaderOnly.refl (s : State) : ReaderOnly s s := rfl

theorem WriterOnly.trans {s t u : State} (h : WriterOnly s t) (h' : WriterOnly t u) : WriterOnly s u := by
  unfold WriterOnly at *
  rw [h'] ; rw [h]

theorem ReaderOnly.trans {s t u : State} (h : ReaderOnly s t) (h' : ReaderOnly t u) : ReaderOnly s u := by
  unfold ReaderOnly at *
  rw [h'] ; rw [h]

theorem WriterRule.after {s t : State} {x : Except Abort State} (h : WriterOnly s t) (hx : WriterRule t x) :
    WriterRule s x := by
  match x with
  | .ok _ => exact h.trans hx
  | .error (.latch _ _ _) => exact hx
  | .error (.plain _) => trivial
  | .error (.missing _) => trivial

theorem ReaderRule.after {s t : State} {α : Type} {x : Except Abort (α × State)} (h : ReaderOnly s t)
    (hx : ReaderRule t x) : ReaderRule s x := by
  match x with
  | .ok _ => exact h.trans hx
  | .error (.latch _ _ _) => exact hx
  | .error (.plain _) => trivial
  | .error (.missing _) => trivial

theorem WriterRule.bind {s : State} {x : Except Abort State} {f : State → Except Abort State}
    (hx : WriterRule s x) (hf : ∀ t, WriterRule t (f t)) : WriterRule s (x.bind f) := by
  match x with
  | .ok t => exact (hf t).after hx
  | .error (.latch _ _ _) => exact hx
  | .error (.plain _) => trivial
  | .error (.missing _) => trivial

theorem ReaderRule.bind {s : State} {α β : Type} {x : Except Abort (α × State)}
    {f : α × State → Except Abort (β × State)} (hx : ReaderRule s x)
    (hf : ∀ v t, ReaderRule t (f (v, t))) : ReaderRule s (x.bind f) := by
  match x with
  | .ok (v, t) => exact (hf v t).after hx
  | .error (.latch _ _ _) => exact hx
  | .error (.plain _) => trivial
  | .error (.missing _) => trivial

/-- A rule that first asks for a Limit. -/
theorem WriterRule.need {s : State} (i : LimIdx) {x : Except Abort State} (h : WriterRule s x) :
    WriterRule s ((needLimit i s).bind fun _ => x) := by
  cases hok : (s.limit i).ok
  · rw [needLimit_unset hok]; trivial
  · rw [needLimit_ok hok]; exact h

theorem ReaderRule.need {s : State} (i : LimIdx) {α : Type} {x : Except Abort (α × State)} (h : ReaderRule s x) :
    ReaderRule s ((needLimit i s).bind fun _ => x) := by
  cases hok : (s.limit i).ok
  · rw [needLimit_unset hok]; trivial
  · rw [needLimit_ok hok]; exact h

/-! ## The writer's rules -/

theorem bbWrite_rule (s : State) (n : Nat) (v : Word64) : WriterRule s (bbWrite .w n v s) := by
  unfold bbWrite
  dsimp only
  split
  · rfl
  · split
    · rfl
    · trivial

theorem wPush_rule (s : State) (n : Count6) (v : Word32) : WriterRule s (wPush n v s) := by
  unfold wPush
  dsimp only
  split
  · exact (bbWrite_rule s _ _).bind fun _ => rfl
  · rfl

theorem writeWhole_rule (s : State) (wd : Width) (v : Word64) : WriterRule s (writeWhole wd v s) := by
  unfold writeWhole
  dsimp only
  split
  · exact bbWrite_rule s _ _
  · split
    · exact wPush_rule s _ _
    · exact (wPush_rule s _ _).bind fun t => wPush_rule t _ _

theorem writeIfChanged_rule (s : State) (wd : Width) (a b : Word64) : WriterRule s (writeIfChanged wd a b s) := by
  unfold writeIfChanged
  refine (wPush_rule s _ _).bind fun t => ?_
  split
  · exact writeWhole_rule t _ _
  · rfl

theorem flushLoop_rule (fuel : Nat) : ∀ s : State, WriterRule s (flushLoop fuel s) := by
  induction fuel with
  | zero => exact fun _ => rfl
  | succ fuel ih =>
    intro s
    unfold flushLoop
    split
    · rfl
    · refine (bbWrite_rule s _ _).bind fun t => WriterRule.after ?_ (ih _)
      rfl

theorem flushPending_rule (s : State) : WriterRule s (flushPending s) :=
  (flushLoop_rule 8 s).bind fun _ => rfl

theorem setAt_rule (s : State) (p : Nat) (b : Bool) : WriterRule s (setAt p b s) := by
  unfold setAt bbPatchBit
  dsimp only
  repeat' split
  all_goals first | rfl | trivial

theorem writeLimited_rule (s : State) (i : LimIdx) (v : Int) (precise : Bool) :
    WriterRule s (writeLimited i v precise s) := by
  unfold writeLimited
  dsimp only
  split
  · rfl
  · exact wPush_rule s _ _

theorem writeLimitedIfChanged_rule (s : State) (la : LimIdx) (u b : Int) :
    WriterRule s (writeLimitedIfChanged la u b s) := by
  unfold writeLimitedIfChanged
  refine (wPush_rule s _ _).bind fun t => ?_
  split
  · exact writeLimited_rule t _ _ _
  · rfl

theorem writeDiff_rule (s : State) (la lb : LimIdx) (u b : Int) : WriterRule s (writeDiff la lb u b s) := by
  unfold writeDiff
  split
  · refine (wPush_rule s _ _).bind fun t => ?_
    split
    · exact (wPush_rule t _ _).bind fun t' => writeLimited_rule t' _ _ _
    · exact (wPush_rule t _ _).bind fun t' => writeLimited_rule t' _ _ _
  · exact wPush_rule s _ _

/-! ## The reader's rules -/

theorem bbRead_rule (s : State) (n : Nat) : ReaderRule s (bbRead .r n s) := by
  unfold bbRead
  dsimp only
  split
  · rfl
  · split
    · rfl
    · trivial

theorem rPop_rule (s : State) (n : Count6) : ReaderRule s (rPop n s) := by
  unfold rPop rRefill
  split
  · have h := bbRead_rule s 4
    match hx : bbRead .r 4 s with
    | .ok (v, t) =>
      rw [hx] at h
      exact ReaderOnly.trans (t := t) h rfl
    | .error (.latch _ _ _) => rw [hx] at h; exact h
    | .error (.plain _) => trivial
    | .error (.missing _) => trivial
  · rfl

theorem popResult_rule (s : State) (n : Count6) : ReaderRule s (popResult (rPop n s)) := by
  have h := rPop_rule s n
  match hx : rPop n s with
  | .ok (v, t) => rw [hx] at h; exact h
  | .error (.latch _ _ _) => rw [hx] at h; exact h
  | .error (.plain _) => trivial
  | .error (.missing _) => trivial

theorem readPattern_rule (s : State) (wd : Width) : ReaderRule s (readPattern wd s) := by
  unfold readPattern
  split
  · exact bbRead_rule s _
  · split
    · exact (rPop_rule s _).bind fun _ _ => rfl
    · exact (rPop_rule s _).bind fun _ t => (rPop_rule t _).bind fun _ _ => rfl

theorem readWhole_rule (s : State) (wd : Width) (sx : Bool) : ReaderRule s (readWhole wd sx s) :=
  (readPattern_rule s wd).bind fun _ _ => rfl

theorem readIfChanged_rule (s : State) (wd : Width) (sx : Bool) (b : Word64) :
    ReaderRule s (readIfChanged wd sx b s) := by
  unfold readIfChanged
  refine (rPop_rule s _).bind fun c t => ?_
  dsimp only
  split
  · exact readWhole_rule t _ _
  · rfl

theorem readLimited_rule (s : State) (i : LimIdx) : ReaderRule s (readLimited i s) :=
  (rPop_rule s _).bind fun _ _ => rfl

theorem readLimitedIfChanged_rule (s : State) (la : LimIdx) (b : Word64) :
    ReaderRule s (readLimitedIfChanged la b s) := by
  unfold readLimitedIfChanged
  refine (rPop_rule s _).bind fun c t => ?_
  dsimp only
  split
  · exact (readLimited_rule t _).bind fun _ _ => rfl
  · rfl

theorem readDiff_rule (s : State) (la lb : LimIdx) (b : Word64) : ReaderRule s (readDiff la lb b s) := by
  unfold readDiff
  refine (rPop_rule s _).bind fun c t => ?_
  dsimp only
  split
  · rfl
  · refine (rPop_rule t _).bind fun c t' => ?_
    dsimp only
    split
    · exact (readLimited_rule t' _).bind fun _ _ => rfl
    · exact (readLimited_rule t' _).bind fun _ _ => rfl

/-! ## How such a rule ends a command -/

/-- What a writer rule leaves after it has been answered. -/
structure WriterEnd (s t : State) : Prop where
  params : t.params = s.params
  lim : t.lim = s.lim
  reader : t.r = s.r
  epoch : t.memEpoch = s.memEpoch
  inbox : t.inbox = s.inbox
  answer : ∃ x, t.responses = s.responses ++ [x]
  window : t.w.base = s.w.base ∧ t.w.cap = s.w.cap

/-- What a reader rule leaves after it has been answered. -/
structure ReaderEnd (s t : State) : Prop where
  params : t.params = s.params
  lim : t.lim = s.lim
  writer : t.w = s.w
  mem : t.mem = s.mem
  epoch : t.memEpoch = s.memEpoch
  inbox : t.inbox = s.inbox
  answer : ∃ x, t.responses = s.responses ++ [x]
  window : t.r.base = s.r.base ∧ t.r.cap = s.r.cap

theorem WriterRule.ends {s t : State} {x : Except Abort State} (h : WriterRule s x)
    (e : finish s x = .next t) : WriterEnd s t := by
  match x with
  | .ok v =>
    cases e
    unfold WriterRule WriterOnly at h
    rw [h]
    exact ⟨rfl, rfl, rfl, rfl, rfl, ⟨_, rfl⟩, rfl, rfl⟩
  | .error (.latch u c p) =>
    cases h
    cases e
    cases p <;> exact ⟨rfl, rfl, rfl, rfl, rfl, ⟨_, rfl⟩, rfl, rfl⟩
  | .error (.plain _) => cases e; exact ⟨rfl, rfl, rfl, rfl, rfl, ⟨_, rfl⟩, rfl, rfl⟩
  | .error (.missing _) => cases e

theorem ReaderRule.ends {s t : State} {x : Except Abort (Word64 × State)} (h : ReaderRule s x)
    (e : finishWith s x = .next t) : ReaderEnd s t := by
  match x with
  | .ok (v, v') =>
    cases e
    unfold ReaderRule ReaderOnly at h
    dsimp only at h
    rw [h]
    exact ⟨rfl, rfl, rfl, rfl, rfl, rfl, ⟨_, rfl⟩, rfl, rfl⟩
  | .error (.latch u c p) =>
    cases h
    cases e
    cases p <;> exact ⟨rfl, rfl, rfl, rfl, rfl, rfl, ⟨_, rfl⟩, rfl, rfl⟩
  | .error (.plain _) => cases e; exact ⟨rfl, rfl, rfl, rfl, rfl, rfl, ⟨_, rfl⟩, rfl, rfl⟩
  | .error (.missing _) => cases e

end Sys2Proof.Machine
end

