-- ==== Sys2Proof/Tests/Slice0.lean ====
section
/-! SUPPORT. The model's own tests: the check of well-formedness, the decoding of every command from words written
out from 30_encoding.md, single commands on the values the spec's examples give (the rules' examples and
95_test_vectors.md), and for every statement with hypotheses a state and operands that meet them. -/

namespace Sys2Proof.Tests

open Sys2Proof Sys2Proof.Machine

/-! ## Well-formedness -/

/-- A bit count above 32 is the one ill-formed term (rule R86, a bit count above 32); 32 and 0 are well formed. -/
theorem test_ill_formed_counts :
    (Instr.wBits 33 0).wellFormed = false ∧ (Instr.rBits 33).wellFormed = false ∧
      (Instr.wBits 63 0).wellFormed = false ∧ (Instr.wBits 32 0).wellFormed = true ∧
      (Instr.rBits 32).wellFormed = true ∧ (Instr.rBits 0).wellFormed = true := by decide

/-! ## Decoding: every word below is written out from rule R81 (`op` in bits 7..0, `n` in 13..8, `wd` in 15..14,
`la` in 19..16, `lb` in 23..20, `sx` in 24) and the opcode map of rule R83 -/

/-- The word decodes to the command, with `A = 0x1122334455667788` and `B = 0x99AABBCCDDEEFF00`. -/
def decodes (cmd : Word32) (i : Word64 → Word64 → Instr) : Bool :=
  let a : Word64 := 0x1122334455667788
  let b : Word64 := 0x99AABBCCDDEEFF00
  decode { cmd := cmd, a := a, b := b } == some (i a b)

/-- op 0x01, 0x02, 0x03; `la` 5 and 15; register numbers 1 and 20. -/
theorem test_decode_global :
    decodes 0x00050001 (fun a b => .limSet 5 a b) ∧ decodes 0x000F0002 (fun _ _ => .limGetMin 15) ∧
      decodes 0x00050102 (fun _ _ => .limGetMax 5) ∧ decodes 0x00050202 (fun _ _ => .limGetBits 5) ∧
      decodes 0x00000103 (fun _ _ => .statRd .memsz) ∧ decodes 0x00001403 (fun _ _ => .statRd .rFault) := by
  decide

/-- op 0x10 to 0x19; bit counts 32 and 11; width codes 0 to 3. -/
theorem test_decode_writer :
    decodes 0x00002010 (fun a _ => .wBits 32 a) ∧ decodes 0x00000B10 (fun a _ => .wBits 11 a) ∧
      decodes 0x00000011 (fun a _ => .wBool a) ∧ decodes 0x00000012 (fun a _ => .wU8 a) ∧
      decodes 0x00004012 (fun a _ => .wU16 a) ∧ decodes 0x00008012 (fun a _ => .wU32 a) ∧
      decodes 0x0000C012 (fun a _ => .wU64 a) ∧ decodes 0x00000013 (fun _ _ => .wFlush) ∧
      decodes 0x00000014 (fun a b => .wSetAt a b) ∧ decodes 0x00000015 (fun _ _ => .wBitsCount) ∧
      decodes 0x00000016 (fun _ _ => .wBytesCount) ∧ decodes 0x00000017 (fun _ _ => .wGetArray) ∧
      decodes 0x00000018 (fun _ _ => .wClear) ∧ decodes 0x00000019 (fun a b => .wSetArray a b) := by
  decide

/-- op 0x1A to 0x1D; `la` 3, `lb` 12. -/
theorem test_decode_writer_policies :
    decodes 0x0003001A (fun a _ => .wLim 3 a) ∧ decodes 0x0000001B (fun a b => .wChgU8 a b) ∧
      decodes 0x0000401B (fun a b => .wChgU16 a b) ∧ decodes 0x0000801B (fun a b => .wChgU32 a b) ∧
      decodes 0x0000C01B (fun a b => .wChgU64 a b) ∧ decodes 0x0003001C (fun a b => .wChgLim 3 a b) ∧
      decodes 0x00C3001D (fun a b => .wDiff 3 12 a b) ∧ decodes 0x00FF001D (fun a b => .wDiff 15 15 a b) := by
  decide

/-- op 0x20 to 0x29; `sx` is bit 24. -/
theorem test_decode_reader :
    decodes 0x00002020 (fun _ _ => .rBits 32) ∧ decodes 0x00000021 (fun _ _ => .rBool) ∧
      decodes 0x00000022 (fun _ _ => .rU8) ∧ decodes 0x00004022 (fun _ _ => .rU16) ∧
      decodes 0x01004022 (fun _ _ => .rI16) ∧ decodes 0x00008022 (fun _ _ => .rU32) ∧
      decodes 0x01008022 (fun _ _ => .rI32) ∧ decodes 0x0000C022 (fun _ _ => .rU64) ∧
      decodes 0x0100C022 (fun _ _ => .rI64) ∧ decodes 0x00000028 (fun _ _ => .rClear) ∧
      decodes 0x00000029 (fun a b => .rSetArray a b) := by decide

/-- op 0x2A to 0x2D. -/
theorem test_decode_reader_policies :
    decodes 0x0003002A (fun _ _ => .rLim 3) ∧ decodes 0x0000002B (fun _ b => .rChgU8 b) ∧
      decodes 0x0000402B (fun _ b => .rChgU16 b) ∧ decodes 0x0100402B (fun _ b => .rChgI16 b) ∧
      decodes 0x0000802B (fun _ b => .rChgU32 b) ∧ decodes 0x0100802B (fun _ b => .rChgI32 b) ∧
      decodes 0x0000C02B (fun _ b => .rChgU64 b) ∧ decodes 0x0100C02B (fun _ b => .rChgI64 b) ∧
      decodes 0x0003002C (fun _ b => .rChgLim 3 b) ∧ decodes 0x00C3002D (fun _ b => .rDiff 3 12 b) := by decide

/-- The illegal words of 95_test_vectors.md section 2.7, each for the clause of rule R86 that it gives. -/
theorem test_illegal_words :
    [0x00000000, 0x00000004, 0x0000000F, 0x0000001E, 0x00000023, 0x00000027, 0x0000002E, 0x00000030, 0x000000FF,
      0x00002110, 0x00003F10, 0x00002120, 0x00000111, 0x00000113, 0x00004013, 0x00004010, 0x00010010, 0x0000C112,
      0x01000012, 0x01000029, 0x01000022, 0x0100002B, 0x02000010, 0x80000010, 0x00000203, 0x00000D03, 0x00001503,
      0x00000302, 0x00004002, 0x00100001, 0x0010001A, 0x00F0001C].all
      (fun cmd : Word32 => decode { cmd := cmd, a := 0, b := 0 } == none) = true := by decide

/-- The port's numbering (notes/assumptions/6.md): the words of `W.BITS 11` with its operand in bits 95..32, and a
table row of 32 bits, whose operands are zero. -/
theorem test_table_words :
    decodeTableWord 160 0x5A300000B10 = some (.wBits 11 0x5A3) ∧
      decodeTableWord 32 0x5A300000B10 = some (.wBits 11 0) ∧
      decodeTableWord 160 0x5_00000000_00000008_0010001D = some (.wDiff 0 1 8 5) := by decide

/-! ## States for the tests -/

/-- A unit with its window at 8. -/
def unitAt (cap count valid pending : Nat) : BitUnit where
  pending := BitVec.ofNat 64 pending
  valid := BitVec.ofNat 6 valid
  base := 8
  cap := BitVec.ofNat 32 cap
  count := BitVec.ofNat 32 count
  fault := false
  cause := 0

/-- Bytes stored one after the other from an address on. -/
def cells : Nat → List Nat → Memory
  | _, [] => []
  | a, b :: l => (a, BitVec.ofNat 8 b) :: cells (a + 1) l

/-- `L[0] = [-100, 100]`, `L[1] = [-10, 10]`, `L[2] = [5, 5]`, the rest never set. -/
def limits : Vector Limit 16 :=
  (((Vector.replicate 16 Limit.reset).set 0 ⟨true, 0xFFFFFF9C, 100, 8⟩).set 1 ⟨true, 0xFFFFFFF6, 10, 5⟩).set 2
    ⟨true, 5, 5, 0⟩

/-- 64 bytes of memory, the given units, those limits. -/
def sit (w r : BitUnit) (mem : Memory) (rangeCheck : Bool := true) : State where
  params := { rangeCheck := rangeCheck, memBytes := 64 }
  w := w
  r := r
  lim := limits
  mem := mem
  memEpoch := 0
  draws := 0
  inbox := []
  responses := []

/-- A writer with a window of 24 bytes; nothing written to memory. -/
def writer (count valid pending : Nat) (rangeCheck : Bool := true) : State :=
  sit (unitAt 24 count valid pending) (unitAt 0 0 0 0) [] rangeCheck

/-- A reader with a window of 24 bytes, and the bytes it reads next. -/
def reader (count valid pending : Nat) (next : List Nat) : State :=
  sit (unitAt 0 0 0 0) (unitAt 24 count valid pending) (cells (8 + count) next)

/-- The last answer: `none` for no step or no answer, else `ok`, the cause and the result. -/
def answer : Host.Outcome State Fault Refusal → Option (Bool × Nat × Option Nat)
  | .next t => t.responses.getLast?.map fun x => (x.ok, x.cause.toNat, x.res.map BitVec.toNat)
  | _ => none

/-- What a writer command left: count, valid, pending, and the memory. -/
structure Left where
  count : Nat
  valid : Nat
  pending : Nat
  mem : Memory
  deriving DecidableEq, Repr

/-- What a writer command left. -/
def left (i : Instr) (s : State) : Option Left :=
  match exec i s with
  | .next t => some ⟨t.w.count.toNat, t.w.valid.toNat, t.w.pending.toNat, t.mem⟩
  | _ => none

/-- What a reader command left and answered: count, valid, pending, `RES`. -/
def got (i : Instr) (s : State) : Option (Nat × Nat × Nat × Option Nat) :=
  match exec i s with
  | .next t => some (t.r.count.toNat, t.r.valid.toNat, t.r.pending.toNat,
      t.responses.getLast?.bind fun x => x.res.map BitVec.toNat)
  | _ => none

/-- The latch of a unit after a command: `fault` and `cause`. -/
def latch (u : UnitId) (i : Instr) (s : State) : Option (Bool × Nat) :=
  match exec i s with
  | .next t => some ((t.unit u).fault, (t.unit u).cause.toNat)
  | _ => none

/-! ## Global commands -/

/-- Rule R181's examples, and a reversed range. -/
theorem test_limSet :
    (match exec (.limSet 7 0xFFFFFFFFFFFFFF9C 100) (writer 0 0 0) with
      | .next t => t.limit 7 == ⟨true, 0xFFFFFF9C, 100, 8⟩
      | _ => false) = true ∧
      answer (exec (.limSet 7 6 5) (writer 0 0 0)) = some (false, 6, none) := by decide

/-- Rules R182 to R184: their examples, and `Limit` on a register never set. -/
theorem test_limGet :
    answer (exec (.limGetMin 0) (writer 0 0 0)) = some (true, 0, some 0xFFFFFFFFFFFFFF9C) ∧
      answer (exec (.limGetMax 0) (writer 0 0 0)) = some (true, 0, some 100) ∧
      answer (exec (.limGetBits 0) (writer 0 0 0)) = some (true, 0, some 8) ∧
      answer (exec (.limGetBits 1) (writer 0 0 0)) = some (true, 0, some 5) ∧
      answer (exec (.limGetMin 3) (writer 0 0 0)) = some (false, 6, none) := by decide

/-- Rule R119's example: a window at 8 with 3 bits pending. -/
theorem test_statRd :
    answer (exec (.statRd .wValid) (writer 0 3 5)) = some (true, 0, some 3) ∧
      answer (exec (.statRd .wCount) (writer 0 3 5)) = some (true, 0, some 0) ∧
      answer (exec (.statRd .wBase) (writer 0 3 5)) = some (true, 0, some 8) ∧
      answer (exec (.statRd .memsz) (writer 0 3 5)) = some (true, 0, some 0x40) ∧
      answer (exec (.statRd .cfg) (writer 0 3 5)) = some (true, 0, some 1) := by decide

/-- The fault word of the vectors of the range check: `Range` latched reads 0x41. -/
theorem test_statRd_fault :
    answer (exec (.statRd .wFault) (sit { unitAt 24 0 3 5 with fault := true, cause := 4 } (unitAt 0 0 0 0) []))
      = some (true, 0, some 0x41) := by decide

/-! ## Writer commands -/

/-- Rule R130's example. -/
theorem test_wBits : left (.wBits 11 0x5A3) (writer 0 3 0x5) = some ⟨0, 14, 0x2D1D, []⟩ := by decide

/-- Rule R112's example: a word is completed. -/
theorem test_wBits_straddle :
    left (.wBits 20 0xFFFFF) (writer 0 14 0x2D1D) = some ⟨4, 2, 0x3, cells 8 [0x1D, 0xED, 0xFF, 0xFF]⟩ := by decide

/-- Rule R131's example, and that only bit 0 counts. -/
theorem test_wBool :
    left (.wBool 1) (writer 0 0 0) = some ⟨0, 1, 1, []⟩ ∧ left (.wBool 0xFE) (writer 0 0 0) = some ⟨0, 1, 0, []⟩ := by
  decide

/-- Rule R133's examples. -/
theorem test_wU8 :
    left (.wU8 0xF0) (writer 0 0 0) = some ⟨1, 0, 0, cells 8 [0xF0]⟩ ∧
      left (.wU8 0xF0) (writer 0 1 1) = some ⟨0, 9, 0x1E1, []⟩ := by decide

/-- Rule R134's examples. -/
theorem test_wU16 :
    left (.wU16 0xF00F) (writer 1 0 0) = some ⟨3, 0, 0, cells 9 [0x0F, 0xF0]⟩ ∧
      left (.wU16 0xF00F) (writer 0 9 0x1E1) = some ⟨0, 25, 0x1E01FE1, []⟩ := by decide

/-- Rule R135's examples. -/
theorem test_wU32 :
    left (.wU32 0x89ABCDEF) (writer 3 0 0) = some ⟨7, 0, 0, cells 11 [0xEF, 0xCD, 0xAB, 0x89]⟩ ∧
      left (.wU32 0x89ABCDEF) (writer 0 25 0x1E01FE1) =
        some ⟨4, 25, 0x113579B, cells 8 [0xE1, 0x1F, 0xE0, 0xDF]⟩ := by decide

/-- Rule R136's examples. -/
theorem test_wU64 :
    left (.wU64 0x0123456789ABCDEF) (writer 7 0 0) =
        some ⟨15, 0, 0, cells 15 [0xEF, 0xCD, 0xAB, 0x89, 0x67, 0x45, 0x23, 0x01]⟩ ∧
      left (.wU64 0x0123456789ABCDEF) (writer 0 4 0xA) =
        some ⟨8, 4, 0, cells 8 [0xFA, 0xDE, 0xBC, 0x9A, 0x78, 0x56, 0x34, 0x12]⟩ := by decide

/-- Rule R137's examples. -/
theorem test_wFlush :
    left .wFlush (writer 0 13 0x1ABC) = some ⟨2, 0, 0, cells 8 [0xBC, 0x1A]⟩ ∧
      left .wFlush (writer 0 31 0x7FFFFFFF) = some ⟨4, 0, 0, cells 8 [0xFF, 0xFF, 0xFF, 0x7F]⟩ := by decide

/-- The writer of rule R140's examples. -/
def patched : State :=
  sit (unitAt 12 8 8 0xFE) (unitAt 0 0 0 0) (cells 8 [0x1D, 0xED, 0xFF, 0xFF, 0xF3, 0xD5, 0xF5, 0x57])

/-- Rule R140's examples: a stored bit, then a pending one. -/
theorem test_wSetAt :
    left (.wSetAt 1 1) patched = some ⟨8, 8, 0xFE, cells 8 [0x1F, 0xED, 0xFF, 0xFF, 0xF3, 0xD5, 0xF5, 0x57]⟩ ∧
      left (.wSetAt 66 0) patched =
        some ⟨8, 8, 0xFA, cells 8 [0x1D, 0xED, 0xFF, 0xFF, 0xF3, 0xD5, 0xF5, 0x57]⟩ := by decide

/-- Rule R140's examples: past the stream, and past the window; both precise. -/
theorem test_wSetAt_faults :
    latch .w (.wSetAt 72 1) patched = some (true, 3) ∧ latch .w (.wSetAt 96 1) patched = some (true, 1) ∧
      left (.wSetAt 96 1) patched = left .wGetArray patched := by decide

/-- Rules R141, R142's examples. -/
theorem test_counters :
    answer (exec .wBitsCount (writer 4 2 0)) = some (true, 0, some 34) ∧
      answer (exec .wBytesCount (writer 4 2 0)) = some (true, 0, some 5) := by decide

/-- Rule R143's example. -/
theorem test_wGetArray :
    answer (exec .wGetArray (writer 4 3 0)) = some (false, 2, none) ∧
      answer (exec .wGetArray (writer 5 0 0)) = some (true, 0, some 8) := by decide

/-- Rule R144's example. -/
theorem test_wClear : left .wClear (writer 9 5 0x1F) = some ⟨0, 0, 0, []⟩ := by decide

/-- Rule R145's example, and a window one byte too long. -/
theorem test_wSetArray :
    (match exec (.wSetArray 8 12) (writer 9 5 0x1F) with
      | .next t => t.w == unitAt 12 0 0 0
      | _ => false) = true ∧
      answer (exec (.wSetArray 60 5) (writer 9 5 0x1F)) = some (false, 7, none) := by decide

/-- Rule R186's example, and the first value past the Limit. -/
theorem test_wLim :
    left (.wLim 0 50) (writer 0 2 1) = some ⟨0, 10, 0x259, []⟩ ∧
      answer (exec (.wLim 0 101) (writer 0 2 1)) = some (false, 4, none) := by decide

/-- Rule R189's examples: no range check. -/
theorem test_wLim_unchecked :
    left (.wLim 0 200) (writer 0 0 0 false) = some ⟨0, 8, 0x2C, []⟩ ∧
      left (.wLim 0 0xFFFFFFFFFFFFFF9B) (writer 0 0 0 false) = some ⟨0, 8, 0xFF, []⟩ := by decide

/-- Rule R196's examples. -/
theorem test_wChgU8 :
    left (.wChgU8 0x07 0x07) (writer 0 0 0) = some ⟨0, 1, 0, []⟩ ∧
      left (.wChgU8 0xC3 0x07) (writer 0 0 0) = some ⟨0, 9, 0x187, []⟩ := by decide

/-- Rule R213's example: the flag completes the word, the value takes the fast path. -/
theorem test_wChgU8_fast :
    left (.wChgU8 0xC3 0) (writer 0 31 0x7FFFFFFF) =
      some ⟨5, 0, 0, cells 8 [0xFF, 0xFF, 0xFF, 0xFF, 0xC3]⟩ := by decide

/-- Rule R197's example. -/
theorem test_wChgU16 : left (.wChgU16 0x1235 0x1234) (writer 0 0 0) = some ⟨0, 17, 0x246B, []⟩ := by decide

/-- Rule R198's examples. -/
theorem test_wChgU32 :
    left (.wChgU32 0x89ABCDEF 0) (writer 0 0 0) = some ⟨4, 1, 1, cells 8 [0xDF, 0x9B, 0x57, 0x13]⟩ ∧
      left (.wChgU32 7 7) (writer 0 0 0) = some ⟨0, 1, 0, []⟩ := by decide

/-- Rule R199's example. -/
theorem test_wChgU64 :
    left (.wChgU64 0x8000000000000001 0) (writer 0 0 0) = some ⟨8, 1, 1, cells 8 [3, 0, 0, 0, 0, 0, 0, 0]⟩ := by
  decide

/-- Rule R208's example, and a value past the Limit behind its flag. -/
theorem test_wChgLim :
    left (.wChgLim 0 50 5) (writer 0 0 0) = some ⟨0, 9, 0x12D, []⟩ ∧
      answer (exec (.wChgLim 0 101 5) (writer 0 0 0)) = some (false, 4, none) := by decide

/-- Rule R210's example, and the unchanged case. -/
theorem test_wDiff :
    left (.wDiff 0 1 8 5) (writer 0 0 0) = some ⟨0, 7, 0x37, []⟩ ∧
      left (.wDiff 0 1 5 5) (writer 0 0 0) = some ⟨0, 1, 0, []⟩ := by decide

/-- Rule R212: a difference of 10 is not eligible under `[-10, 10]`; 15 goes in full, `1 | 115 << 2`. -/
theorem test_wDiff_boundary : left (.wDiff 0 1 15 5) (writer 0 0 0) = some ⟨0, 10, 0x1CD, []⟩ := by decide

/-! ## Reader commands -/

/-- Rule R160's first example. -/
theorem test_rBits :
    got (.rBits 3) (reader 0 0 0 [0x1F, 0xED, 0xFF, 0xFF]) = some (4, 29, 0x1FFFFDA3, some 7) := by decide

/-- Rule R160's third example: a refill above waiting bits. -/
theorem test_rBits_refill :
    got (.rBits 20) (reader 4 18 0x3FFFF [0xF3, 0xD5, 0xF5, 0x57]) = some (8, 30, 0x15FD757C, some 0xFFFFF) := by
  decide

/-- The first read of the vectors of one bit and whole types: window `E1 1F E0 DF`. -/
theorem test_rBool :
    got .rBool (reader 0 0 0 [0xE1, 0x1F, 0xE0, 0xDF]) = some (4, 31, 0x6FF00FF0, some 1) := by decide

/-- Rule R163's examples. -/
theorem test_rU8 :
    got .rU8 (reader 0 0 0 [0xF0]) = some (1, 0, 0, some 0xF0) ∧
      got .rU8 (reader 4 31 0x6FF00FF0 []) = some (4, 23, 0x6FF00F, some 0xF0) := by decide

/-- Rule R164's example, and the bit path of the vectors. -/
theorem test_rU16 :
    got .rU16 (reader 1 0 0 [0x0F, 0xF0]) = some (3, 0, 0, some 0xF00F) ∧
      got .rU16 (reader 4 23 0x6FF00F []) = some (4, 7, 0x6F, some 0xF00F) := by decide

/-- Rule R165's example. -/
theorem test_rI16 : got .rI16 (reader 0 0 0 [0x0F, 0xF0]) = some (2, 0, 0, some 0xFFFFFFFFFFFFF00F) := by decide

/-- Rule R166's example. -/
theorem test_rU32 :
    got .rU32 (reader 4 7 0x6F [0x9B, 0x57, 0x13, 0x01]) = some (8, 7, 0, some 0x89ABCDEF) := by decide

/-- Rule R167's example. -/
theorem test_rI32 :
    got .rI32 (reader 0 0 0 [0xEF, 0xCD, 0xAB, 0x89]) = some (4, 0, 0, some 0xFFFFFFFF89ABCDEF) := by decide

/-- Rule R168's examples. -/
theorem test_rU64 :
    got .rU64 (reader 0 0 0 [0xEF, 0xCD, 0xAB, 0x89, 0x67, 0x45, 0x23, 0x01]) =
        some (8, 0, 0, some 0x0123456789ABCDEF) ∧
      got .rU64 (reader 4 28 0x9ABCDEF [0x78, 0x56, 0x34, 0x12, 0x00, 0xAA, 0xAA, 0xAA]) =
        some (12, 28, 0xAAAAAA0, some 0x0123456789ABCDEF) := by decide

/-- Rule R169: 64 bits, the top one set; there is nothing to extend. -/
theorem test_rI64 :
    got .rI64 (reader 0 0 0 [1, 0, 0, 0, 0, 0, 0, 0x80]) = some (8, 0, 0, some 0x8000000000000001) := by decide

/-- Rule R170's example. -/
theorem test_rClear : got .rClear (reader 8 30 0x15FD757C []) = some (0, 0, 0, none) := by decide

/-- Rule R171's example; the window that ends with `MEM` fits, one byte more does not. -/
theorem test_rSetArray :
    (match exec (.rSetArray 8 12) (reader 8 30 0x15FD757C []) with
      | .next t => t.r == unitAt 12 0 0 0
      | _ => false) = true ∧
      answer (exec (.rSetArray 60 4) (reader 0 0 0 [])) = some (true, 0, none) ∧
      answer (exec (.rSetArray 60 5) (reader 0 0 0 [])) = some (false, 7, none) := by decide

/-- Rule R188's examples. -/
theorem test_rLim :
    got (.rLim 0) (reader 4 30 0x96 []) = some (4, 22, 0, some 50) ∧
      got (.rLim 0) (reader 4 30 0xFF []) = some (4, 22, 0, some 155) := by decide

/-- Rule R201's examples. -/
theorem test_rChgU8 :
    got (.rChgU8 0x07) (reader 4 9 0x187 []) = some (4, 0, 0, some 0xC3) ∧
      got (.rChgU8 0x07) (reader 4 1 0 []) = some (4, 0, 0, some 0x07) := by decide

/-- Rule R202's example. -/
theorem test_rChgU16 :
    got (.rChgU16 0x1234) (reader 0 0 0 [0x6B, 0x24, 0x00, 0xAA]) = some (4, 15, 0x5500, some 0x1235) := by decide

/-- Rule R203's example: the baseline, extended. -/
theorem test_rChgI16 :
    got (.rChgI16 0xFFFE) (reader 4 1 0 []) = some (4, 0, 0, some 0xFFFFFFFFFFFFFFFE) := by decide

/-- Rules R204, R205's examples: one window, two extensions. -/
theorem test_rChg32 :
    got (.rChgU32 0) (reader 0 0 0 [0xDF, 0x9B, 0x57, 0x13, 1, 0, 0, 0]) = some (8, 31, 0, some 0x89ABCDEF) ∧
      got (.rChgI32 0) (reader 0 0 0 [0xDF, 0x9B, 0x57, 0x13, 1, 0, 0, 0]) =
        some (8, 31, 0, some 0xFFFFFFFF89ABCDEF) := by decide

/-- Rule R206's example, and the same bits read by `R.CHG.I64`. -/
theorem test_rChg64 :
    got (.rChgU64 0) (reader 0 0 0 [3, 0, 0, 0, 0, 0, 0, 0, 1, 0xAA, 0xAA, 0xAA]) =
        some (12, 31, 0x55555500, some 0x8000000000000001) ∧
      got (.rChgI64 0) (reader 0 0 0 [3, 0, 0, 0, 0, 0, 0, 0, 1, 0xAA, 0xAA, 0xAA]) =
        some (12, 31, 0x55555500, some 0x8000000000000001) := by decide

/-- Rule R209's example. -/
theorem test_rChgLim :
    got (.rChgLim 0 5) (reader 0 0 0 [0x2D, 0x01, 0xAA, 0xAA]) = some (4, 23, 0x555500, some 50) := by decide

/-- Rule R211's example, and the flag of an unchanged value. -/
theorem test_rDiff :
    got (.rDiff 0 1 5) (reader 0 0 0 [0x37, 0xAA, 0xAA, 0xAA]) = some (4, 25, 0x1555554, some 8) ∧
      got (.rDiff 0 1 5) (reader 4 1 0 []) = some (4, 0, 0, some 5) := by decide

/-- A reader whose window is used up faults, and then refuses (rules R54, R231). -/
theorem test_reader_capacity :
    latch .r .rBool (reader 24 0 0 []) = some (true, 1) ∧
      answer (exec .rBool (sit (unitAt 0 0 0 0) { unitAt 24 9 1 0 with fault := true, cause := 1 } [])) =
        some (false, 1, none) := by decide

/-! ## One step -/

/-- A step takes the command from the port and runs it (rule R118). -/
theorem test_step :
    (match step ((writer 0 3 0x5).withFetchWord 160 0x5A300000B10) with
      | .next t => t.w == unitAt 24 0 14 0x2D1D && t.inbox == [] && t.responses == [⟨true, 0, none⟩]
      | _ => false) = true := by decide

/-- A step answers an illegal command, also from reset (rule R228). -/
theorem test_step_illegal : answer (step (State.reset.withFetchWord 32 0)) = some (false, 5, none) := by decide

/-! ## Witnesses: for each statement with hypotheses, a state and operands that meet them, at the edges of its
clauses -/

/-- A unit of the tests at rest is well formed. -/
theorem unitAt_wf {count valid : Nat} (hc : count ≤ 12) (hv : valid ≤ 31) :
    (unitAt 12 count valid (2 ^ valid - 1)).Wf 64 := by
  have h1 : 2 ^ valid ≤ 2 ^ 31 := Nat.pow_le_pow_right (by decide) hv
  have h2 : 0 < 2 ^ valid := Nat.two_pow_pos valid
  refine ⟨show 8 + 12 ≤ 64 by decide, fun _ => ⟨?_, ?_, ?_, rfl⟩⟩
  · show valid % 64 ≤ 31
    omega
  · show (2 ^ valid - 1) % 2 ^ 64 < 2 ^ (valid % 64)
    rw [Nat.mod_eq_of_lt (show valid < 64 by omega)]
    omega
  · show count % 2 ^ 32 ≤ 12
    omega

/-- Both units on one window of 12 bytes at 8, whose bytes are known; all bits that wait are ones. -/
def ready (wCount wValid rCount rValid : Nat) : State :=
  sit (unitAt 12 wCount wValid (2 ^ wValid - 1)) (unitAt 12 rCount rValid (2 ^ rValid - 1))
    (cells 8 [0x1D, 0xED, 0xFF, 0xFF, 0xF3, 0xD5, 0xF5, 0x57, 0x01, 0x02, 0x03, 0x04])

theorem limits_wf : ∀ i : Fin 16, limits[i].Wf := by decide

theorem sit_wf {w r : BitUnit} {mem : Memory} {c : Bool} (hw : w.Wf 64) (hr : r.Wf 64)
    (cw : w.fault = true → 1 ≤ w.cause.toNat ∧ w.cause.toNat ≤ 4)
    (cr : r.fault = true → r.cause = causeCode .capacity) (hm : Memory.wf mem) (hf : ∀ x ∈ mem, x.1 < 64) :
    (sit w r mem c).Wf :=
  ⟨by show 1 ≤ 64 ∧ 64 ≤ 2 ^ 32; decide, hw, hr, limits_wf, cw, cr, hm, hf⟩

theorem ready_wf {wc wv rc rv : Nat} (h1 : wc ≤ 12) (h2 : wv ≤ 31) (h3 : rc ≤ 12) (h4 : rv ≤ 31) :
    (ready wc wv rc rv).Wf :=
  sit_wf (unitAt_wf h1 h2) (unitAt_wf h3 h4) (fun h => by cases h) (fun h => by cases h) (by decide) (by decide)

/-- The writer faulted (`Unflushed`) and the reader too, in a well-formed state. -/
def faulted : State :=
  sit { unitAt 12 4 3 7 with fault := true, cause := 2 } { unitAt 12 4 3 7 with fault := true, cause := 1 } []

theorem faulted_wf : faulted.Wf :=
  sit_wf (by decide) (by decide) (fun _ => by decide) (fun _ => by decide) (by decide) (by decide)

/-- DecodeEncodeAgree. -/
theorem witness_decodeEncodeAgree :
    (Instr.wBits 32 7).wellFormed = true ∧ (Instr.rBits 0).wellFormed = true ∧
      (Instr.wDiff 15 15 1 2).wellFormed = true := by decide

/-- DecodedWordIsItsEncoding and DecodingMatchesOneRow, with operands that are carried and ignored; the second clause
of the latter too. -/
theorem witness_decodedWord :
    decode ⟨0x00002010, 7, 9⟩ = some (.wBits 32 7) ∧ decode ⟨0x00000013, 7, 9⟩ = some .wFlush ∧
      (0x00002010 : Word32) &&& (tableRow (.wBits 0 0)).1 = (tableRow (.wBits 0 0)).2 := by decide

/-- UnusedOperandBitsAreIgnored: operands that differ only where each clause ignores them. -/
theorem witness_unusedOperandBits :
    (32 : Count6).toNat ≤ 32 ∧
      (0x1_00000001 : Word64).toNat % 2 ^ (32 : Count6).toNat = (1 : Word64).toNat % 2 ^ (32 : Count6).toNat ∧
      (0x1_00000001 : Word64).toNat % 2 = (1 : Word64).toNat % 2 ∧
      (0x1_00000001 : Word64).toNat % 2 ^ 8 = (1 : Word64).toNat % 2 ^ 8 ∧
      (0x1_00000001 : Word64).toNat % 2 ^ 16 = (1 : Word64).toNat % 2 ^ 16 ∧
      (0x1_00000001 : Word64) ≠ 1 := by decide

/-- StepRunsTheDecodedCommand. -/
theorem witness_stepRunsTheDecodedCommand :
    ((ready 4 3 4 3).present ⟨0x00000B10, 0x5A3, 0⟩).inbox = .command ⟨0x00000B10, 0x5A3, 0⟩ :: [] ∧
      decode ⟨0x00000B10, 0x5A3, 0⟩ = some (.wBits 11 0x5A3) ∧
      decodeTableWord 160 0x5A300000B10 = some (.wBits 11 0x5A3) := by decide

/-- StepAnswersAnIllegalCommand. -/
theorem witness_stepAnswersAnIllegalCommand :
    ((ready 4 3 4 3).present ⟨0x00002110, 0, 0⟩).inbox = .command ⟨0x00002110, 0, 0⟩ :: [] ∧
      decode ⟨0x00002110, 0, 0⟩ = none := by decide

/-- ResetEvent. -/
theorem witness_resetEvent : { ready 4 3 4 3 with inbox := [.reset] }.inbox = .reset :: [] := by decide

/-- HostWriteEvent: the last byte of `MEM`, and the first address past it. -/
theorem witness_hostWriteEvent :
    { ready 4 3 4 3 with inbox := [.store 63 5] }.inbox = .store 63 5 :: [] ∧
      (63 : Word32).toNat < (ready 4 3 4 3).params.memBytes ∧
      (ready 4 3 4 3).params.memBytes ≤ (64 : Word32).toNat := by decide

/-- ResetIsWellFormed: the smallest and the largest memory. -/
theorem witness_resetIsWellFormed : Params.wf ⟨false, 1⟩ ∧ Params.wf ⟨true, 2 ^ 32⟩ := by decide

/-- StepKeepsWellFormed and ParametersNeverChange. -/
theorem witness_stepKeepsWellFormed :
    ((ready 12 31 12 31).present ⟨0x00000110, 1, 0⟩).Wf ∧
      ∃ t, step ((ready 12 31 12 31).present ⟨0x00000110, 1, 0⟩) = .next t := by
  have h := ready_wf (wc := 12) (wv := 31) (rc := 12) (rv := 31) (by decide) (by decide) (by decide) (by decide)
  exact ⟨⟨h.params, h.writer, h.reader, h.limits, h.writerCause, h.readerCause, h.memory, h.memoryFits⟩, _, rfl⟩

/-- EveryCommandIsAnsweredOnce. -/
theorem witness_everyCommandIsAnsweredOnce : (ready 12 31 0 0).Wf :=
  ready_wf (by decide) (by decide) (by decide) (by decide)

/-- FaultedUnitRefuses, for each unit. -/
theorem witness_faultedUnitRefuses :
    (Instr.wBits 32 1).wellFormed = true ∧ unitOf (.wBits 32 1) = some .w ∧ startsPass (.wBits 32 1) = false ∧
      (faulted.unit .w).fault = true ∧ unitOf .rBool = some .r ∧ (faulted.unit .r).fault = true := by decide

/-- ReaderCommandsFrame, for a command that delivers and one that faults. -/
theorem witness_readerCommandsFrame :
    unitOf .rU64 = some .r ∧ (∃ t, exec .rU64 (ready 0 0 4 3) = .next t) ∧
      ∃ t, exec .rU64 (ready 0 0 5 3) = .next t := ⟨by decide, ⟨_, rfl⟩, _, rfl⟩

/-- WriterCommandsFrame, and its last clause with an address below the count. -/
theorem witness_writerCommandsFrame :
    (ready 4 3 4 3).Wf ∧ unitOf (.wU32 9) = some .w ∧ (∃ t, exec (.wU32 9) (ready 4 3 4 3) = .next t) ∧
      (∀ p b, Instr.wU32 9 ≠ .wSetAt p b) ∧ 11 < (ready 4 3 4 3).w.base.toNat + (ready 4 3 4 3).w.count.toNat :=
  ⟨ready_wf (by decide) (by decide) (by decide) (by decide), by decide, ⟨_, rfl⟩, by simp, by decide⟩

/-- GlobalCommandsFrame: a register that does change. -/
theorem witness_globalCommandsFrame :
    unitOf (.limSet 7 1 2) = none ∧
      ∃ t, exec (.limSet 7 1 2) (ready 0 0 0 0) = .next t ∧ t.limit 7 ≠ (ready 0 0 0 0).limit 7 :=
  ⟨by decide, _, rfl, by decide⟩

/-- OnlyLimSetChangesLimits. -/
theorem witness_onlyLimSetChangesLimits :
    (∃ t, exec (.wLim 0 100) (ready 4 3 4 3) = .next t) ∧ ∀ la a b, Instr.wLim 0 100 ≠ .limSet la a b :=
  ⟨⟨_, rfl⟩, by simp⟩

/-- OnlySetArrayMovesAWindow: the other unit's `SETARRAY`, and a command that binds nothing. -/
theorem witness_onlySetArrayMovesAWindow :
    (∃ t, exec (.rSetArray 0 64) (ready 4 3 4 3) = .next t) ∧
      ¬ (unitOf (.rSetArray 0 64) = some .w ∧ bindsWindow (.rSetArray 0 64) = true) ∧
      ¬ (unitOf .wClear = some .w ∧ bindsWindow .wClear = true) := ⟨⟨_, rfl⟩, by decide, by decide⟩

/-- NonLatchingFaultsChangeNothing. -/
theorem witness_nonLatchingFaultsChangeNothing :
    (ready 4 3 4 3).Wf ∧ Cause.limit ∈ [Cause.illegal, Cause.limit, Cause.bind] ∧
      ∃ t, exec (.wLim 3 0) (ready 4 3 4 3) = .next t ∧
        t.responses = (ready 4 3 4 3).responses ++ [failResponse (causeCode .limit)] :=
  ⟨ready_wf (by decide) (by decide) (by decide) (by decide), by decide, _, rfl, by decide⟩

/-- LatchingFaultsFollowTheRule: a fault, and a refusal. -/
theorem witness_latchingFaultsFollowTheRule :
    (ready 12 31 4 3).Wf ∧ faulted.Wf ∧
      Cause.capacity ∈ [Cause.capacity, Cause.unflushed, Cause.backpatch, Cause.range] ∧
      (∃ t, exec (.wBool 1) (ready 12 31 4 3) = .next t ∧
        t.responses = (ready 12 31 4 3).responses ++ [failResponse (causeCode .capacity)]) ∧
      ∃ t, exec .rBool faulted = .next t ∧
        t.responses = faulted.responses ++ [failResponse (causeCode .capacity)] :=
  ⟨ready_wf (by decide) (by decide) (by decide) (by decide), faulted_wf, by decide, ⟨_, rfl, by decide⟩,
    _, rfl, by decide⟩

/-- LatchEndsOnlyWithThePass: the latch cleared, and kept. -/
theorem witness_latchEndsOnlyWithThePass :
    (faulted.unit .w).fault = true ∧ (∃ t, exec .wClear faulted = .next t ∧ (t.unit .w).fault = false) ∧
      ∃ t, exec .rClear faulted = .next t ∧ (t.unit .w).fault = true :=
  ⟨by decide, ⟨_, rfl, by decide⟩, _, rfl, by decide⟩

/-- UnitsDoNotInterfere. -/
theorem witness_unitsDoNotInterfere : unitOf (.rDiff 0 1 5) = some .r ∧ unitOf (.wDiff 0 1 8 5) = some .w := by
  decide

/-- MaskLaw and MaskTable at the last entry. -/
theorem witness_maskLaw : (32 : Count6).toNat ≤ 32 := by decide

/-- PushKeepsTheAccumulator at its widest: 31 bits wait, 32 come. -/
theorem witness_pushKeepsTheAccumulator :
    (32 : Count6).toNat ≤ 32 ∧ (ready 8 31 0 0).w.valid.toNat ≤ 31 ∧
      (ready 8 31 0 0).w.pending.toNat < 2 ^ (ready 8 31 0 0).w.valid.toNat ∧
      ∃ t, wPush 32 9 (ready 8 31 0 0) = .ok t := ⟨by decide, by decide, by decide, _, rfl⟩

/-- PopKeepsTheAccumulator at its widest: 31 bits wait, 32 are asked for. -/
theorem witness_popKeepsTheAccumulator :
    (32 : Count6).toNat ≤ 32 ∧ (ready 0 0 8 31).r.valid.toNat ≤ 31 ∧
      (ready 0 0 8 31).r.pending.toNat < 2 ^ (ready 0 0 8 31).r.valid.toNat ∧
      ∃ p, rPop 32 (ready 0 0 8 31) = .ok p := ⟨by decide, by decide, by decide, _, rfl⟩

/-- The reader after `R.BITS 3` of rule R160's example: 29 bits of the window wait. The writer stored `wCount` bytes
of it. -/
def fetched (wCount : Nat) : State :=
  sit (unitAt 12 wCount 0 0) (unitAt 12 4 29 0x1FFFFDA3)
    (cells 8 [0x1F, 0xED, 0xFF, 0xFF, 0xF3, 0xD5, 0xF5, 0x57, 0x01, 0x02, 0x03, 0x04])

theorem fetched_wf {wCount : Nat} (h : wCount ≤ 12) : (fetched wCount).Wf :=
  sit_wf (unitAt_wf h (valid := 0) (by decide)) (by decide) (fun h => by cases h) (fun h => by cases h) (by decide)
    (by decide)

theorem fetched_inStep (wCount : Nat) : (fetched wCount).ReaderInStep := by
  have h : (fetched 0).ReaderInStep := ⟨by decide, by decide⟩
  exact h

/-- ReaderStaysInStep: a pop that refills. -/
theorem witness_readerStaysInStep :
    (fetched 8).Wf ∧ (fetched 8).ReaderInStep ∧ unitOf (.rBits 32) ≠ some .w ∧
      ∃ t, exec (.rBits 32) (fetched 8) = .next t ∧ t.r.fault = false :=
  ⟨fetched_wf (by decide), fetched_inStep 8, by decide, _, rfl, by decide⟩

/-- ReaderSeesTheWritersStream: the last bits the writer stored, all of them waiting; 32 bits of which 29 wait; and
the last 32, fetched from the last word of the reader's window. -/
theorem witness_readerSeesTheWritersStream :
    (fetched 4).Wf ∧ (fetched 8).Wf ∧ (fetched 4).r.fault = false ∧ (fetched 4).ReaderInStep ∧
      (fetched 4).r.base = (fetched 4).w.base ∧ (fetched 4).readPosition + 29 = 8 * (fetched 4).w.count.toNat ∧
      (fetched 4).r.count.toNat + popFetches 29 29 ≤ (fetched 4).r.cap.toNat ∧ (32 : Count6).toNat ≤ 32 ∧
      (fetched 8).readPosition + 32 ≤ 8 * (fetched 8).w.count.toNat ∧
      (fetched 8).r.count.toNat + popFetches 29 32 ≤ (fetched 8).r.cap.toNat ∧ (ready 12 0 8 0).Wf ∧
      (ready 12 0 8 0).ReaderInStep ∧ (ready 12 0 8 0).readPosition + 32 = 8 * (ready 12 0 8 0).w.count.toNat ∧
      (ready 12 0 8 0).r.count.toNat + popFetches 0 32 = (ready 12 0 8 0).r.cap.toNat :=
  ⟨fetched_wf (by decide), fetched_wf (by decide), by decide, fetched_inStep 4, by decide, by decide, by decide,
    by decide, by decide, by decide, ready_wf (by decide) (by decide) (by decide) (by decide),
    ⟨by decide, by decide⟩, by decide, by decide⟩

/-- BitCountIsLeast: one value, and the whole 32-bit range. -/
theorem witness_bitCountIsLeast :
    (5 : Int) ≤ 5 ∧ (5 : Int) - 5 + 1 ≤ 2 ^ 32 ∧ (-2147483648 : Int) ≤ 2147483647 ∧
      (2147483647 : Int) - (-2147483648) + 1 ≤ 2 ^ 32 ∧ (1 : Int) ≤ 2 ^ 0 := by decide

/-- LimSet: bounds one apart the wrong way round, and equal bounds. -/
theorem witness_limSet :
    ((5 : Word64).extractLsb' 0 32).toInt < ((6 : Word64).extractLsb' 0 32).toInt ∧
      ((5 : Word64).extractLsb' 0 32).toInt ≤ ((5 : Word64).extractLsb' 0 32).toInt := by decide

/-- LimGet: both clauses. -/
theorem witness_limGet :
    ((ready 0 0 0 0).limit 3).ok = false ∧ ((ready 0 0 0 0).limit 2).ok = true := by decide

/-- UnsetLimitFaults: the second of two Limits. -/
theorem witness_unsetLimitFaults :
    (3 : LimIdx) ∈ namesLimits (.wDiff 0 3 1 1) ∧ ((ready 4 3 4 3).limit 3).ok = false ∧
      ∀ u, unitOf (.wDiff 0 3 1 1) = some u → ((ready 4 3 4 3).unit u).fault = false :=
  ⟨by decide, by decide, fun u h => by cases h; decide⟩

/-- LimitedValueRoundTrip: both bounds of a Limit, and of the Limit that holds every value. -/
theorem witness_limitedValueRoundTrip :
    (Limit.mk true 0xFFFFFF9C 100 8).Wf ∧ (Limit.mk true 0x80000000 0x7FFFFFFF 32).Wf ∧
      (0xFFFFFF9C : Word32).toInt ≤ -100 ∧ (100 : Int) ≤ (100 : Word32).toInt ∧
      (0x80000000 : Word32).toInt ≤ -2147483648 ∧ (2147483647 : Int) ≤ (0x7FFFFFFF : Word32).toInt := by decide

/-- MemoryIsLittleEndian: eight bytes. -/
theorem witness_memoryIsLittleEndian : 8 ≤ 8 ∧ 7 < 8 ∧ (7 < 8 ∨ 8 + 8 ≤ 7) ∧ (16 < 8 ∨ 8 + 8 ≤ 16) := by decide

/-- StatusRegisters: the last row of the list. -/
theorem witness_statusRegisters :
    (StatReg.rFault, 20#6, 17) ∈
      [(StatReg.cfg, 0#6, faulted.params.rangeCheck.toNat), (.memsz, 1, faulted.params.memBytes),
        (.wBase, 8, faulted.w.base.toNat), (.wCap, 9, faulted.w.cap.toNat), (.wCount, 10, faulted.w.count.toNat),
        (.wValid, 11, faulted.w.valid.toNat), (.wFault, 12, faulted.w.fault.toNat + 16 * faulted.w.cause.toNat),
        (.rBase, 16, faulted.r.base.toNat), (.rCap, 17, faulted.r.cap.toNat), (.rCount, 18, faulted.r.count.toNat),
        (.rValid, 19, faulted.r.valid.toNat), (.rFault, 20, faulted.r.fault.toNat + 16 * faulted.r.cause.toNat)] := by
  decide

/-- PrimitiveWrites: exactly enough room for the word the field completes, and one byte too little. -/
theorem witness_primitiveWrites :
    (ready 8 31 0 0).Wf ∧ (ready 8 31 0 0).w.fault = false ∧ (32 : Count6).toNat ≤ 32 ∧
      8 + pushStores 31 32 = 12 ∧ 8 + pushStores 31 1 = 12 ∧ (ready 9 31 0 0).Wf ∧
      (ready 9 31 0 0).w.cap.toNat < 9 + pushStores 31 1 :=
  ⟨ready_wf (by decide) (by decide) (by decide) (by decide), by decide, by decide, by decide, by decide,
    ready_wf (by decide) (by decide) (by decide) (by decide), by decide⟩

/-- WholeWrites: the fast path and the bit path, with exactly enough room and with one byte too little. -/
theorem witness_wholeWrites :
    (ready 4 0 0 0).Wf ∧ (ready 4 31 0 0).Wf ∧ (ready 5 0 0 0).Wf ∧ (ready 4 31 0 0).w.fault = false ∧
      4 + wholeStores 0 64 = 12 ∧ 4 + wholeStores 31 64 = 12 ∧
      (ready 5 0 0 0).w.cap.toNat < 5 + wholeStores 0 64 :=
  ⟨ready_wf (by decide) (by decide) (by decide) (by decide), ready_wf (by decide) (by decide) (by decide) (by decide),
    ready_wf (by decide) (by decide) (by decide) (by decide), by decide, by decide, by decide, by decide⟩

/-- Flush: 25 bits into the last 4 bytes, and into 3. -/
theorem witness_flush :
    (ready 8 25 0 0).Wf ∧ (ready 8 25 0 0).w.fault = false ∧ 8 + (25 + 7) / 8 ≤ (ready 8 25 0 0).w.cap.toNat ∧
      (ready 9 25 0 0).Wf ∧ (ready 9 25 0 0).w.cap.toNat < 9 + (25 + 7) / 8 :=
  ⟨ready_wf (by decide) (by decide) (by decide) (by decide), by decide, by decide,
    ready_wf (by decide) (by decide) (by decide) (by decide), by decide⟩

/-- FlushIsIdempotent: nothing pending in a full window, and a flush that stores. -/
theorem witness_flushIsIdempotent :
    (ready 12 0 0 0).Wf ∧ (ready 12 0 0 0).w.valid = 0 ∧ (ready 8 25 0 0).Wf ∧
      ∃ t, exec .wFlush (ready 8 25 0 0) = .next t ∧ t.w.fault = false :=
  ⟨ready_wf (by decide) (by decide) (by decide) (by decide), by decide,
    ready_wf (by decide) (by decide) (by decide) (by decide), _, rfl, by decide⟩

/-- SetAt: the position past the window, past the stream, the last pending and the last stored bit. -/
theorem witness_setAt :
    (ready 4 3 0 0).Wf ∧ (ready 4 3 0 0).w.fault = false ∧ 8 * (ready 4 3 0 0).w.cap.toNat ≤ (96 : Word64).toNat ∧
      (95 : Word64).toNat < 8 * (ready 4 3 0 0).w.cap.toNat ∧ 8 * 4 + 3 ≤ (35 : Word64).toNat ∧
      (34 : Word64).toNat < 8 * 4 + 3 ∧ (31 : Word64).toNat < 8 * 4 :=
  ⟨ready_wf (by decide) (by decide) (by decide) (by decide), by decide, by decide, by decide, by decide, by decide,
    by decide⟩

/-- Counters and GetArray: nothing pending, and bits pending. -/
theorem witness_getArray :
    (ready 4 0 0 0).w.fault = false ∧ (ready 4 0 0 0).w.valid = 0 ∧ (ready 4 1 0 0).w.valid ≠ 0 := by decide

/-- SetArray: a window that ends with `MEM`, one byte more, and operands that are not 32-bit numbers. -/
theorem witness_setArray :
    (60 : Word64).toNat < 2 ^ 32 ∧ (4 : Word64).toNat < 2 ^ 32 ∧
      (60 : Word64).toNat + (4 : Word64).toNat ≤ (ready 0 0 0 0).params.memBytes ∧
      (ready 0 0 0 0).params.memBytes < (60 : Word64).toNat + (5 : Word64).toNat ∧
      2 ^ 32 ≤ (0x100000000 : Word64).toNat := by decide

/-- LimitedWrite: the upper bound of the Limit, the value past it, and that value with no range check. -/
theorem witness_limitedWrite :
    (ready 8 31 0 0).Wf ∧ (ready 8 31 0 0).w.fault = false ∧ ((ready 8 31 0 0).limit 0).ok = true ∧
      ¬ (ready 8 31 0 0).OutOfRange 0 ((100 : Word64).extractLsb' 0 32).toInt ∧
      (ready 8 31 0 0).OutOfRange 0 ((101 : Word64).extractLsb' 0 32).toInt ∧
      ¬ (writer 0 0 0 false).OutOfRange 0 ((101 : Word64).extractLsb' 0 32).toInt ∧ 8 + pushStores 31 8 = 12 ∧
      (ready 9 31 0 0).w.cap.toNat < 9 + pushStores 31 8 :=
  ⟨ready_wf (by decide) (by decide) (by decide) (by decide), by decide, by decide,
    by unfold State.OutOfRange; decide, by unfold State.OutOfRange; decide, by unfold State.OutOfRange; decide,
    by decide, by decide⟩

/-- ChangedWrites: equal and different at the width of the command, with exactly enough room and too little. -/
theorem witness_changedWrites :
    (ready 7 31 0 0).Wf ∧ (ready 7 31 0 0).w.fault = false ∧
      (Instr.wChgU8 0x1C3 0x2C3, 8) ∈ [(Instr.wChgU8 0x1C3 0x2C3, 8), (.wChgU16 0x1C3 0x2C3, 16),
        (.wChgU32 0x1C3 0x2C3, 32), (.wChgU64 0x1C3 0x2C3, 64)] ∧
      (0x1C3 : Word64).toNat % 2 ^ 8 = (0x2C3 : Word64).toNat % 2 ^ 8 ∧
      (0x1C3 : Word64).toNat % 2 ^ 16 ≠ (0x2C3 : Word64).toNat % 2 ^ 16 ∧
      7 + changedStores 31 8 = 12 ∧ (ready 8 31 0 0).Wf ∧ (ready 8 31 0 0).w.cap.toNat < 8 + changedStores 31 8 :=
  ⟨ready_wf (by decide) (by decide) (by decide) (by decide), by decide, by decide, by decide, by decide, by decide,
    ready_wf (by decide) (by decide) (by decide) (by decide), by decide⟩

/-- ChangedLimitedWrite: the three cases, the third with room for the flag and without. -/
theorem witness_changedLimitedWrite :
    (ready 8 31 0 0).Wf ∧ (ready 8 31 0 0).w.fault = false ∧ ((ready 8 31 0 0).limit 0).ok = true ∧
      ((5 : Word64).extractLsb' 0 32).toInt ≠ ((100 : Word64).extractLsb' 0 32).toInt ∧
      ¬ (ready 8 31 0 0).OutOfRange 0 ((100 : Word64).extractLsb' 0 32).toInt ∧
      (ready 8 31 0 0).OutOfRange 0 ((101 : Word64).extractLsb' 0 32).toInt ∧
      8 + pushStores 31 1 = 12 ∧ (ready 9 31 0 0).w.cap.toNat < 9 + pushStores 31 1 :=
  ⟨ready_wf (by decide) (by decide) (by decide) (by decide), by decide, by decide, by decide,
    by unfold State.OutOfRange; decide, by unfold State.OutOfRange; decide, by decide, by decide⟩

/-- DiffWrite: a difference of 9 is eligible, of 10 not, and 101 is past the Limit. -/
theorem witness_diffWrite :
    (ready 8 31 0 0).Wf ∧ (ready 8 31 0 0).w.fault = false ∧ ((ready 8 31 0 0).limit 0).ok = true ∧
      ((ready 8 31 0 0).limit 1).ok = true ∧ (((ready 8 31 0 0).limit 1).min.toInt < 9 ∧
      9 < ((ready 8 31 0 0).limit 1).max.toInt) ∧ ¬ 10 < ((ready 8 31 0 0).limit 1).max.toInt ∧
      ¬ (ready 8 31 0 0).OutOfRange 0 100 ∧ (ready 8 31 0 0).OutOfRange 0 101 ∧ 8 + pushStores 31 2 = 12 :=
  ⟨ready_wf (by decide) (by decide) (by decide) (by decide), by decide, by decide, by decide, by decide, by decide,
    by unfold State.OutOfRange; decide, by unfold State.OutOfRange; decide, by decide⟩

/-- PrimitiveReads and LimitedRead: exactly enough bytes to refill from, and one too few. -/
theorem witness_primitiveReads :
    (ready 0 0 8 31).Wf ∧ (ready 0 0 8 31).r.fault = false ∧ (32 : Count6).toNat ≤ 32 ∧
      8 + popFetches 31 32 = 12 ∧ 8 + popFetches 0 1 = 12 ∧ 8 + popFetches 0 8 = 12 ∧
      ((ready 0 0 8 31).limit 0).ok = true ∧ (ready 0 0 9 31).Wf ∧
      (ready 0 0 9 31).r.cap.toNat < 9 + popFetches 31 32 :=
  ⟨ready_wf (by decide) (by decide) (by decide) (by decide), by decide, by decide, by decide, by decide, by decide,
    by decide, ready_wf (by decide) (by decide) (by decide) (by decide), by decide⟩

/-- WholeReads: both paths, with exactly enough bytes and with one too few. -/
theorem witness_wholeReads :
    (ready 0 0 4 0).Wf ∧ (ready 0 0 4 0).r.fault = false ∧
      (Instr.rI64, 64, true) ∈ [(Instr.rU8, 8, false), (.rU16, 16, false), (.rI16, 16, true), (.rU32, 32, false),
        (.rI32, 32, true), (.rU64, 64, false), (.rI64, 64, true)] ∧
      4 + wholeFetches 0 64 = 12 ∧ 4 + wholeFetches 31 64 = 12 ∧ (ready 0 0 5 0).Wf ∧
      (ready 0 0 5 0).r.cap.toNat < 5 + wholeFetches 0 64 :=
  ⟨ready_wf (by decide) (by decide) (by decide) (by decide), by decide, by decide, by decide, by decide,
    ready_wf (by decide) (by decide) (by decide) (by decide), by decide⟩

/-- ChangedReads: a flag 1 that empties the accumulator, and a flag 0. -/
theorem witness_changedReads :
    (ready 0 0 11 1).Wf ∧ (ready 0 0 11 1).r.fault = false ∧
      (Instr.rChgU8 7, 8, false) ∈ [(Instr.rChgU8 7, 8, false), (.rChgU16 7, 16, false), (.rChgI16 7, 16, true),
        (.rChgU32 7, 32, false), (.rChgI32 7, 32, true), (.rChgU64 7, 64, false), (.rChgI64 7, 64, true)] ∧
      (ready 0 0 11 1).nextBit 0 = true ∧ 11 + changedFetches 1 8 = 12 ∧ (reader 8 1 0 []).Wf ∧
      (reader 8 1 0 []).nextBit 0 = false :=
  ⟨ready_wf (by decide) (by decide) (by decide) (by decide), by decide, by decide, by decide, by decide,
    sit_wf (by decide) (by decide) (fun h => by cases h) (fun h => by cases h) (by decide) (by decide), by decide⟩

/-- ChangedLimitedRead and DiffRead: every combination of the flags. -/
theorem witness_flagReads :
    (ready 0 0 8 31).Wf ∧ (ready 0 0 8 31).r.fault = false ∧ ((ready 0 0 8 31).limit 0).ok = true ∧
      ((ready 0 0 8 31).limit 1).ok = true ∧ (ready 0 0 8 31).nextBit 0 = true ∧
      (ready 0 0 8 31).nextBit 1 = true ∧ (reader 8 2 1 []).nextBit 0 = true ∧ (reader 8 2 1 []).nextBit 1 = false ∧
      (reader 8 1 0 []).nextBit 0 = false ∧ (reader 8 1 0 []).Wf ∧ (reader 8 2 1 []).Wf :=
  ⟨ready_wf (by decide) (by decide) (by decide) (by decide), by decide, by decide, by decide, by decide, by decide,
    by decide, by decide, by decide,
    sit_wf (by decide) (by decide) (fun h => by cases h) (fun h => by cases h) (by decide) (by decide),
    sit_wf (by decide) (by decide) (fun h => by cases h) (fun h => by cases h) (by decide) (by decide)⟩

end Sys2Proof.Tests
end

/-! PROOFS. What no event changes: `RANGE_CHECK` and `MEM_BYTES` (00_scope.md rule R8).
`exec_course` says once what a command can do in every state, well formed or not; that no command changes the
parameters follows from it. -/

namespace Sys2Proof.Machine

/-! ## The course of a command -/

/-- The outcomes of a command addressed to the given unit, or to none: it is only answered, or it ends as a rule of
its unit ends, or it puts new registers in its unit, or it sets a Limit register. -/
inductive Course (s : State) : Option UnitId → Host.Outcome State Fault Refusal → Prop
  | answered {u : Option UnitId} (x : Response) : Course s u (.next (s.respond x))
  | wrote {x : Except Abort State} (h : WriterRule s x) : Course s (some .w) (finish s x)
  | read {x : Except Abort (Word64 × State)} (h : ReaderRule s x) : Course s (some .r) (finishWith s x)
  | setUnit (u : UnitId) (x : BitUnit) : Course s (some u) (.next ((s.setUnit u x).respond (okResponse none)))
  | setLimit (i : LimIdx) (v : Limit) : Course s none (.next ((s.setLimit i v).respond (okResponse none)))

/-- The refusal of a faulted unit is an answer and nothing else (60_exceptions.md rule R231). -/
theorem Course.onUnit {s : State} {u : UnitId} {o : Host.Outcome State Fault Refusal} (h : Course s (some u) o) :
    Course s (some u) (onUnit u s o) := by
  cases hf : (s.unit u).fault
  · rwa [onUnit_clear hf]
  · rw [onUnit_faulted hf]
    exact .answered _

/-- So is the answer to an illegal bit count (30_encoding.md rule R86). -/
theorem Course.withLegalCount {s : State} {u : Option UnitId} {o : Host.Outcome State Fault Refusal} (n : Count6)
    (h : Course s u o) : Course s u (withLegalCount n s o) := by
  unfold Machine.withLegalCount
  split
  · exact h
  · exact .answered _

theorem WriterRule.course {s : State} {x : Except Abort State} (h : WriterRule s x) :
    Course s (some .w) (onUnit .w s (finish s x)) := (Course.wrote h).onUnit

theorem ReaderRule.course {s : State} {x : Except Abort (Word64 × State)} (h : ReaderRule s x) :
    Course s (some .r) (onUnit .r s (finishWith s x)) := (Course.read h).onUnit

theorem bindWindow_course (s : State) (u : UnitId) (a b : Word64) :
    Course s (some u) (finish s (bindWindow u a b s)) := by
  obtain ⟨-, e⟩ | ⟨-, e⟩ := bindWindow_cases u a b s
  · rw [e]
    exact .setUnit u _
  · rw [e]
    exact .answered _

theorem execWGetArray_course (s : State) : Course s (some .w) (execWGetArray s) := by
  refine Course.onUnit ?_
  split
  · exact Course.wrote (x := .error (.latch .w .unflushed true)) rfl
  · exact .answered _

theorem execRLim_course (s : State) (la : LimIdx) : Course s (some .r) (execRLim la s) := by
  refine ReaderRule.course (ReaderRule.need la ?_)
  exact (readLimited_rule s la).bind fun _ _ => rfl

theorem execLimSet_course (s : State) (la : LimIdx) (a b : Word64) : Course s none (execLimSet la a b s) := by
  unfold execLimSet
  split
  · exact .answered _
  · exact .setLimit la _

/-- A command that only reads a Limit register (43_limit.md rules R182 to R184). -/
theorem limGet_course (s : State) (la : LimIdx) (v : Word64) :
    Course s none (finishWith s ((needLimit la s).bind fun _ => .ok (v, s))) := by
  cases hok : (s.limit la).ok
  · rw [needLimit_unset hok]
    exact .answered _
  · rw [needLimit_ok hok]
    exact .answered _

/-- Everything `exec` can do in any state, one line per command. -/
theorem exec_course (s : State) (i : Instr) : Course s (unitOf i) (exec i s) := by
  cases i with
  | limSet la a b => exact execLimSet_course s la a b
  | limGetMin la => exact limGet_course s la _
  | limGetMax la => exact limGet_course s la _
  | limGetBits la => exact limGet_course s la _
  | statRd reg => exact .answered _
  | wBits n a => exact (wPush_rule s n _).course.withLegalCount n
  | wBool a => exact (wPush_rule s 1 _).course
  | wU8 a => exact (writeWhole_rule s .w8 a).course
  | wU16 a => exact (writeWhole_rule s .w16 a).course
  | wU32 a => exact (writeWhole_rule s .w32 a).course
  | wU64 a => exact (writeWhole_rule s .w64 a).course
  | wFlush => exact (flushPending_rule s).course
  | wSetAt a b => exact (setAt_rule s _ _).course
  | wBitsCount => exact Course.onUnit (.answered _)
  | wBytesCount => exact Course.onUnit (.answered _)
  | wGetArray => exact execWGetArray_course s
  | wClear => exact .setUnit .w s.w.startPass
  | wSetArray a b => exact bindWindow_course s .w a b
  | wLim la a => exact (writeLimited_rule s la _ true).need la |>.course
  | wChgU8 a b => exact (writeIfChanged_rule s .w8 a b).course
  | wChgU16 a b => exact (writeIfChanged_rule s .w16 a b).course
  | wChgU32 a b => exact (writeIfChanged_rule s .w32 a b).course
  | wChgU64 a b => exact (writeIfChanged_rule s .w64 a b).course
  | wChgLim la a b => exact (writeLimitedIfChanged_rule s la _ _).need la |>.course
  | wDiff la lb a b => exact ((writeDiff_rule s la lb _ _).need lb).need la |>.course
  | rBits n => exact (popResult_rule s n).course.withLegalCount n
  | rBool => exact (popResult_rule s 1).course
  | rU8 => exact (readWhole_rule s .w8 false).course
  | rU16 => exact (readWhole_rule s .w16 false).course
  | rI16 => exact (readWhole_rule s .w16 true).course
  | rU32 => exact (readWhole_rule s .w32 false).course
  | rI32 => exact (readWhole_rule s .w32 true).course
  | rU64 => exact (readWhole_rule s .w64 false).course
  | rI64 => exact (readWhole_rule s .w64 true).course
  | rClear => exact .setUnit .r s.r.startPass
  | rSetArray a b => exact bindWindow_course s .r a b
  | rLim la => exact execRLim_course s la
  | rChgU8 b => exact (readIfChanged_rule s .w8 false b).course
  | rChgU16 b => exact (readIfChanged_rule s .w16 false b).course
  | rChgI16 b => exact (readIfChanged_rule s .w16 true b).course
  | rChgU32 b => exact (readIfChanged_rule s .w32 false b).course
  | rChgI32 b => exact (readIfChanged_rule s .w32 true b).course
  | rChgU64 b => exact (readIfChanged_rule s .w64 false b).course
  | rChgI64 b => exact (readIfChanged_rule s .w64 true b).course
  | rChgLim la b => exact (readLimitedIfChanged_rule s la b).need la |>.course
  | rDiff la lb b => exact ((readDiff_rule s la lb b).need lb).need la |>.course

/-! ## The parameters -/

theorem Course.params {s t : State} {u : Option UnitId} {o : Host.Outcome State Fault Refusal} (h : Course s u o)
    (e : o = .next t) : t.params = s.params := by
  cases h with
  | answered x => cases e; exact respond_params s x
  | wrote h => exact (h.ends e).params
  | read h => exact (h.ends e).params
  | setUnit u x => cases e; simp
  | setLimit i v => cases e; simp

theorem runCommand_params {s t : State} {c : Command} (e : runCommand c s = .next t) : t.params = s.params := by
  unfold runCommand at e
  split at e
  · exact (exec_course s _).params e
  · exact (Course.answered (u := none) _).params e

theorem hostStore_params {s t : State} {addr : Word32} {b : Byte} (e : s.hostStore addr b = .next t) :
    t.params = s.params := by
  obtain ⟨-, e'⟩ | ⟨-, e'⟩ := hostStore_cases s addr b
  · cases e'.symm.trans e; rfl
  · cases e'.symm.trans e

theorem runEvent_params {s t : State} {ev : HostEvent} (e : runEvent ev s = .next t) : t.params = s.params := by
  cases ev with
  | command c => exact runCommand_params e
  | reset => cases e; exact hostReset_params s
  | store addr b => exact hostStore_params e

theorem step_params {s t : State} (e : step s = .next t) : t.params = s.params := by
  unfold step at e
  split at e
  · cases e; rfl
  · have h := runEvent_params e
    exact h

/-- Settles O16: each of the host's events, and the idle step, leaves the parameters as they are. -/
theorem parametersNeverChange : Obligations.ParametersNeverChange :=
  fun _ _ => step_params

end Sys2Proof.Machine

/-! PROOFS. The state family (10_state.md): the registers after reset (rule R34), the well-formed states as an
invariant of every step (rule R36), what can change a Limit register (rule R25) or a window (rule R24), the reader
in step with its window (rule R22), and the status registers (rule R30). What a command can do is cited from
`exec_ends` in a well-formed state and from `exec_course` in any state. -/

namespace Sys2Proof.Machine

/-! ## The state after reset (10_state.md rule R34) -/

@[simp] theorem limit_resetWith (p : Params) (i : LimIdx) : (State.resetWith p).limit i = Limit.reset := by
  simp [State.limit, State.resetWith]

/-- Settles O12: the first clause for any parameters, the others for those of `State.reset`. -/
theorem resetRegisters : Obligations.ResetRegisters :=
  ⟨fun p => ⟨rfl, rfl, fun i => by rw [limit_resetWith]; rfl, rfl, rfl⟩, rfl, by decide⟩

theorem bitUnit_reset_wf (memBytes : Nat) : BitUnit.reset.Wf memBytes :=
  ⟨Nat.zero_le _, fun _ => by decide⟩

theorem limit_reset_wf : Limit.reset.Wf := fun h => Bool.noConfusion h

theorem resetWith_wf {p : Params} (hp : p.wf) : (State.resetWith p).Wf where
  params := hp
  writer := bitUnit_reset_wf _
  reader := bitUnit_reset_wf _
  limits := fun i => by
    have hi : (State.resetWith p).lim[i] = Limit.reset := Vector.getElem_replicate i.isLt
    rw [hi]
    exact limit_reset_wf
  writerCause := fun h => Bool.noConfusion h
  readerCause := fun h => Bool.noConfusion h
  memory := List.Pairwise.nil
  memoryFits := fun _ hc => nomatch hc

/-- Settles O13: the same lemma for the given parameters and for those of `State.reset`. -/
theorem resetIsWellFormed : Obligations.ResetIsWellFormed :=
  fun _ hp => ⟨resetWith_wf hp, resetWith_wf (by decide)⟩

/-! ## Every step keeps the state well formed (rule R36) -/

theorem Done.wf {s t : State} {i : Instr} (h : Done s t i) : t.Wf := by
  unfold Done at h
  split at h
  · exact GlobalDone.wf h
  · exact WriterDone.wf h
  · exact ReaderDone.wf h

theorem exec_wf {s t : State} {i : Instr} (hs : s.Wf) (e : exec i s = .next t) : t.Wf := by
  cases exec_ends hs i with
  | unchanged c hc e' => cases e'.symm.trans e; exact hs.respond _
  | refused u hu hi hf e' => cases e'.symm.trans e; exact hs.respond _
  | latched u c precise hu hi hf hc e' => cases e'.symm.trans e; exact (hs.latchFault hc precise).respond _
  | completed t' res hd e' => cases e'.symm.trans e; exact hd.wf.respond _

theorem runCommand_wf {s t : State} {c : Command} (hs : s.Wf) (e : runCommand c s = .next t) : t.Wf := by
  unfold runCommand at e
  split at e
  · exact exec_wf hs e
  · cases e; exact hs.respond _

theorem hostReset_wf {s : State} (hs : s.Wf) : s.hostReset.Wf :=
  (resetWith_wf hs.params).congr rfl rfl rfl rfl rfl

theorem hostStore_wf {s t : State} {addr : Word32} {b : Byte} (hs : s.Wf) (e : s.hostStore addr b = .next t) :
    t.Wf := by
  obtain ⟨hin, e'⟩ | ⟨-, e'⟩ := hostStore_cases s addr b
  · cases e'.symm.trans e
    exact hs.withWriter rfl rfl rfl hs.writer hs.writerCause (memWriteByte_wf hs.memory _ _)
      (memWriteByte_fits hs.memoryFits hin _)
  · cases e'.symm.trans e

theorem runEvent_wf {s t : State} {ev : HostEvent} (hs : s.Wf) (e : runEvent ev s = .next t) : t.Wf := by
  cases ev with
  | command c => exact runCommand_wf hs e
  | reset => cases e; exact hostReset_wf hs
  | store addr b => exact hostStore_wf hs e

theorem step_wf {s t : State} (hs : s.Wf) (e : step s = .next t) : t.Wf := by
  unfold step at e
  split at e
  · cases e; exact hs
  · next rest _ => exact runEvent_wf (s := { s with inbox := rest }) (hs.congr rfl rfl rfl rfl rfl) e

/-- Settles O14: each of the host's events, and the idle step, keeps a well-formed state well formed. -/
theorem stepKeepsWellFormed : Obligations.StepKeepsWellFormed :=
  fun _ _ => step_wf

/-! ## The Limit file (rules R25, R251) -/

/-- A command addressed to a unit changes no Limit register. -/
theorem Course.lim_of_unit {s t : State} {u : UnitId} {o : Host.Outcome State Fault Refusal}
    (h : Course s (some u) o) (e : o = .next t) : t.lim = s.lim := by
  cases h with
  | answered x => cases e; exact respond_lim s x
  | wrote h => exact (h.ends e).lim
  | read h => exact (h.ends e).lim
  | setUnit _ x => cases e; rw [respond_lim, setUnit_lim]

/-- A rule that only reads a Limit register is only answered (43_limit.md rules R182 to R184). -/
theorem limGet_answered (s : State) (la : LimIdx) (v : Word64) :
    ∃ x, finishWith s ((needLimit la s).bind fun _ => .ok (v, s)) = .next (s.respond x) := by
  cases hok : (s.limit la).ok
  · rw [needLimit_unset hok]
    exact ⟨_, rfl⟩
  · rw [needLimit_ok hok]
    exact ⟨_, rfl⟩

/-- Every global command but `LIM.SET` is only answered. -/
theorem exec_global_answered {s : State} {i : Instr} (hu : unitOf i = none) (hi : ∀ la a b, i ≠ .limSet la a b) :
    ∃ x, exec i s = .next (s.respond x) := by
  cases i with
  | limSet la a b => exact absurd rfl (hi la a b)
  | limGetMin la => exact limGet_answered s la _
  | limGetMax la => exact limGet_answered s la _
  | limGetBits la => exact limGet_answered s la _
  | statRd reg => exact ⟨_, rfl⟩
  | _ => cases hu

/-- Settles O21: a command of a unit leaves the Limit file, and a global one that is not `LIM.SET` is only
answered. -/
theorem onlyLimSetChangesLimits : Obligations.OnlyLimSetChangesLimits := by
  intro s t i e hi
  cases hu : unitOf i with
  | none =>
    obtain ⟨x, hx⟩ := exec_global_answered (s := s) hu hi
    cases hx.symm.trans e
    exact respond_lim s x
  | some u =>
    have h : Course s (some u) (exec i s) := hu ▸ exec_course s i
    exact h.lim_of_unit e

/-! ## The windows (rule R24) -/

/-- In every next state this outcome gives, the unit has the window it had. -/
def KeepsWindow (s : State) (u : UnitId) (o : Host.Outcome State Fault Refusal) : Prop :=
  ∀ t, o = .next t → (t.unit u).base = (s.unit u).base ∧ (t.unit u).cap = (s.unit u).cap

theorem keepsWindow_answered (s : State) (u : UnitId) (x : Response) : KeepsWindow s u (.next (s.respond x)) := by
  intro t e
  cases e
  rw [respond_unit]
  exact ⟨rfl, rfl⟩

theorem KeepsWindow.onUnit {s : State} {u v : UnitId} {o : Host.Outcome State Fault Refusal}
    (h : KeepsWindow s u o) : KeepsWindow s u (onUnit v s o) := by
  unfold Machine.onUnit
  split
  · exact keepsWindow_answered s u _
  · exact h

theorem KeepsWindow.withLegalCount {s : State} {u : UnitId} {o : Host.Outcome State Fault Refusal} (n : Count6)
    (h : KeepsWindow s u o) : KeepsWindow s u (withLegalCount n s o) := by
  unfold Machine.withLegalCount
  split
  · exact h
  · exact keepsWindow_answered s u _

theorem WriterRule.keepsWindow {s : State} {x : Except Abort State} (h : WriterRule s x) :
    KeepsWindow s .w (Machine.onUnit .w s (finish s x)) :=
  KeepsWindow.onUnit fun _ e => (h.ends e).window

theorem ReaderRule.keepsWindow {s : State} {x : Except Abort (Word64 × State)} (h : ReaderRule s x) :
    KeepsWindow s .r (Machine.onUnit .r s (finishWith s x)) :=
  KeepsWindow.onUnit fun _ e => (h.ends e).window

theorem execWGetArray_keepsWindow (s : State) : KeepsWindow s .w (execWGetArray s) := by
  refine KeepsWindow.onUnit ?_
  split
  · exact fun t e => (WriterRule.ends (x := .error (.latch .w .unflushed true)) rfl e).window
  · exact keepsWindow_answered s .w _

theorem execRLim_keepsWindow (s : State) (la : LimIdx) : KeepsWindow s .r (execRLim la s) := by
  refine ReaderRule.keepsWindow (ReaderRule.need la ?_)
  exact (readLimited_rule s la).bind fun _ _ => rfl

/-- A pass begun in the same window (rule R35). -/
theorem clear_keepsWindow (s : State) (u : UnitId) :
    KeepsWindow s u (finish s (.ok (s.setUnit u (s.unit u).startPass))) := by
  intro t e
  cases e
  rw [respond_unit, unit_setUnit]
  exact ⟨rfl, rfl⟩

theorem writer_keepsWindow (s : State) {i : Instr} (hu : unitOf i = some .w) (hb : bindsWindow i = false) :
    KeepsWindow s .w (exec i s) := by
  cases i with
  | wSetArray a b => cases hb
  | wClear => exact clear_keepsWindow s .w
  | wBits n a => exact (wPush_rule s n _).keepsWindow.withLegalCount n
  | wBool a => exact (wPush_rule s 1 _).keepsWindow
  | wU8 a | wU16 a | wU32 a | wU64 a => exact (writeWhole_rule s _ a).keepsWindow
  | wFlush => exact (flushPending_rule s).keepsWindow
  | wSetAt a b => exact (setAt_rule s _ _).keepsWindow
  | wBitsCount | wBytesCount => exact (keepsWindow_answered s .w _).onUnit
  | wGetArray => exact execWGetArray_keepsWindow s
  | wLim la a => exact (writeLimited_rule s la _ true).need la |>.keepsWindow
  | wChgU8 a b | wChgU16 a b | wChgU32 a b | wChgU64 a b => exact (writeIfChanged_rule s _ a b).keepsWindow
  | wChgLim la a b => exact (writeLimitedIfChanged_rule s la _ _).need la |>.keepsWindow
  | wDiff la lb a b => exact ((writeDiff_rule s la lb _ _).need lb).need la |>.keepsWindow
  | _ => cases hu

theorem reader_keepsWindow (s : State) {i : Instr} (hu : unitOf i = some .r) (hb : bindsWindow i = false) :
    KeepsWindow s .r (exec i s) := by
  cases i with
  | rSetArray a b => cases hb
  | rClear => exact clear_keepsWindow s .r
  | rBits n => exact (popResult_rule s n).keepsWindow.withLegalCount n
  | rBool => exact (popResult_rule s 1).keepsWindow
  | rU8 | rU16 | rI16 | rU32 | rI32 | rU64 | rI64 => exact (readWhole_rule s _ _).keepsWindow
  | rLim la => exact execRLim_keepsWindow s la
  | rChgU8 b | rChgU16 b | rChgI16 b | rChgU32 b | rChgI32 b | rChgU64 b | rChgI64 b =>
    exact (readIfChanged_rule s _ _ b).keepsWindow
  | rChgLim la b => exact (readLimitedIfChanged_rule s la b).need la |>.keepsWindow
  | rDiff la lb b => exact ((readDiff_rule s la lb b).need lb).need la |>.keepsWindow
  | _ => cases hu

/-- A command changes nothing of a unit it is not addressed to. -/
theorem Course.unit_of_ne {s t : State} {u : Option UnitId} {v : UnitId} {o : Host.Outcome State Fault Refusal}
    (h : Course s u o) (hv : u ≠ some v) (e : o = .next t) : t.unit v = s.unit v := by
  cases h with
  | answered x => cases e; exact respond_unit s x v
  | wrote h =>
    cases v with
    | w => exact absurd rfl hv
    | r => exact (h.ends e).reader
  | read h =>
    cases v with
    | w => exact (h.ends e).writer
    | r => exact absurd rfl hv
  | setUnit u x =>
    cases e
    rw [respond_unit, unit_setUnit_of_ne s x fun hvu => hv (congrArg some hvu.symm)]
  | setLimit i l => cases e; cases v <;> rfl

/-- Settles O22: a command leaves the unit it is not addressed to, and a unit's command that is not its `SETARRAY`
keeps the window. -/
theorem onlySetArrayMovesAWindow : Obligations.OnlySetArrayMovesAWindow := by
  intro s t i u e hi
  by_cases hu : unitOf i = some u
  · have hb : bindsWindow i = false := Bool.eq_false_iff.mpr fun hb => hi ⟨hu, hb⟩
    cases u with
    | w => exact writer_keepsWindow s hu hb t e
    | r => exact reader_keepsWindow s hu hb t e
  · rw [(exec_course s i).unit_of_ne hu e]
    exact ⟨rfl, rfl⟩

/-! ## The reader in step with its window (rules R22, R95) -/

/-- Being in step is a matter of the reader and of what `MEM` reads as. -/
theorem State.ReaderInStep.congr {s t : State} (h : s.ReaderInStep) (hr : t.r = s.r) (hm : t.mem = s.mem)
    (he : t.memEpoch = s.memEpoch) : t.ReaderInStep := by
  have hpos : t.readPosition = s.readPosition := by rw [State.readPosition, State.readPosition, hr]
  have hbit : ∀ p, t.windowBit p = s.windowBit p := fun p => by
    rw [State.windowBit, State.windowBit, hr, byteAt_congr hm he]
  unfold State.ReaderInStep
  rw [hr, hpos]
  exact ⟨h.1, fun k hk => (h.2 k hk).trans (hbit _).symm⟩

theorem State.ReaderInStep.respond {s : State} (h : s.ReaderInStep) (x : Response) : (s.respond x).ReaderInStep :=
  h.congr rfl rfl rfl

/-- A completed command that is not the writer's keeps the reader in step. -/
theorem Done.readerInStep {s t : State} {i : Instr} (h : Done s t i) (hu : unitOf i ≠ some .w)
    (hs : s.ReaderInStep) : t.ReaderInStep := by
  unfold Done at h
  split at h
  next =>
    rw [GlobalDone.frame h]
    exact hs.congr rfl rfl rfl
  next hw => exact absurd hw hu
  next => exact ReaderDone.inStep h hs

/-- Settles O32: of the four ways a command ends, two change nothing, a latched fault of the reader leaves it
faulted, and a completed command keeps the reader in step. -/
theorem readerStaysInStep : Obligations.ReaderStaysInStep := by
  intro s t i hs hin hu e hf
  cases exec_ends hs i with
  | unchanged c hc e' => cases e'.symm.trans e; exact hin.respond _
  | refused u hu' hi hf' e' => cases e'.symm.trans e; exact hin.respond _
  | latched u c precise hu' hi hf' hc e' =>
    cases e'.symm.trans e
    cases u with
    | w => exact absurd hu' hu
    | r =>
      have hlatched : (s.latchFault .r c precise).r.fault = true := latchFault_unit_fault s .r c precise
      rw [respond_r, hlatched] at hf
      cases hf
  | completed t' res hd e' => cases e'.symm.trans e; exact (hd.readerInStep hu hin).respond _

/-! ## The status registers (rules R30, R119) -/

/-- The status word as a number: bit 0 is `fault`, bits 7..4 are `cause`. -/
theorem faultWord_eq_ofNat (x : BitUnit) :
    faultWord x = BitVec.ofNat 64 (x.fault.toNat + 16 * x.cause.toNat) := by
  have key : ∀ (f : Bool) (c : BitVec 4),
      (c.setWidth 64 <<< 4) ||| (if f then 1 else 0) = BitVec.ofNat 64 (f.toNat + 16 * c.toNat) := by decide
  exact key x.fault x.cause

theorem statValue_cfg (s : State) : statValue s .cfg = BitVec.ofNat 64 s.params.rangeCheck.toNat := by
  unfold statValue
  cases s.params.rangeCheck <;> rfl

theorem zext64_eq_ofNat (v : Word32) : zext64 v = BitVec.ofNat 64 v.toNat := (BitVec.ofNat_toNat 64 v).symm

theorem fieldsOf_encode_statRd (reg : StatReg) :
    fieldsOf (encode (.statRd reg)).cmd = wordFields 0x03 (n := statNumber reg) := fieldsOf_packFields _

theorem exec_statRd (reg : StatReg) (s : State) :
    exec (.statRd reg) s = .next (s.respond (okResponse (some (statValue s reg)))) := rfl

/-- A row of the table of rule R30: a register, its number and its value in this state. -/
def IsStatRow (s : State) (row : StatReg × BitVec 6 × Nat) : Prop :=
  statNumber row.1 = row.2.1 ∧ statValue s row.1 = BitVec.ofNat 64 row.2.2

/-- Settles O39: `STAT.RD` by its register's number and value, and then the table row by row. -/
theorem statusRegisters : Obligations.StatusRegisters := by
  intro s reg number value hrow
  suffices h : IsStatRow s (reg, number, value) by
    obtain ⟨hnumber, hvalue⟩ := h
    dsimp only at hnumber hvalue
    rw [fieldsOf_encode_statRd, exec_statRd, hnumber, hvalue]
    exact ⟨rfl, rfl⟩
  revert hrow
  generalize (reg, number, value) = row
  revert row
  simp only [List.forall_mem_cons]
  exact ⟨⟨rfl, statValue_cfg s⟩, ⟨rfl, rfl⟩,
    ⟨rfl, zext64_eq_ofNat s.w.base⟩, ⟨rfl, zext64_eq_ofNat s.w.cap⟩, ⟨rfl, zext64_eq_ofNat s.w.count⟩,
    ⟨rfl, (BitVec.ofNat_toNat 64 s.w.valid).symm⟩, ⟨rfl, faultWord_eq_ofNat s.w⟩,
    ⟨rfl, zext64_eq_ofNat s.r.base⟩, ⟨rfl, zext64_eq_ofNat s.r.cap⟩, ⟨rfl, zext64_eq_ofNat s.r.count⟩,
    ⟨rfl, (BitVec.ofNat_toNat 64 s.r.valid).symm⟩, ⟨rfl, faultWord_eq_ofNat s.r⟩, fun _ h => nomatch h⟩

end Sys2Proof.Machine

/-! PROOFS. The memory family (20_memory.md): bytes in little-endian order (rule R52), the host's write of one byte
(rule R61), what a writer command leaves alone (rules R51, R223), and the independence of the two units (rule R63). -/

namespace Sys2Proof.Machine

/-! ## Bytes of a stored value (rule R52) -/

theorem low8_shiftRight (v : Word64) (k : Nat) : low8 (v >>> k) = v.extractLsb' k 8 := by
  refine BitVec.eq_of_getLsbD_eq fun i hi => ?_
  rw [getLsbD_low8, BitVec.getLsbD_ushiftRight, BitVec.getLsbD_extractLsb']

/-- Byte `i` of a stored value, found `i` addresses up. -/
theorem byteAt_writeBytes_inside {t : State} {m : Memory} {addr n i : Nat} {v : Word64}
    (hm : t.mem = writeBytes m addr v n) (hi : i < n) : t.byteAt (addr + i) = v.extractLsb' (8 * i) 8 := by
  rw [← low8_shiftRight]
  exact byteAt_of_some (hm ▸ memLookup_writeBytes_inside m addr v n hi)

/-- The first bytes of a stored value, read back as a number, are the value's low bits. -/
theorem toNat_readBytes_writeBytes {t : State} {m : Memory} {addr n k : Nat} {v : Word64}
    (hm : t.mem = writeBytes m addr v n) (hn : n ≤ 8) (hk : k ≤ n) :
    (readBytes t addr k).toNat = v.toNat % 2 ^ (8 * k) := by
  refine Nat.eq_of_testBit_eq fun j => ?_
  rw [BitVec.testBit_toNat, getLsbD_readBytes t addr k j (by omega), Nat.testBit_mod_two_pow, BitVec.testBit_toNat]
  by_cases hj : j < 8 * k
  · rw [byteAt_writeBytes_bit hm (by omega)]
  · simp [hj]

/-- Settles O29, byte by byte and bit by bit. -/
theorem memoryIsLittleEndian : Obligations.MemoryIsLittleEndian :=
  fun _ _ _ _ hn => ⟨fun _ hi => byteAt_writeBytes_inside rfl hi, fun _ ha => byteAt_writeBytes_outside rfl rfl ha,
    fun _ hk => toNat_readBytes_writeBytes rfl hn hk⟩

/-! ## The host's write of one byte (rules R61, R266) -/

/-- A step takes the event at the head of the inbox. -/
theorem step_of_inbox {s : State} {ev : HostEvent} {rest : List HostEvent} (h : s.inbox = ev :: rest) :
    step s = runEvent ev { s with inbox := rest } := by
  unfold step
  rw [h]

theorem byteAt_memWriteByte_same {t : State} {m : Memory} {a : Nat} {b : Byte} (hm : t.mem = memWriteByte m a b) :
    t.byteAt a = b :=
  byteAt_of_some (hm ▸ memLookup_writeByte_same m a b)

theorem byteAt_memWriteByte_of_ne {s t : State} {a x : Nat} {b : Byte} (hm : t.mem = memWriteByte s.mem a b)
    (he : t.memEpoch = s.memEpoch) (hx : x ≠ a) : t.byteAt x = s.byteAt x :=
  byteAt_of_lookup (hm ▸ memLookup_writeByte_of_ne s.mem b hx) he

/-- Settles O11, by the two cases of the host write: the address exists or it does not. -/
theorem hostWriteEvent : Obligations.HostWriteEvent := by
  intro s addr b rest h
  have hstep : step s = State.hostStore { s with inbox := rest } addr b := step_of_inbox h
  rw [hstep]
  obtain ⟨hin, e⟩ | ⟨hout, e⟩ := hostStore_cases { s with inbox := rest } addr b
  · exact ⟨fun _ => ⟨_, e, rfl, byteAt_memWriteByte_same rfl, fun _ ha => byteAt_memWriteByte_of_ne rfl rfl ha⟩,
      fun hout => absurd hin (Nat.not_lt.mpr hout)⟩
  · exact ⟨fun hin => absurd hin (Nat.not_lt.mpr hout), fun _ => e⟩

/-! ## What a writer command leaves alone (rules R51, R223, R266) -/

/-- What the writer command `i`, begun in `s` and answered, leaves as it was: all but the writer, and of `MEM` the
bytes outside the window and, unless it is `W.SETAT`, those below the count. -/
structure WriterFrame (s t : State) (i : Instr) : Prop where
  reader : t.r = s.r
  limits : t.lim = s.lim
  epoch : t.memEpoch = s.memEpoch
  parameters : t.params = s.params
  inbox : t.inbox = s.inbox
  answer : ∃ x, t.responses = s.responses ++ [x]
  outside : ∀ a, a < s.w.base.toNat ∨ s.w.base.toNat + s.w.cap.toNat ≤ a → t.byteAt a = s.byteAt a
  below : (∀ p b, i ≠ .wSetAt p b) → ∀ a, a < s.w.base.toNat + s.w.count.toNat → t.byteAt a = s.byteAt a

theorem WriterFrame.of_answer (s : State) (i : Instr) (x : Response) : WriterFrame s (s.respond x) i :=
  ⟨rfl, rfl, rfl, rfl, rfl, ⟨x, rfl⟩, fun _ _ => rfl, fun _ _ _ => rfl⟩

/-- A fault leaves unspecified only bytes of the window at the starting count or above (rule R223). -/
theorem WriterFrame.of_latch (s : State) (i : Instr) (c : Cause) (precise : Bool) :
    WriterFrame s ((s.latchFault .w c precise).respond (failResponse (causeCode c))) i := by
  have h := imprecise_of_latch s .w c precise
  exact {
    reader := h.otherUnit .r (by decide)
    limits := h.limits
    epoch := latchFault_memEpoch s .w c precise
    parameters := h.parameters
    inbox := h.inbox
    answer := ⟨_, h.answer⟩
    outside := fun a ha => h.memory a (by omega)
    below := fun _ a ha => h.memory a (.inr (.inl ha)) }

theorem WriterDone.writerFrame {s t : State} {i : Instr} (h : WriterDone s t i) (x : Response) :
    WriterFrame s (t.respond x) i where
  reader := (congrArg State.r h.frame :)
  limits := (congrArg State.lim h.frame :)
  epoch := (congrArg State.memEpoch h.frame :)
  parameters := (congrArg State.params h.frame :)
  inbox := (congrArg State.inbox h.frame :)
  answer := ⟨x, congrArg (· ++ [x]) (congrArg State.responses h.frame :)⟩
  outside := h.outside
  below := h.below

/-- The frame of a writer command, in each of the four ways it can end. -/
theorem exec_writerFrame {s t : State} {i : Instr} (hs : s.Wf) (hu : unitOf i = some .w) (e : exec i s = .next t) :
    WriterFrame s t i := by
  cases exec_ends hs i with
  | unchanged c hc e' => cases e'.symm.trans e; exact .of_answer s i _
  | refused u hu' hi hf e' => cases e'.symm.trans e; exact .of_answer s i _
  | latched u c precise hu' hi hf hc e' =>
    cases hu.symm.trans hu'
    cases e'.symm.trans e
    exact .of_latch s i c precise
  | completed t' res hd e' =>
    cases e'.symm.trans e
    rw [Done, hu] at hd
    exact WriterDone.writerFrame hd _

/-- Settles O19, from the frame that each way a writer command can end leaves. -/
theorem writerCommandsFrame : Obligations.WriterCommandsFrame := by
  intro s t i hs hu e
  have h := exec_writerFrame hs hu e
  exact ⟨h.reader, h.limits, h.epoch, h.parameters, h.inbox, h.answer, h.outside, h.below⟩

/-! ## The two units apart (rules R63, R231, R237)

A rule of one unit is run twice, in a state and in that state with other registers in the other unit. -/

/-- The two ends of such a rule: the same value with the other unit's registers replaced (which `g` does), or the
same abort, which latches nothing in the unit `v` whose registers were replaced. -/
inductive Beside (v : UnitId) {α : Type} (g : α → α) : Except Abort α → Except Abort α → Prop
  | ok (a : α) : Beside v g (.ok a) (.ok (g a))
  | latch {u : UnitId} (hu : u ≠ v) (c : Cause) (precise : Bool) :
    Beside v g (.error (.latch u c precise)) (.error (.latch u c precise))
  | plain (c : Cause) : Beside v g (.error (.plain c)) (.error (.plain c))
  | missing (addr : Nat) : Beside v g (.error (.missing addr)) (.error (.missing addr))

/-- The replacement in a rule's result and state. -/
def besideResult {α : Type} (v : UnitId) (x : BitUnit) (p : α × State) : α × State := (p.1, p.2.setUnit v x)

/-- The ends of a rule that returns nothing. -/
abbrev StateBeside (v : UnitId) (x : BitUnit) : Except Abort State → Except Abort State → Prop :=
  Beside v (·.setUnit v x)

/-- The ends of a rule that returns a result. -/
abbrev ResultBeside {α : Type} (v : UnitId) (x : BitUnit) :
    Except Abort (α × State) → Except Abort (α × State) → Prop :=
  Beside v (besideResult v x)

theorem Beside.bind {v : UnitId} {α β : Type} {g : α → α} {g' : β → β} {a a' : Except Abort α}
    {f f' : α → Except Abort β} (h : Beside v g a a') (hf : ∀ y, Beside v g' (f y) (f' (g y))) :
    Beside v g' (a.bind f) (a'.bind f') := by
  cases h with
  | ok y => exact hf y
  | latch hu c precise => exact .latch hu c precise
  | plain c => exact .plain c
  | missing addr => exact .missing addr

theorem Beside.map {v : UnitId} {α β : Type} {g : α → α} {g' : β → β} {a a' : Except Abort α} {f : α → β}
    (h : Beside v g a a') (hf : ∀ y, f (g y) = g' (f y)) : Beside v g' (a.map f) (a'.map f) := by
  cases h with
  | ok y =>
    show Beside v g' (.ok (f y)) (.ok (f (g y)))
    rw [hf]
    exact .ok (f y)
  | latch hu c precise => exact .latch hu c precise
  | plain c => exact .plain c
  | missing addr => exact .missing addr

/-- A choice the replaced registers have no part in. -/
theorem Beside.ite {v : UnitId} {α : Type} {g : α → α} {p : Prop} [Decidable p] {a a' b b' : Except Abort α}
    (ha : Beside v g a a') (hb : Beside v g b b') : Beside v g (if p then a else b) (if p then a' else b') := by
  split
  · exact ha
  · exact hb

/-- A rule that first asks for a Limit. -/
theorem Beside.need {v : UnitId} (x : BitUnit) {α : Type} {g : α → α} {a a' : Except Abort α} (s : State)
    (i : LimIdx) (h : Beside v g a a') :
    Beside v g ((needLimit i s).bind fun _ => a) ((needLimit i (s.setUnit v x)).bind fun _ => a') := by
  have hl : needLimit i (s.setUnit v x) = needLimit i s := by cases v <;> rfl
  rw [hl]
  cases hok : (s.limit i).ok
  · rw [needLimit_unset hok]
    exact .plain .limit
  · rw [needLimit_ok hok]
    exact h

/-! ### The writer's rules beside another reader -/

theorem bbWrite_beside (x : BitUnit) (n : Nat) (v : Word64) (s : State) :
    StateBeside .r x (bbWrite .w n v s) (bbWrite .w n v (s.setUnit .r x)) := by
  unfold bbWrite
  exact .ite (.latch (by decide) _ _) (.ite (.ok _) (.missing _))

theorem wPush_beside (x : BitUnit) (n : Count6) (v : Word32) (s : State) :
    StateBeside .r x (wPush n v s) (wPush n v (s.setUnit .r x)) := by
  unfold wPush
  exact .ite ((bbWrite_beside x _ _ s).bind fun _ => .ok _) (.ok _)

theorem writeWhole_beside (x : BitUnit) (wd : Width) (v : Word64) (s : State) :
    StateBeside .r x (writeWhole wd v s) (writeWhole wd v (s.setUnit .r x)) := by
  unfold writeWhole
  exact .ite (bbWrite_beside x _ _ s)
    (.ite (wPush_beside x _ _ s) ((wPush_beside x _ _ s).bind fun t => wPush_beside x _ _ t))

theorem writeIfChanged_beside (x : BitUnit) (wd : Width) (a b : Word64) (s : State) :
    StateBeside .r x (writeIfChanged wd a b s) (writeIfChanged wd a b (s.setUnit .r x)) := by
  unfold writeIfChanged
  exact (wPush_beside x _ _ s).bind fun t => .ite (writeWhole_beside x _ _ t) (.ok t)

theorem flushLoop_beside (x : BitUnit) (fuel : Nat) (s : State) :
    StateBeside .r x (flushLoop fuel s) (flushLoop fuel (s.setUnit .r x)) := by
  induction fuel generalizing s with
  | zero => exact .ok s
  | succ fuel ih =>
    unfold flushLoop
    exact .ite (.ok s) ((bbWrite_beside x _ _ s).bind fun _ => ih _)

theorem flushPending_beside (x : BitUnit) (s : State) :
    StateBeside .r x (flushPending s) (flushPending (s.setUnit .r x)) :=
  (flushLoop_beside x 8 s).bind fun _ => .ok _

theorem setAt_beside (x : BitUnit) (p : Nat) (b : Bool) (s : State) :
    StateBeside .r x (setAt p b s) (setAt p b (s.setUnit .r x)) := by
  unfold setAt bbPatchBit
  exact .ite (.latch (by decide) _ _) (.ite (.latch (by decide) _ _) (.ite (.ite (.ok _) (.missing _)) (.ok _)))

theorem writeLimited_beside (x : BitUnit) (i : LimIdx) (v : Int) (precise : Bool) (s : State) :
    StateBeside .r x (writeLimited i v precise s) (writeLimited i v precise (s.setUnit .r x)) := by
  unfold writeLimited
  exact .ite (.latch (by decide) _ _) (wPush_beside x _ _ s)

theorem writeLimitedIfChanged_beside (x : BitUnit) (la : LimIdx) (u b : Int) (s : State) :
    StateBeside .r x (writeLimitedIfChanged la u b s) (writeLimitedIfChanged la u b (s.setUnit .r x)) := by
  unfold writeLimitedIfChanged
  exact (wPush_beside x _ _ s).bind fun t => .ite (writeLimited_beside x _ _ _ t) (.ok t)

theorem writeDiff_beside (x : BitUnit) (la lb : LimIdx) (u b : Int) (s : State) :
    StateBeside .r x (writeDiff la lb u b s) (writeDiff la lb u b (s.setUnit .r x)) := by
  unfold writeDiff
  refine .ite ((wPush_beside x _ _ s).bind fun t => .ite ?difference ?fullValue) (wPush_beside x _ _ s)
  case difference => exact (wPush_beside x _ _ t).bind fun t' => writeLimited_beside x _ _ _ t'
  case fullValue => exact (wPush_beside x _ _ t).bind fun t' => writeLimited_beside x _ _ _ t'

/-! ### The reader's rules beside another writer -/

theorem readBytes_setUnit (u : UnitId) (x : BitUnit) (s : State) (addr n : Nat) :
    readBytes (s.setUnit u x) addr n = readBytes s addr n := by
  induction n generalizing addr with
  | zero => rfl
  | succ n ih =>
    have hb : (s.setUnit u x).byteAt addr = s.byteAt addr :=
      byteAt_congr (setUnit_mem s u x) (setUnit_memEpoch s u x) addr
    rw [readBytes, readBytes, ih, hb]

theorem bbRead_beside (x : BitUnit) (n : Nat) (s : State) :
    ResultBeside .w x (bbRead .r n s) (bbRead .r n (s.setUnit .w x)) := by
  unfold bbRead
  simp only [readBytes_setUnit]
  exact .ite (.latch (by decide) _ _) (.ite (.ok _) (.missing _))

theorem rRefill_beside (x : BitUnit) (n : Count6) (s : State) :
    StateBeside .w x (rRefill n s) (rRefill n (s.setUnit .w x)) := by
  unfold rRefill
  exact .ite ((bbRead_beside x 4 s).bind fun _ => .ok _) (.ok s)

theorem rPop_beside (x : BitUnit) (n : Count6) (s : State) :
    ResultBeside .w x (rPop n s) (rPop n (s.setUnit .w x)) :=
  (rRefill_beside x n s).bind fun _ => .ok _

theorem popResult_beside (x : BitUnit) (n : Count6) (s : State) :
    ResultBeside .w x (popResult (rPop n s)) (popResult (rPop n (s.setUnit .w x))) :=
  (rPop_beside x n s).map fun _ => rfl

theorem readPattern_beside (x : BitUnit) (wd : Width) (s : State) :
    ResultBeside .w x (readPattern wd s) (readPattern wd (s.setUnit .w x)) := by
  unfold readPattern
  exact .ite (bbRead_beside x _ s) (.ite ((rPop_beside x _ s).bind fun _ => .ok _)
    ((rPop_beside x _ s).bind fun p => (rPop_beside x _ p.2).bind fun _ => .ok _))

theorem readWhole_beside (x : BitUnit) (wd : Width) (sx : Bool) (s : State) :
    ResultBeside .w x (readWhole wd sx s) (readWhole wd sx (s.setUnit .w x)) :=
  (readPattern_beside x wd s).bind fun _ => .ok _

theorem readIfChanged_beside (x : BitUnit) (wd : Width) (sx : Bool) (b : Word64) (s : State) :
    ResultBeside .w x (readIfChanged wd sx b s) (readIfChanged wd sx b (s.setUnit .w x)) := by
  unfold readIfChanged
  exact (rPop_beside x _ s).bind fun p => .ite (readWhole_beside x _ _ p.2) (.ok _)

theorem readLimited_beside (x : BitUnit) (i : LimIdx) (s : State) :
    ResultBeside .w x (readLimited i s) (readLimited i (s.setUnit .w x)) :=
  (rPop_beside x _ s).bind fun _ => .ok _

/-- A limited value as a result. -/
theorem readLimited_result_beside (x : BitUnit) (i : LimIdx) (f : Word32 → Word64) (s : State) :
    ResultBeside .w x ((readLimited i s).bind fun p => .ok (f p.1, p.2))
      ((readLimited i (s.setUnit .w x)).bind fun p => .ok (f p.1, p.2)) :=
  (readLimited_beside x i s).bind fun _ => .ok _

theorem readLimitedIfChanged_beside (x : BitUnit) (la : LimIdx) (b : Word64) (s : State) :
    ResultBeside .w x (readLimitedIfChanged la b s) (readLimitedIfChanged la b (s.setUnit .w x)) := by
  unfold readLimitedIfChanged
  exact (rPop_beside x _ s).bind fun p => .ite (readLimited_result_beside x la _ p.2) (.ok _)

theorem readDiff_beside (x : BitUnit) (la lb : LimIdx) (b : Word64) (s : State) :
    ResultBeside .w x (readDiff la lb b s) (readDiff la lb b (s.setUnit .w x)) := by
  unfold readDiff
  exact (rPop_beside x _ s).bind fun p => .ite (.ok _) ((rPop_beside x _ p.2).bind fun q =>
    .ite (readLimited_result_beside x lb (fun d => sext64 (trunc32 (limitedOperand b + d.toInt))) q.2)
      (readLimited_result_beside x la _ q.2))

/-! ### Commands -/

/-- The two outcomes of a command: the same stop or refusal, or the same next state with the registers of the unit
`v` replaced. -/
def OutcomesBeside (v : UnitId) (x : BitUnit) (o o' : Host.Outcome State Fault Refusal) : Prop :=
  match o with
  | .next t => o' = .next (t.setUnit v x)
  | .fault f => o' = .fault f
  | .refused q => o' = .refused q

theorem respond_setUnit (s : State) (v : UnitId) (x : BitUnit) (y : Response) :
    (s.setUnit v x).respond y = (s.respond y).setUnit v x := by cases v <;> rfl

theorem latchFault_setUnit_of_ne (s : State) {u v : UnitId} (h : u ≠ v) (x : BitUnit) (c : Cause) (precise : Bool) :
    (s.setUnit v x).latchFault u c precise = (s.latchFault u c precise).setUnit v x := by
  cases u <;> cases v
  case w.r | r.w => cases precise <;> rfl
  case w.w | r.r => exact absurd rfl h

theorem answer_beside (s : State) (v : UnitId) (x : BitUnit) (y : Response) :
    OutcomesBeside v x (.next (s.respond y)) (.next ((s.setUnit v x).respond y)) :=
  congrArg _ (respond_setUnit s v x y)

/-- An abort ends the command alike in both runs. -/
theorem complete_error_beside (s : State) {v : UnitId} (x : BitUnit) {α : Type} {g : α → α} {y : Abort}
    {a' : Except Abort α} (h : Beside v g (.error y) a') :
    a' = .error y ∧ OutcomesBeside v x (complete s (.error y)) (complete (s.setUnit v x) (.error y)) := by
  cases h with
  | latch hu c precise =>
    refine ⟨rfl, ?_⟩
    rw [complete_latch, complete_latch, latchFault_setUnit_of_ne s hu]
    exact answer_beside _ v x _
  | plain c => exact ⟨rfl, answer_beside s v x _⟩
  | missing addr => exact ⟨rfl, rfl⟩

theorem Beside.finish {s : State} {v : UnitId} {x : BitUnit} {a a' : Except Abort State}
    (h : StateBeside v x a a') : OutcomesBeside v x (finish s a) (finish (s.setUnit v x) a') := by
  match a with
  | .ok t => cases h; exact answer_beside t v x _
  | .error y =>
    obtain ⟨rfl, ho⟩ := complete_error_beside s x h
    exact ho

theorem Beside.finishWith {s : State} {v : UnitId} {x : BitUnit} {a a' : Except Abort (Word64 × State)}
    (h : ResultBeside v x a a') : OutcomesBeside v x (finishWith s a) (finishWith (s.setUnit v x) a') := by
  match a with
  | .ok p => cases h; exact answer_beside p.2 v x _
  | .error y =>
    obtain ⟨rfl, ho⟩ := complete_error_beside s x h
    exact ho

theorem OutcomesBeside.onUnit {s : State} {u v : UnitId} (hne : u ≠ v) {x : BitUnit}
    {o o' : Host.Outcome State Fault Refusal} (h : OutcomesBeside v x o o') :
    OutcomesBeside v x (onUnit u s o) (onUnit u (s.setUnit v x) o') := by
  unfold Machine.onUnit
  rw [unit_setUnit_of_ne s x hne]
  split
  · exact answer_beside s v x _
  · exact h

theorem OutcomesBeside.withLegalCount {s : State} {v : UnitId} {x : BitUnit}
    {o o' : Host.Outcome State Fault Refusal} (n : Count6) (h : OutcomesBeside v x o o') :
    OutcomesBeside v x (withLegalCount n s o) (withLegalCount n (s.setUnit v x) o') := by
  unfold Machine.withLegalCount
  split
  · exact h
  · exact answer_beside s v x _

/-- A writer command that ends as its rule does, beside another reader. -/
theorem Beside.writerCommand {s : State} {x : BitUnit} {a a' : Except Abort State} (h : StateBeside .r x a a') :
    OutcomesBeside .r x (onUnit .w s (Machine.finish s a))
      (onUnit .w (s.setUnit .r x) (Machine.finish (s.setUnit .r x) a')) :=
  h.finish.onUnit (by decide)

/-- A reader command that ends as its rule does, beside another writer. -/
theorem Beside.readerCommand {s : State} {x : BitUnit} {a a' : Except Abort (Word64 × State)}
    (h : ResultBeside .w x a a') :
    OutcomesBeside .w x (onUnit .r s (Machine.finishWith s a))
      (onUnit .r (s.setUnit .w x) (Machine.finishWith (s.setUnit .w x) a')) :=
  h.finishWith.onUnit (by decide)

theorem bindWindow_beside {u v : UnitId} (hne : u ≠ v) (x : BitUnit) (a b : Word64) (s : State) :
    StateBeside v x (bindWindow u a b s) (bindWindow u a b (s.setUnit v x)) := by
  unfold bindWindow
  cases u <;> cases v
  case w.r | r.w => exact .ite (.plain _) (.ok _)
  case w.w | r.r => exact absurd rfl hne

theorem execWGetArray_beside (x : BitUnit) (s : State) :
    OutcomesBeside .r x (execWGetArray s) (execWGetArray (s.setUnit .r x)) := by
  have h : ResultBeside .r x
      (if s.w.valid ≠ 0 then .error (.latch .w .unflushed true) else .ok (zext64 s.w.base, s))
      (if s.w.valid ≠ 0 then .error (.latch .w .unflushed true) else .ok (zext64 s.w.base, s.setUnit .r x)) :=
    .ite (.latch (by decide) _ _) (.ok _)
  exact h.finishWith.onUnit (by decide)

theorem writer_beside (s : State) (x : BitUnit) {i : Instr} (hu : unitOf i = some .w) :
    OutcomesBeside .r x (exec i s) (exec i (s.setUnit .r x)) := by
  cases i with
  | wBits n a => exact (wPush_beside x n _ s).writerCommand.withLegalCount n
  | wBool a => exact (wPush_beside x 1 _ s).writerCommand
  | wU8 a | wU16 a | wU32 a | wU64 a => exact (writeWhole_beside x _ a s).writerCommand
  | wFlush => exact (flushPending_beside x s).writerCommand
  | wSetAt a b => exact (setAt_beside x _ _ s).writerCommand
  | wBitsCount | wBytesCount => exact (answer_beside s .r x _).onUnit (by decide)
  | wGetArray => exact execWGetArray_beside x s
  | wClear => exact answer_beside { s with w := s.w.startPass } .r x _
  | wSetArray a b => exact (bindWindow_beside (by decide) x a b s).finish
  | wLim la a => exact ((writeLimited_beside x la _ true s).need x s la).writerCommand
  | wChgU8 a b | wChgU16 a b | wChgU32 a b | wChgU64 a b => exact (writeIfChanged_beside x _ a b s).writerCommand
  | wChgLim la a b => exact ((writeLimitedIfChanged_beside x la _ _ s).need x s la).writerCommand
  | wDiff la lb a b => exact (((writeDiff_beside x la lb _ _ s).need x s lb).need x s la).writerCommand
  | _ => cases hu

theorem reader_beside (s : State) (x : BitUnit) {i : Instr} (hu : unitOf i = some .r) :
    OutcomesBeside .w x (exec i s) (exec i (s.setUnit .w x)) := by
  cases i with
  | rBits n => exact (popResult_beside x n s).readerCommand.withLegalCount n
  | rBool => exact (popResult_beside x 1 s).readerCommand
  | rU8 | rU16 | rI16 | rU32 | rI32 | rU64 | rI64 => exact (readWhole_beside x _ _ s).readerCommand
  | rClear => exact answer_beside { s with r := s.r.startPass } .w x _
  | rSetArray a b => exact (bindWindow_beside (by decide) x a b s).finish
  | rLim la => exact ((readLimited_result_beside x la _ s).need x s la).readerCommand
  | rChgU8 b | rChgU16 b | rChgI16 b | rChgU32 b | rChgI32 b | rChgU64 b | rChgI64 b =>
    exact (readIfChanged_beside x _ _ b s).readerCommand
  | rChgLim la b => exact ((readLimitedIfChanged_beside x la b s).need x s la).readerCommand
  | rDiff la lb b => exact (((readDiff_beside x la lb b s).need x s lb).need x s la).readerCommand
  | _ => cases hu

/-- Settles O26: the commands of each unit, run beside any registers of the other. -/
theorem unitsDoNotInterfere : Obligations.UnitsDoNotInterfere :=
  ⟨fun s _ x hu => reader_beside s x hu, fun s _ x hu => writer_beside s x hu⟩

end Sys2Proof.Machine

/-! PROOFS. The encoding family (30_encoding.md). A command is its row and the operands it carries: the
per-instruction family `Laws.Encoding` says that a command is read back from its word (rule R81),
`decodeFields_withOperands` that the opcode map never looks at an operand (rules R82, R85), `decode_isReadFrom` that a
legal word is rebuilt from its command (rule R83), and `decodeFields_eq_none` which words have none (rule R86). -/

namespace Sys2Proof

/-! ## A command is read back from its encoding (rules R81 to R83, R85) -/

section
open Laws.Encoding

/-- The per-instruction family, put together. -/
theorem decodeFields_encode {i : Instr} (h : i.wellFormed = true) :
    decodeFields (encodeFields i) (encodeOperands i).1 (encodeOperands i).2 = some i := by
  revert h
  show Statement i
  exact match i with
  | .limSet la a b => limSet la a b
  | .limGetMin la => limGetMin la
  | .limGetMax la => limGetMax la
  | .limGetBits la => limGetBits la
  | .statRd reg => statRd reg
  | .wBits n a => wBits n a
  | .wBool a => wBool a
  | .wU8 a => wU8 a
  | .wU16 a => wU16 a
  | .wU32 a => wU32 a
  | .wU64 a => wU64 a
  | .wFlush => wFlush
  | .wSetAt a b => wSetAt a b
  | .wBitsCount => wBitsCount
  | .wBytesCount => wBytesCount
  | .wGetArray => wGetArray
  | .wClear => wClear
  | .wSetArray a b => wSetArray a b
  | .wLim la a => wLim la a
  | .wChgU8 a b => wChgU8 a b
  | .wChgU16 a b => wChgU16 a b
  | .wChgU32 a b => wChgU32 a b
  | .wChgU64 a b => wChgU64 a b
  | .wChgLim la a b => wChgLim la a b
  | .wDiff la lb a b => wDiff la lb a b
  | .rBits n => rBits n
  | .rBool => rBool
  | .rU8 => rU8
  | .rU16 => rU16
  | .rI16 => rI16
  | .rU32 => rU32
  | .rI32 => rI32
  | .rU64 => rU64
  | .rI64 => rI64
  | .rClear => rClear
  | .rSetArray a b => rSetArray a b
  | .rLim la => rLim la
  | .rChgU8 b => rChgU8 b
  | .rChgU16 b => rChgU16 b
  | .rChgI16 b => rChgI16 b
  | .rChgU32 b => rChgU32 b
  | .rChgI32 b => rChgI32 b
  | .rChgU64 b => rChgU64 b
  | .rChgI64 b => rChgI64 b
  | .rChgLim la b => rChgLim la b
  | .rDiff la lb b => rDiff la lb b

end

/-- The encoder leaves the reserved bits zero (rule R82 point 1). -/
theorem encodeFields_zero (i : Instr) : (encodeFields i).zero = 0 := by cases i <;> rfl

theorem fieldsOf_encode (i : Instr) : fieldsOf (encode i).cmd = encodeFields i := fieldsOf_packFields _

/-- Settles O1: the word gives back its fields, and the fields and operands give back the command. -/
theorem decodeEncodeAgree : Obligations.DecodeEncodeAgree := fun i h =>
  (decode_of_fields (fieldsOf_encode i) (encodeFields_zero i) _ _).trans (decodeFields_encode h)

/-! ## The operands a command carries (rule R85) -/

/-- The command with the operands it carries replaced by those presented; one it ignores stays out of it. -/
def Instr.withOperands (a b : Word64) : Instr → Instr
  | .limSet la _ _ => .limSet la a b
  | .wBits n _ => .wBits n a
  | .wBool _ => .wBool a
  | .wU8 _ => .wU8 a
  | .wU16 _ => .wU16 a
  | .wU32 _ => .wU32 a
  | .wU64 _ => .wU64 a
  | .wSetAt _ _ => .wSetAt a b
  | .wSetArray _ _ => .wSetArray a b
  | .wLim la _ => .wLim la a
  | .wChgU8 _ _ => .wChgU8 a b
  | .wChgU16 _ _ => .wChgU16 a b
  | .wChgU32 _ _ => .wChgU32 a b
  | .wChgU64 _ _ => .wChgU64 a b
  | .wChgLim la _ _ => .wChgLim la a b
  | .wDiff la lb _ _ => .wDiff la lb a b
  | .rSetArray _ _ => .rSetArray a b
  | .rChgU8 _ => .rChgU8 b
  | .rChgU16 _ => .rChgU16 b
  | .rChgI16 _ => .rChgI16 b
  | .rChgU32 _ => .rChgU32 b
  | .rChgI32 _ => .rChgI32 b
  | .rChgU64 _ => .rChgU64 b
  | .rChgI64 _ => .rChgI64 b
  | .rChgLim la _ => .rChgLim la b
  | .rDiff la lb _ => .rDiff la lb b
  | i => i

/-- Neither operand has a part in the row of a command. -/
theorem tableRow_withOperands (a b : Word64) (i : Instr) : tableRow (i.withOperands a b) = tableRow i := by
  cases i <;> rfl

/-- The operand `A` a command is encoded with is the one presented, or the command does not carry it. -/
theorem operandA_carried_or_ignored (a b : Word64) (i : Instr) :
    (encodeOperands (i.withOperands a b)).1 = a ∨ ∀ x, i.withOperands x b = i.withOperands a b := by
  cases i with
  | limSet | wBits | wBool | wU8 | wU16 | wU32 | wU64 | wSetAt | wSetArray | wLim | wChgU8 | wChgU16 | wChgU32
  | wChgU64 | wChgLim | wDiff | rSetArray => exact .inl rfl
  | _ => exact .inr fun _ => rfl

/-- The operand `B` a command is encoded with is the one presented, or the command does not carry it. -/
theorem operandB_carried_or_ignored (a b : Word64) (i : Instr) :
    (encodeOperands (i.withOperands a b)).2 = b ∨ ∀ x, i.withOperands a x = i.withOperands a b := by
  cases i with
  | limSet | wSetAt | wSetArray | wChgU8 | wChgU16 | wChgU32 | wChgU64 | wChgLim | wDiff | rSetArray | rChgU8
  | rChgU16 | rChgI16 | rChgU32 | rChgI32 | rChgU64 | rChgI64 | rChgLim | rDiff => exact .inl rfl
  | _ => exact .inr fun _ => rfl

theorem withFormat_map (u : Uses) (f : Fields) (x : Option Instr) (g : Instr → Instr) :
    (withFormat u f x).map g = withFormat u f (x.map g) := by
  unfold withFormat
  split <;> rfl

theorem withCount_map (n : Count6) (i : Instr) (g : Instr → Instr) :
    (withCount n i).map g = withCount n (g i) := by
  unfold withCount
  split <;> rfl

/-- The selectors of the sub-maps of rule R83 whose commands carry no operand. -/
theorem limGet_withOperands (n : BitVec 6) (la : LimIdx) (a b : Word64) :
    (limGet n la).map (·.withOperands a b) = limGet n la := by
  unfold limGet
  split <;> rfl

theorem statRd_withOperands (x : Option StatReg) (a b : Word64) :
    (x.map Instr.statRd).map (·.withOperands a b) = x.map Instr.statRd := by
  cases x <;> rfl

theorem readWholeOf_withOperands (wd : BitVec 2) (sx : BitVec 1) (a b : Word64) :
    (readWholeOf wd sx).map (·.withOperands a b) = readWholeOf wd sx := by
  unfold readWholeOf
  split <;> rfl

/-- The width codes of the sub-maps whose commands carry operands. -/
theorem writeWholeOf_withOperands (wd : BitVec 2) (a a' b' : Word64) :
    (writeWholeOf wd a).map (·.withOperands a' b') = writeWholeOf wd a' := by
  unfold writeWholeOf
  split <;> rfl

theorem writeChangedOf_withOperands (wd : BitVec 2) (a b a' b' : Word64) :
    (writeChangedOf wd a b).map (·.withOperands a' b') = writeChangedOf wd a' b' := by
  unfold writeChangedOf
  split <;> rfl

theorem readChangedOf_withOperands (wd : BitVec 2) (sx : BitVec 1) (b a' b' : Word64) :
    (readChangedOf wd sx b).map (·.withOperands a' b') = readChangedOf wd sx b' := by
  unfold readChangedOf
  split <;> rfl

/-- The opcode map reads the fields alone: other operands give the same command with those operands. -/
theorem decodeFields_withOperands (f : Fields) (a b a' b' : Word64) :
    (decodeFields f a b).map (·.withOperands a' b') = decodeFields f a' b' := by
  unfold decodeFields
  split
  case h_27 => rfl
  all_goals simp only [withFormat_map, withCount_map, limGet_withOperands, statRd_withOperands,
    readWholeOf_withOperands, writeWholeOf_withOperands, writeChangedOf_withOperands, readChangedOf_withOperands]
  all_goals rfl

theorem decode_withOperands (cmd : Word32) (a b a' b' : Word64) :
    (decode ⟨cmd, a, b⟩).map (·.withOperands a' b') = decode ⟨cmd, a', b'⟩ := by
  unfold decode
  dsimp only
  split
  · exact decodeFields_withOperands _ a b a' b'
  · rfl

/-- Settles O5: with other operands a word decodes to the same command but for the operands, which no row names. -/
theorem decodingLooksOnlyAtTheWord : Obligations.DecodingLooksOnlyAtTheWord := by
  intro cmd a b a' b'
  rw [← decode_withOperands cmd a b a' b', Option.map_map]
  exact congrArg (Option.map · _) (funext fun i => (tableRow_withOperands a' b' i).symm)

/-- The word of a well-formed command decodes, with any operands, to that command with those operands. -/
theorem decode_of_word {cmd : Word32} {i : Instr} (h : i.wellFormed = true) (hc : (encode i).cmd = cmd)
    (a b : Word64) : decode ⟨cmd, a, b⟩ = some (i.withOperands a b) := by
  subst hc
  rw [← decode_withOperands _ (encodeOperands i).1 (encodeOperands i).2 a b]
  exact congrArg (Option.map _) (decodeEncodeAgree i h)

/-- Settles O6: each word is that of a command, whose operands are then those presented. -/
theorem workedEncodingsDecode : Obligations.WorkedEncodingsDecode := fun u v b x y =>
  ⟨decode_of_word (i := .limSet 0 0 0) rfl rfl _ _, decode_of_word (i := .limSet 1 0 0) rfl rfl _ _,
    decode_of_word (i := .limGetBits 1) rfl rfl x y, decode_of_word (i := .statRd .wCount) rfl rfl x y,
    decode_of_word (i := .wBits 11 0) rfl rfl _ y, decode_of_word (i := .wBits 32 0) rfl rfl _ y,
    decode_of_word (i := .wU16 0) rfl rfl _ y, decode_of_word (i := .wU64 0) rfl rfl v y,
    decode_of_word (i := .wSetAt 0 0) rfl rfl _ _, decode_of_word (i := .wSetArray 0 0) rfl rfl _ _,
    decode_of_word (i := .wLim 0 0) rfl rfl _ y, decode_of_word (i := .wChgU16 0 0) rfl rfl u b,
    decode_of_word (i := .wDiff 0 1 0 0) rfl rfl _ _, decode_of_word (i := .rBits 11) rfl rfl x y,
    decode_of_word (i := .rI16) rfl rfl x y, decode_of_word (i := .rU64) rfl rfl x y,
    decode_of_word (i := .rChgI32 0) rfl rfl x b, decode_of_word (i := .rDiff 0 1 0) rfl rfl x _⟩

/-! ## A legal word is rebuilt from its command (rules R82, R83) -/

/-- The word of opcode `op` whose other fields are those of `f` that the format uses. -/
def Uses.keep (u : Uses) (op : Nat) (f : Fields) : Fields :=
  wordFields (BitVec.ofNat 8 op) (bif u.n then f.n else 0) (bif u.wd then f.wd else 0) (bif u.la then f.la else 0)
    (bif u.lb then f.lb else 0) (bif u.sx then f.sx else 0)

theorem eq_ofNat_of_toNat {w k : Nat} {x : BitVec w} (h : x.toNat = k) : x = BitVec.ofNat w k := by
  rw [← h, BitVec.ofNat_toNat, BitVec.setWidth_eq]

/-- The fields are those of a word of opcode `op` in the format: the others are zero (rule R82 points 1 and 3). -/
theorem keep_eq_of_unusedZero {u : Uses} {f : Fields} {op : Nat} (hop : f.op.toNat = op)
    (hu : unusedZero u f = true) (hz : f.zero = 0) : u.keep op f = f := by
  obtain ⟨fop, n, wd, la, lb, sx, zero⟩ := f
  obtain rfl : fop = BitVec.ofNat 8 op := eq_ofNat_of_toNat hop
  have keep_field : ∀ {k : Nat} {used : Bool} {x : BitVec k}, (used || x == 0) = true →
      (bif used then x else 0) = x := by
    intro k used x h
    cases used
    · exact (eq_of_beq h).symm
    · rfl
  simp only [unusedZero, Bool.and_eq_true] at hu
  obtain ⟨⟨⟨⟨hn, hwd⟩, hla⟩, hlb⟩, hsx⟩ := hu
  simp only [Uses.keep, wordFields, keep_field hn, keep_field hwd, keep_field hla, keep_field hlb, keep_field hsx]
  exact congrArg (Fields.mk _ n wd la lb sx) hz.symm

/-- A command is read from these fields: it is well formed and is encoded with them. -/
def IsReadFrom (i : Instr) (f : Fields) : Prop := i.wellFormed = true ∧ encodeFields i = f

theorem statNumber_of_statReg {n : BitVec 6} {reg : StatReg} (h : statReg n = some reg) : statNumber reg = n := by
  revert n
  cases reg <;> decide

theorem statRd_isReadFrom {n : BitVec 6} {i : Instr} (h : (statReg n).map .statRd = some i) :
    IsReadFrom i (wordFields 0x03 (n := n)) := by
  obtain ⟨reg, hreg, rfl⟩ := Option.map_eq_some_iff.mp h
  rw [← statNumber_of_statReg hreg]
  exact ⟨rfl, rfl⟩

theorem withCount_eq_some {n : Count6} {x i : Instr} : withCount n x = some i ↔ bitCountOk n = true ∧ x = i := by
  unfold withCount
  split
  · rename_i h; simp [h]
  · rename_i h; simp [h]

theorem limGet_isReadFrom {n : BitVec 6} {la : LimIdx} {i : Instr} (h : limGet n la = some i) :
    IsReadFrom i (wordFields 0x02 (n := n) (la := la)) := by
  unfold limGet at h
  split at h
  case h_4 => cases h
  all_goals
    next hn =>
    obtain rfl := eq_ofNat_of_toNat hn
    cases h
    exact ⟨rfl, rfl⟩

theorem width_code_cases (wd : BitVec 2) : wd = 0 ∨ wd = 1 ∨ wd = 2 ∨ wd = 3 := by
  revert wd
  decide

theorem sign_code_cases (sx : BitVec 1) : sx = 0 ∨ sx = 1 := by
  revert sx
  decide

theorem writeWholeOf_isReadFrom {wd : BitVec 2} {a : Word64} {i : Instr} (h : writeWholeOf wd a = some i) :
    IsReadFrom i (wordFields 0x12 (wd := wd)) := by
  obtain rfl | rfl | rfl | rfl := width_code_cases wd
  all_goals
    cases h
    exact ⟨rfl, rfl⟩

theorem writeChangedOf_isReadFrom {wd : BitVec 2} {a b : Word64} {i : Instr} (h : writeChangedOf wd a b = some i) :
    IsReadFrom i (wordFields 0x1B (wd := wd)) := by
  obtain rfl | rfl | rfl | rfl := width_code_cases wd
  all_goals
    cases h
    exact ⟨rfl, rfl⟩

/-- Of the eight pairs of codes the map has seven. -/
theorem readWholeOf_isReadFrom {wd : BitVec 2} {sx : BitVec 1} {i : Instr} (h : readWholeOf wd sx = some i) :
    IsReadFrom i (wordFields 0x22 (wd := wd) (sx := sx)) := by
  obtain rfl | rfl := sign_code_cases sx <;> obtain rfl | rfl | rfl | rfl := width_code_cases wd
  case inr.inl => cases h
  all_goals
    cases h
    exact ⟨rfl, rfl⟩

theorem readChangedOf_isReadFrom {wd : BitVec 2} {sx : BitVec 1} {b : Word64} {i : Instr}
    (h : readChangedOf wd sx b = some i) : IsReadFrom i (wordFields 0x2B (wd := wd) (sx := sx)) := by
  obtain rfl | rfl := sign_code_cases sx <;> obtain rfl | rfl | rfl | rfl := width_code_cases wd
  case inr.inl => cases h
  all_goals
    cases h
    exact ⟨rfl, rfl⟩

/-- An arm of the opcode map: what holds of the word in the arm's format holds of the word. -/
theorem IsReadFrom.of_format {u : Uses} {f : Fields} {op : Nat} {x : Option Instr} {i : Instr}
    (h : withFormat u f x = some i) (hz : f.zero = 0) (hop : f.op.toNat = op)
    (hx : x = some i → IsReadFrom i (u.keep op f)) : IsReadFrom i f := by
  obtain ⟨hu, e⟩ := withFormat_eq_some.mp h
  rw [← keep_eq_of_unusedZero hop hu hz]
  exact hx e

/-- An arm with one row. -/
theorem IsReadFrom.of_row {u : Uses} {f : Fields} {op : Nat} {i i' : Instr} (h : withFormat u f (some i') = some i)
    (hz : f.zero = 0) (hop : f.op.toNat = op) (hw : i'.wellFormed = true) (he : encodeFields i' = u.keep op f) :
    IsReadFrom i f :=
  of_format h hz hop fun e => Option.some.inj e ▸ ⟨hw, he⟩

/-- An arm for a bit count (rule R86). -/
theorem IsReadFrom.of_count {u : Uses} {f : Fields} {op : Nat} {n : Count6} {i i' : Instr}
    (h : withFormat u f (withCount n i') = some i) (hz : f.zero = 0) (hop : f.op.toNat = op)
    (hw : i'.wellFormed = bitCountOk n) (he : encodeFields i' = u.keep op f) : IsReadFrom i f :=
  of_format h hz hop fun e => by
    obtain ⟨hn, rfl⟩ := withCount_eq_some.mp e
    exact ⟨hw.trans hn, he⟩

/-- A command read from the opcode map is well formed and is encoded with the fields it was read from. -/
theorem decodeFields_isReadFrom {f : Fields} {a b : Word64} {i : Instr} (h : decodeFields f a b = some i)
    (hz : f.zero = 0) : IsReadFrom i f := by
  unfold decodeFields at h
  split at h
  case h_2 hop => exact .of_format h hz hop limGet_isReadFrom
  case h_3 hop => exact .of_format h hz hop statRd_isReadFrom
  case h_4 hop => exact .of_count h hz hop rfl rfl
  case h_6 hop => exact .of_format h hz hop writeWholeOf_isReadFrom
  case h_15 hop => exact .of_format h hz hop writeChangedOf_isReadFrom
  case h_18 hop => exact .of_count h hz hop rfl rfl
  case h_20 hop => exact .of_format h hz hop readWholeOf_isReadFrom
  case h_24 hop => exact .of_format h hz hop readChangedOf_isReadFrom
  case h_27 => cases h
  all_goals
    next hop => exact .of_row h hz hop rfl rfl

/-- A legal word is that of its command, which is well formed. -/
theorem decode_isReadFrom {c : Command} {i : Instr} (h : decode c = some i) :
    i.wellFormed = true ∧ c.cmd = (encode i).cmd := by
  obtain ⟨hz, h⟩ := decode_eq_some.mp h
  obtain ⟨hw, he⟩ := decodeFields_isReadFrom h hz
  refine ⟨hw, ?_⟩
  rw [← packFields_fieldsOf c.cmd, ← he]
  rfl

/-- Settles O2: the word is rebuilt from the command, and each operand is one the command carries or ignores. -/
theorem decodedWordIsItsEncoding : Obligations.DecodedWordIsItsEncoding := by
  intro c i h
  obtain ⟨hw, hc⟩ := decode_isReadFrom h
  have hdec : ∀ x y, decode ⟨c.cmd, x, y⟩ = some (i.withOperands x y) := decode_of_word hw hc.symm
  have hself : i.withOperands c.a c.b = i := Option.some.inj ((hdec c.a c.b).symm.trans h)
  have hA := operandA_carried_or_ignored c.a c.b i
  have hB := operandB_carried_or_ignored c.a c.b i
  rw [hself] at hA hB
  refine ⟨hw, hc, ?_, hA.imp_right fun hx x => ?_, hB.imp_right fun hx x => ?_⟩
  · rw [hc]
    exact decodeEncodeAgree i hw
  · rw [hdec, hx]
  · rw [hdec, hx]

/-! ## The rows of spec/opcode_table.json (rule R83) -/

/-- The row of every command, one for each constructor. -/
def tableRows : List (Word32 × Word32) :=
  [.limSet 0 0 0, .limGetMin 0, .limGetMax 0, .limGetBits 0, .statRd .cfg, .wBits 0 0, .wBool 0, .wU8 0, .wU16 0,
    .wU32 0, .wU64 0, .wFlush, .wSetAt 0 0, .wBitsCount, .wBytesCount, .wGetArray, .wClear, .wSetArray 0 0, .wLim 0 0,
    .wChgU8 0 0, .wChgU16 0 0, .wChgU32 0 0, .wChgU64 0 0, .wChgLim 0 0 0, .wDiff 0 0 0 0, .rBits 0, .rBool, .rU8,
    .rU16, .rI16, .rU32, .rI32, .rU64, .rI64, .rClear, .rSetArray 0 0, .rLim 0, .rChgU8 0, .rChgU16 0, .rChgI16 0,
    .rChgU32 0, .rChgI32 0, .rChgU64 0, .rChgI64 0, .rChgLim 0 0, .rDiff 0 0 0].map tableRow

theorem tableRow_mem_tableRows (i : Instr) : tableRow i ∈ tableRows := by
  cases i <;> exact List.mem_of_elem_eq_true rfl

/-- No two rows have patterns that agree on the bits both masks keep. -/
theorem tableRows_apart : tableRows.Pairwise fun r r' => r.2 &&& r'.1 ≠ r'.2 &&& r.1 := by decide

theorem tableRow_eq_of_agree {r r' : Word32 × Word32} (hr : r ∈ tableRows) (hr' : r' ∈ tableRows)
    (h : r.2 &&& r'.1 = r'.2 &&& r.1) : r = r' :=
  List.Pairwise.forall_of_forall_of_flip (R := fun x y => x.2 &&& y.1 = y.2 &&& x.1 → x = y) (fun _ _ _ => rfl)
    (tableRows_apart.imp fun hne e => absurd e hne) (tableRows_apart.imp fun hne e => absurd e.symm hne) hr hr' h

/-- A word matches the rows of one command only. -/
theorem tableRow_eq_of_matches {w : Word32} {i j : Instr} (hi : w &&& (tableRow i).1 = (tableRow i).2)
    (hj : w &&& (tableRow j).1 = (tableRow j).2) : tableRow j = tableRow i := by
  refine tableRow_eq_of_agree (tableRow_mem_tableRows j) (tableRow_mem_tableRows i) ?_
  rw [← hi, ← hj, BitVec.and_assoc, BitVec.and_assoc, BitVec.and_comm (tableRow j).1]

/-- Fields are masked one by one. -/
theorem packFields_and (f g : Fields) : packFields f &&& packFields g =
    packFields ⟨f.op &&& g.op, f.n &&& g.n, f.wd &&& g.wd, f.la &&& g.la, f.lb &&& g.lb, f.sx &&& g.sx,
      f.zero &&& g.zero⟩ := by
  rw [← packFields_fieldsOf (packFields f &&& packFields g)]
  congr 1
  have hf := fieldsOf_packFields f
  have hg := fieldsOf_packFields g
  obtain ⟨op, n, wd, la, lb, sx, z⟩ := f
  obtain ⟨op', n', wd', la', lb', sx', z'⟩ := g
  simp only [fieldsOf, BitVec.extractLsb'_and, Fields.mk.injEq] at hf hg ⊢
  simp only [hf, hg, and_self]

/-- A mask with zeros for the fields that vary over the row, and ones elsewhere. -/
def rowMask (n : BitVec 6) (la lb : BitVec 4) : Word32 :=
  packFields ⟨BitVec.allOnes 8, n, BitVec.allOnes 2, la, lb, BitVec.allOnes 1, BitVec.allOnes 7⟩

theorem packFields_and_rowMask (f : Fields) (n : BitVec 6) (la lb : BitVec 4) :
    packFields f &&& rowMask n la lb = packFields { f with n := f.n &&& n, la := f.la &&& la, lb := f.lb &&& lb } := by
  rw [rowMask, packFields_and]
  simp only [BitVec.and_allOnes]

/-- The rows whose words differ in `n`. -/
theorem and_mask_of_n (op : BitVec 8) (n : BitVec 6) :
    packFields (wordFields op (n := n)) &&& 0xFFFFC0FF = packFields (wordFields op) := by
  refine (packFields_and_rowMask _ 0#6 (BitVec.allOnes 4) (BitVec.allOnes 4)).trans ?_
  rw [BitVec.and_allOnes, BitVec.and_allOnes, BitVec.and_zero]
  rfl

/-- The rows whose words differ in `la`. -/
theorem and_mask_of_la (op : BitVec 8) (n : BitVec 6) (la : BitVec 4) :
    packFields (wordFields op (n := n) (la := la)) &&& 0xFFF0FFFF = packFields (wordFields op (n := n)) := by
  refine (packFields_and_rowMask _ (BitVec.allOnes 6) 0#4 (BitVec.allOnes 4)).trans ?_
  rw [BitVec.and_allOnes, BitVec.and_allOnes, BitVec.and_zero]
  rfl

/-- The rows whose words differ in `la` and `lb`. -/
theorem and_mask_of_la_lb (op : BitVec 8) (la lb : BitVec 4) :
    packFields (wordFields op (la := la) (lb := lb)) &&& 0xFF00FFFF = packFields (wordFields op) := by
  refine (packFields_and_rowMask _ (BitVec.allOnes 6) 0#4 0#4).trans ?_
  rw [BitVec.and_allOnes, BitVec.and_zero, BitVec.and_zero]
  rfl

/-- The word of a command matches the command's row. -/
theorem encode_and_mask (i : Instr) : (encode i).cmd &&& (tableRow i).1 = (tableRow i).2 := by
  cases i with
  | statRd reg => exact and_mask_of_n 0x03 (statNumber reg)
  | wBits n => exact and_mask_of_n 0x10 n
  | rBits n => exact and_mask_of_n 0x20 n
  | limSet la => exact and_mask_of_la 0x01 0 la
  | limGetMin la => exact and_mask_of_la 0x02 0 la
  | limGetMax la => exact and_mask_of_la 0x02 1 la
  | limGetBits la => exact and_mask_of_la 0x02 2 la
  | wLim la => exact and_mask_of_la 0x1A 0 la
  | wChgLim la => exact and_mask_of_la 0x1C 0 la
  | rLim la => exact and_mask_of_la 0x2A 0 la
  | rChgLim la => exact and_mask_of_la 0x2C 0 la
  | wDiff la lb => exact and_mask_of_la_lb 0x1D la lb
  | rDiff la lb => exact and_mask_of_la_lb 0x2D la lb
  | _ =>
    dsimp only [encode, encodeFields, tableRow]
    rfl

/-- Settles O3: the word is its command's encoding, which matches the command's row, and the rows are apart. -/
theorem decodingMatchesOneRow : Obligations.DecodingMatchesOneRow := by
  intro c i h
  obtain ⟨-, hc⟩ := decode_isReadFrom h
  have hi : c.cmd &&& (tableRow i).1 = (tableRow i).2 := hc ▸ encode_and_mask i
  exact ⟨hi, fun _ hj => tableRow_eq_of_matches hi hj⟩

/-! ## The illegal words (rule R86) -/

/-- The clauses of rule R86 about the fields of a word whose reserved bits are zero. -/
def IllegalFields (f : Fields) : Prop :=
  ¬ ((0x01 ≤ f.op.toNat ∧ f.op.toNat ≤ 0x03) ∨ (0x10 ≤ f.op.toNat ∧ f.op.toNat ≤ 0x1D) ∨
    (0x20 ≤ f.op.toNat ∧ f.op.toNat ≤ 0x22) ∨ (0x28 ≤ f.op.toNat ∧ f.op.toNat ≤ 0x2D)) ∨
  (f.n.toNat ≠ 0 ∧ f.op.toNat ∉ [0x02, 0x03, 0x10, 0x20]) ∨
  (f.wd.toNat ≠ 0 ∧ f.op.toNat ∉ [0x12, 0x1B, 0x22, 0x2B]) ∨
  (f.la.toNat ≠ 0 ∧ f.op.toNat ∉ [0x01, 0x02, 0x1A, 0x1C, 0x1D, 0x2A, 0x2C, 0x2D]) ∨
  (f.lb.toNat ≠ 0 ∧ f.op.toNat ∉ [0x1D, 0x2D]) ∨
  (f.sx.toNat ≠ 0 ∧ f.op.toNat ∉ [0x22, 0x2B]) ∨
  (32 < f.n.toNat ∧ f.op.toNat ∈ [0x10, 0x20]) ∨
  (f.n.toNat ∉ [0, 1, 2] ∧ f.op.toNat = 0x02) ∨
  (f.n.toNat ∉ [0, 1, 8, 9, 10, 11, 12, 16, 17, 18, 19, 20] ∧ f.op.toNat = 0x03) ∨
  (f.wd.toNat = 0 ∧ f.sx.toNat = 1 ∧ f.op.toNat ∈ [0x22, 0x2B])

/-- A format refuses a word with a field it does not use, and what its arm of the map refuses. -/
theorem withFormat_eq_none (u : Uses) (f : Fields) (x : Option Instr) : withFormat u f x = none ↔
    (u.n = false ∧ f.n.toNat ≠ 0) ∨ (u.wd = false ∧ f.wd.toNat ≠ 0) ∨ (u.la = false ∧ f.la.toNat ≠ 0) ∨
      (u.lb = false ∧ f.lb.toNat ≠ 0) ∨ (u.sx = false ∧ f.sx.toNat ≠ 0) ∨ x = none := by
  have beq_zero : ∀ {k : Nat} (y : BitVec k), (y == 0) = false ↔ y.toNat ≠ 0 := by
    intro k y
    rw [beq_eq_false_iff_ne, ne_eq, ← BitVec.toNat_inj]
    rfl
  have hif : withFormat u f x = none ↔ unusedZero u f = false ∨ x = none := by
    unfold withFormat
    cases unusedZero u f <;> simp
  simp only [hif, unusedZero, Bool.and_eq_false_iff, Bool.or_eq_false_iff, beq_zero, or_assoc]

theorem statReg_eq_none (n : BitVec 6) : statReg n = none ↔
    n.toNat ∉ [0, 1, 8, 9, 10, 11, 12, 16, 17, 18, 19, 20] := by
  revert n
  decide

theorem limGet_eq_none (n : BitVec 6) (la : LimIdx) : limGet n la = none ↔ n.toNat ∉ [0, 1, 2] := by
  unfold limGet
  split <;> simp_all

theorem withCount_eq_none (n : Count6) (i : Instr) : withCount n i = none ↔ 32 < n.toNat := by
  unfold withCount bitCountOk
  split <;> simp_all

theorem writeWholeOf_ne_none (wd : BitVec 2) (a : Word64) : writeWholeOf wd a ≠ none := by
  unfold writeWholeOf
  split <;> exact Option.some_ne_none _

theorem writeChangedOf_ne_none (wd : BitVec 2) (a b : Word64) : writeChangedOf wd a b ≠ none := by
  unfold writeChangedOf
  split <;> exact Option.some_ne_none _

theorem readWholeOf_eq_none (wd : BitVec 2) (sx : BitVec 1) :
    readWholeOf wd sx = none ↔ wd.toNat = 0 ∧ sx.toNat = 1 := by
  revert wd sx
  decide

theorem readChangedOf_eq_none (wd : BitVec 2) (sx : BitVec 1) (b : Word64) :
    readChangedOf wd sx b = none ↔ wd.toNat = 0 ∧ sx.toNat = 1 := by
  obtain rfl | rfl := sign_code_cases sx <;> obtain rfl | rfl | rfl | rfl := width_code_cases wd
  all_goals simp [readChangedOf]

/-- The opcode map has no command for the fields exactly when a clause of rule R86 names them: with the opcode of an
arm, the clauses left are those of the arm's format and selector. -/
theorem decodeFields_eq_none (f : Fields) (a b : Word64) : decodeFields f a b = none ↔ IllegalFields f := by
  unfold decodeFields IllegalFields
  split
  case h_27 =>
    refine iff_of_true rfl (.inl ?_)
    simp only [imp_false] at *
    omega
  all_goals
    next hop =>
    simp [hop, withFormat_eq_none, statReg_eq_none, limGet_eq_none, withCount_eq_none,
      writeWholeOf_ne_none, writeChangedOf_ne_none, readWholeOf_eq_none, readChangedOf_eq_none, formatF0, formatFL,
      formatFLN, formatFN, formatFTw, formatFTr, formatFLL]

theorem decode_eq_none {c : Command} : decode c = none ↔
    (c.cmd.extractLsb' 25 7).toNat ≠ 0 ∨ IllegalFields (fieldsOf c.cmd) := by
  rw [← decodeFields_eq_none _ c.a c.b]
  show (if (fieldsOf c.cmd).zero = 0 then _ else none) = none ↔ (fieldsOf c.cmd).zero.toNat ≠ 0 ∨ _
  split
  · rename_i hz
    simp [hz]
  · rename_i hz
    exact iff_of_true rfl (.inl fun h => hz (eq_ofNat_of_toNat h))

end Sys2Proof

namespace Sys2Proof.Machine

/-! ## The command port (rules R80, R118, R228) -/

theorem runCommand_of_illegal {c : Command} (h : decode c = none) (s : State) : runCommand c s = answerIllegal s := by
  rw [runCommand, h]

theorem runCommand_of_decode {c : Command} {i : Instr} (h : decode c = some i) (s : State) :
    runCommand c s = exec i s := by
  rw [runCommand, h]

/-- Settles O4: the clauses are those of the opcode map, and an illegal word gets the answer of rule R228. -/
theorem illegalWords : Obligations.IllegalWords :=
  fun _ => ⟨decode_eq_none, fun h => runCommand_of_illegal (decode_eq_none.mpr h)⟩

/-- Settles O8: the step takes the head of the inbox, which is the command, and runs what it decodes to. -/
theorem stepRunsTheDecodedCommand : Obligations.StepRunsTheDecodedCommand :=
  ⟨fun _ _ _ _ hin h => (step_of_inbox hin).trans (runCommand_of_decode h _),
    fun s _ _ _ h => (step_of_inbox (present_inbox s _)).trans (runCommand_of_decode h _)⟩

/-! ## The slice of an operand a command takes (rule R85) -/

theorem setWidth_eq_of_mod {k : Nat} {a a' : Word64} (h : a.toNat % 2 ^ k = a'.toNat % 2 ^ k) :
    a.setWidth k = a'.setWidth k :=
  BitVec.eq_of_toNat_eq (by rwa [BitVec.toNat_setWidth, BitVec.toNat_setWidth])

theorem low32_eq_of_mod {a a' : Word64} (h : a.toNat % 2 ^ 32 = a'.toNat % 2 ^ 32) : low32 a = low32 a' :=
  BitVec.eq_of_toNat_eq (by simpa [low32] using h)

theorem limitedOperand_eq_of_mod {a a' : Word64} (h : a.toNat % 2 ^ 32 = a'.toNat % 2 ^ 32) :
    limitedOperand a = limitedOperand a' :=
  congrArg BitVec.toInt (low32_eq_of_mod h)

theorem boolOperand_eq_of_mod {a a' : Word64} (h : a.toNat % 2 = a'.toNat % 2) : boolOperand a = boolOperand a' := by
  simp only [boolOperand, BitVec.getLsbD, Nat.testBit_zero, h]

/-- `WPush` takes the low `n` bits of its value (rule R112). -/
theorem wPush_congr {n : Count6} {v v' : Word32} (h : v &&& mask n = v' &&& mask n) (s : State) :
    wPush n v s = wPush n v' s := by
  unfold wPush
  rw [h]

theorem low32_and_mask_of_mod {n : Count6} (hn : n.toNat ≤ 32) {a a' : Word64}
    (h : a.toNat % 2 ^ n.toNat = a'.toNat % 2 ^ n.toNat) : low32 a &&& mask n = low32 a' &&& mask n := by
  refine BitVec.eq_of_getLsbD_eq fun i hi => ?_
  have hbit := congrArg (Nat.testBit · i) h
  simp only [Nat.testBit_mod_two_pow, BitVec.testBit_toNat] at hbit
  simp only [BitVec.getLsbD_and, getLsbD_low32, getLsbD_mask hn, Bool.and_assoc]
  rw [Bool.and_comm (a.getLsbD i), Bool.and_comm (a'.getLsbD i), hbit]

section
variable {wd : Width} {a a' b b' : Word64} (ha : a.toNat % 2 ^ widthBits wd = a'.toNat % 2 ^ widthBits wd)
  (hb : b.toNat % 2 ^ widthBits wd = b'.toNat % 2 ^ widthBits wd)

include ha in
theorem writeWhole_eq_of_mod (s : State) : writeWhole wd a s = writeWhole wd a' s := by
  have hop : wholeOperand wd a = wholeOperand wd a' := congrArg (BitVec.setWidth 64) (setWidth_eq_of_mod ha)
  unfold writeWhole
  rw [hop]

include ha hb in
theorem writeIfChanged_eq_of_mod (s : State) : writeIfChanged wd a b s = writeIfChanged wd a' b' s := by
  have hchanged : wholeChanged wd a b = wholeChanged wd a' b' := by
    rw [wholeChanged, setWidth_eq_of_mod ha, setWidth_eq_of_mod hb, wholeChanged]
  unfold writeIfChanged
  rw [hchanged]
  simp only [writeWhole_eq_of_mod ha]

include hb in
theorem readIfChanged_eq_of_mod (sx : Bool) (s : State) : readIfChanged wd sx b s = readIfChanged wd sx b' s := by
  have hbase : extendWhole wd sx b = extendWhole wd sx b' := by
    rw [extendWhole, setWidth_eq_of_mod hb, extendWhole]
  unfold readIfChanged
  rw [hbase]

end

/-! ### The commands -/

theorem writerCommand_congr {s : State} {x y : Except Abort State} (h : x = y) :
    onUnit .w s (finish s x) = onUnit .w s (finish s y) := by rw [h]

theorem readerCommand_congr {s : State} {x y : Except Abort (Word64 × State)} (h : x = y) :
    onUnit .r s (finishWith s x) = onUnit .r s (finishWith s y) := by rw [h]

theorem exec_wBits_eq_of_mod (s : State) {n : Count6} (hn : n.toNat ≤ 32) {a a' : Word64}
    (h : a.toNat % 2 ^ n.toNat = a'.toNat % 2 ^ n.toNat) : exec (.wBits n a) s = exec (.wBits n a') s :=
  congrArg (withLegalCount n s) (writerCommand_congr (wPush_congr (low32_and_mask_of_mod hn h) s))

theorem exec_wBool_eq_of_mod (s : State) {a a' : Word64} (h : a.toNat % 2 = a'.toNat % 2) :
    exec (.wBool a) s = exec (.wBool a') s :=
  writerCommand_congr (congrArg (fun b => wPush 1 (bitField b) s) (boolOperand_eq_of_mod h))

theorem exec_wSetAt_eq_of_mod (s : State) (a : Word64) {b b' : Word64} (h : b.toNat % 2 = b'.toNat % 2) :
    exec (.wSetAt a b) s = exec (.wSetAt a b') s :=
  writerCommand_congr (congrArg (fun x => setAt (positionOperand a) x s) (boolOperand_eq_of_mod h))

section
variable (s : State) {a a' b b' : Word64} (ha : a.toNat % 2 ^ 32 = a'.toNat % 2 ^ 32)
  (hb : b.toNat % 2 ^ 32 = b'.toNat % 2 ^ 32)

include ha hb in
theorem exec_limSet_eq_of_mod (la : LimIdx) : exec (.limSet la a b) s = exec (.limSet la a' b') s := by
  show execLimSet la a b s = execLimSet la a' b' s
  unfold execLimSet
  rw [limitedOperand_eq_of_mod ha, limitedOperand_eq_of_mod hb, low32_eq_of_mod ha, low32_eq_of_mod hb]

include ha in
theorem exec_wLim_eq_of_mod (la : LimIdx) : exec (.wLim la a) s = exec (.wLim la a') s := by
  show execWLim la a s = execWLim la a' s
  unfold execWLim
  rw [limitedOperand_eq_of_mod ha]

include ha hb in
theorem exec_wChgLim_eq_of_mod (la : LimIdx) : exec (.wChgLim la a b) s = exec (.wChgLim la a' b') s := by
  show execWChgLim la a b s = execWChgLim la a' b' s
  unfold execWChgLim
  rw [limitedOperand_eq_of_mod ha, limitedOperand_eq_of_mod hb]

include ha hb in
theorem exec_wDiff_eq_of_mod (la lb : LimIdx) : exec (.wDiff la lb a b) s = exec (.wDiff la lb a' b') s := by
  show execWDiff la lb a b s = execWDiff la lb a' b' s
  unfold execWDiff
  rw [limitedOperand_eq_of_mod ha, limitedOperand_eq_of_mod hb]

include hb in
theorem exec_rChgLim_eq_of_mod (la : LimIdx) : exec (.rChgLim la b) s = exec (.rChgLim la b') s := by
  show execRChgLim la b s = execRChgLim la b' s
  unfold execRChgLim readLimitedIfChanged
  rw [low32_eq_of_mod hb]

include hb in
theorem exec_rDiff_eq_of_mod (la lb : LimIdx) : exec (.rDiff la lb b) s = exec (.rDiff la lb b') s := by
  show execRDiff la lb b s = execRDiff la lb b' s
  unfold execRDiff readDiff
  rw [low32_eq_of_mod hb, limitedOperand_eq_of_mod hb]

end

/-- Settles O7, command by command. -/
theorem unusedOperandBitsAreIgnored : Obligations.UnusedOperandBitsAreIgnored := fun s a _ _ _ =>
  ⟨fun _ hn h => exec_wBits_eq_of_mod s hn h, exec_wBool_eq_of_mod s, exec_wSetAt_eq_of_mod s a,
    fun ha => writerCommand_congr (writeWhole_eq_of_mod (wd := .w8) ha s),
    fun ha => writerCommand_congr (writeWhole_eq_of_mod (wd := .w16) ha s),
    fun ha hb => writerCommand_congr (writeIfChanged_eq_of_mod (wd := .w8) ha hb s),
    fun ha hb => writerCommand_congr (writeIfChanged_eq_of_mod (wd := .w16) ha hb s),
    fun hb => readerCommand_congr (readIfChanged_eq_of_mod (wd := .w8) hb false s),
    fun hb => ⟨readerCommand_congr (readIfChanged_eq_of_mod (wd := .w16) hb false s),
      readerCommand_congr (readIfChanged_eq_of_mod (wd := .w16) hb true s)⟩,
    fun ha => writerCommand_congr (writeWhole_eq_of_mod (wd := .w32) ha s),
    fun ha hb la lb => ⟨exec_limSet_eq_of_mod s ha hb la, exec_wLim_eq_of_mod s ha la,
      writerCommand_congr (writeIfChanged_eq_of_mod (wd := .w32) ha hb s), exec_wChgLim_eq_of_mod s ha hb la,
      exec_wDiff_eq_of_mod s ha hb la lb, readerCommand_congr (readIfChanged_eq_of_mod (wd := .w32) hb false s),
      readerCommand_congr (readIfChanged_eq_of_mod (wd := .w32) hb true s), exec_rChgLim_eq_of_mod s hb la,
      exec_rDiff_eq_of_mod s hb la lb⟩⟩

/-! ## The reader on the writer's stream (rules R95, R160) -/

/-- A reader bound at the writer's base has the stored bits of the writer's stream in its window. -/
theorem windowBit_eq_streamBit {s : State} (hbase : s.r.base = s.w.base) {p : Nat} (hp : p < 8 * s.w.count.toNat) :
    s.windowBit p = s.streamBit p := by
  rw [State.windowBit, State.streamBit, if_pos hp, hbase]

/-- The stream is a matter of the writer and of what `MEM` reads as. -/
theorem streamBit_congr {s t : State} (hw : t.w = s.w) (hm : t.mem = s.mem) (he : t.memEpoch = s.memEpoch) (p : Nat) :
    t.streamBit p = s.streamBit p := by
  rw [State.streamBit, State.streamBit, hw, byteAt_congr hm he]

/-- With room, `R.BITS` consumes its bits and answers with the field they hold (rule R160). -/
theorem exec_rBits_consumes {s : State} (hs : s.Wf) (hf : s.r.fault = false) {n : Count6} (hn : n.toNat ≤ 32)
    (hroom : s.r.count.toNat + popFetches s.r.valid.toNat n.toNat ≤ s.r.cap.toNat) :
    ∃ t, exec (.rBits n) s = .next t ∧
      t.responses = s.responses ++ [okResponse (some (BitVec.ofNat 64 (s.nextField 0 n.toNat)))] ∧
      ConsumesBits s t n.toNat (popFetches s.r.valid.toNat n.toNat) := by
  obtain ⟨t, e, -, hr, hc⟩ := rPop_consumes hs hf hn hroom
  have hfield : s.nextField 0 n.toNat < 2 ^ 32 :=
    Nat.lt_of_lt_of_le (nextField_lt s 0 n.toNat) (Nat.pow_le_pow_right (by omega) hn)
  have hpop : popResult (rPop n s) = .ok (BitVec.ofNat 64 (s.nextField 0 n.toNat), t) := by
    rw [e, ← toNat_zext64_ofNat hfield]
    rfl
  obtain ⟨t', e', hr', hc'⟩ := finishWith_consumes hpop hr hc
  exact ⟨t', (withLegalCount_ok hn s _).trans ((onUnit_r_clear hf _).trans e'), hr', hc'⟩

/-- Settles O33: the bits consumed are the next ones of the window, which are the writer's stored bits. -/
theorem readerSeesTheWritersStream : Obligations.ReaderSeesTheWritersStream := by
  intro s n hs hf hn hin hbase hstored hroom
  obtain ⟨t, e, hr, hc⟩ := exec_rBits_consumes hs hf hn hroom
  obtain ⟨-, hw, -, hm, he, -⟩ := hc.unchanged
  obtain ⟨hin', hpos⟩ := hc.inStep hin
  have hbit : ∀ j, (BitVec.ofNat 64 (s.nextField 0 n.toNat)).getLsbD j = (decide (j < n.toNat) && s.nextBit j) := by
    intro j
    rw [BitVec.getLsbD_ofNat, testBit_nextField, Nat.zero_add]
    by_cases hj : j < n.toNat
    · simp [hj, show j < 64 by omega]
    · simp [hj]
  refine ⟨t, _, e, hr, fun j hj => ?_, fun j hj => ?_, hin', hpos, streamBit_congr hw hm he⟩
  · rw [hbit, decide_eq_true hj, Bool.true_and, nextBit_inStep hin, windowBit_eq_streamBit hbase (by omega)]
  · rw [hbit, decide_eq_false (Nat.not_lt.mpr hj), Bool.false_and]

end Sys2Proof.Machine

/-! PROOFS. The accumulator and control family (40_accumulator_and_control.md): the mask table (rules R110, R111),
the two accumulator primitives (rules R113, R115), and what a global command leaves alone (rule R119).
Both primitives put a value above bits that already wait; `toNat_or_shiftLeft` says once that this is an addition. -/

namespace Sys2Proof.Machine

/-! ## The mask table (rules R110, R111) -/

theorem toNat_mask {n : Count6} (hn : n.toNat ≤ 32) : (mask n).toNat = 2 ^ n.toNat - 1 := by
  have hpow : 2 ^ n.toNat ≤ 2 ^ 32 := Nat.pow_le_pow_right (by decide) hn
  exact Nat.mod_eq_of_lt (Nat.lt_of_lt_of_le (Nat.sub_lt (Nat.two_pow_pos _) Nat.one_pos) hpow)

theorem toNat_and_mask {n : Count6} (hn : n.toNat ≤ 32) (v : Word32) :
    (v &&& mask n).toNat = v.toNat % 2 ^ n.toNat := by
  rw [BitVec.toNat_and, toNat_mask hn, Nat.and_two_pow_sub_one_eq_mod]

theorem toNat_and_mask_lt {n : Count6} (hn : n.toNat ≤ 32) (v : Word32) : (v &&& mask n).toNat < 2 ^ n.toNat := by
  rw [toNat_and_mask hn]
  exact Nat.mod_lt _ (Nat.two_pow_pos _)

theorem mask_zero : mask 0 = 0 := by decide

theorem mask_thirty_two : mask 32 = BitVec.allOnes 32 := by decide

/-- Settles O27: the general entry, and the six that the rule prints. -/
theorem maskTable : Obligations.MaskTable :=
  ⟨fun _ hn => toNat_mask hn, mask_zero, by decide, by decide, by decide, by decide, by decide⟩

/-- Settles O28, from the bits of an entry and its value. -/
theorem maskLaw : Obligations.MaskLaw := by
  intro n v hn
  refine ⟨fun i _ => getLsbD_mask hn i, toNat_and_mask hn v, ?_, ?_, mask_thirty_two⟩
  · rw [mask_zero]
    exact BitVec.and_zero
  · rw [mask_thirty_two, BitVec.and_allOnes]

/-! ## A value placed above the bits that wait -/

/-- No bit is lost and none meets another: the merge of rules R112 and R114 adds. -/
theorem toNat_or_shiftLeft {p x : Word64} {q k : Nat} (hp : p.toNat < 2 ^ q) (hx : x.toNat < 2 ^ k)
    (hfit : q + k ≤ 64) : (p ||| (x <<< q)).toNat = p.toNat + x.toNat * 2 ^ q := by
  have hshift : x.toNat <<< q < 2 ^ 64 := calc
    x.toNat <<< q = x.toNat * 2 ^ q := Nat.shiftLeft_eq _ _
    _ < 2 ^ k * 2 ^ q := Nat.mul_lt_mul_of_pos_right hx (Nat.two_pow_pos q)
    _ = 2 ^ (q + k) := by rw [Nat.add_comm, Nat.pow_add]
    _ ≤ 2 ^ 64 := Nat.pow_le_pow_right (by decide) hfit
  rw [BitVec.toNat_or, BitVec.toNat_shiftLeft, Nat.mod_eq_of_lt hshift, Nat.or_comm,
    ← Nat.shiftLeft_add_eq_or_of_lt hp, Nat.shiftLeft_eq, Nat.add_comm]

theorem or_shiftLeft_lt {p x : Word64} {q k : Nat} (hp : p.toNat < 2 ^ q) (hx : x.toNat < 2 ^ k)
    (hfit : q + k ≤ 64) : (p ||| (x <<< q)).toNat < 2 ^ (q + k) := by
  rw [toNat_or_shiftLeft hp hx hfit]
  calc
    p.toNat + x.toNat * 2 ^ q < 2 ^ q + x.toNat * 2 ^ q := Nat.add_lt_add_right hp _
    _ = (x.toNat + 1) * 2 ^ q := by rw [Nat.succ_mul, Nat.add_comm]
    _ ≤ 2 ^ k * 2 ^ q := Nat.mul_le_mul_right _ hx
    _ = 2 ^ (q + k) := by rw [Nat.add_comm, Nat.pow_add]

/-- Taking the low bits away leaves that many fewer. -/
theorem ushiftRight_lt {w i k : Nat} {x : BitVec w} (h : x.toNat < 2 ^ (k + i)) : (x >>> k).toNat < 2 ^ i := by
  rw [BitVec.toNat_ushiftRight, Nat.shiftRight_eq_div_pow]
  exact Nat.div_lt_of_lt_mul (Nat.pow_add 2 k i ▸ h)

/-! ## The accumulator at rest (rules R113, R115) -/

/-- The accumulator between two commands: at most 31 bits wait, and none stands above them. -/
def BitUnit.AtRest (x : BitUnit) : Prop := x.valid.toNat ≤ 31 ∧ x.pending.toNat < 2 ^ x.valid.toNat

/-- A bit count below 64 fits the register `valid`. -/
theorem toNat_valid {k : Nat} (h : k < 64) : (BitVec.ofNat 6 k).toNat = k := Nat.mod_eq_of_lt h

theorem BitUnit.atRest_of_valid {x : BitUnit} {k : Nat} (hv : x.valid.toNat = k) (hk : k ≤ 31)
    (hp : x.pending.toNat < 2 ^ k) : x.AtRest := ⟨hv ▸ hk, hv ▸ hp⟩

/-- A count that has grown within the window's capacity has not wrapped. -/
theorem toNat_count {c : Nat} {cap : Word32} (h : c ≤ cap.toNat) : (BitVec.ofNat 32 c).toNat = c :=
  Nat.mod_eq_of_lt (Nat.lt_of_le_of_lt h cap.isLt)

/-! ### `WPush` -/

/-- The field of a push, as the value that is shifted into place. -/
theorem toNat_zext64_and_mask {n : Count6} (hn : n.toNat ≤ 32) (v : Word32) :
    (zext64 (v &&& mask n)).toNat = v.toNat % 2 ^ n.toNat := by
  rw [zext64, BitVec.toNat_setWidth_of_le (by decide), toNat_and_mask hn]

theorem toNat_merged {s : State} {n : Count6} (hn : n.toNat ≤ 32) (hs : s.w.AtRest) (v : Word32) :
    (merged s n v).toNat = s.w.pending.toNat + v.toNat % 2 ^ n.toNat * 2 ^ s.w.valid.toNat := by
  obtain ⟨hv, hp⟩ := hs
  have hfield := toNat_zext64_and_mask hn v
  rw [merged, toNat_or_shiftLeft hp (hfield ▸ Nat.mod_lt _ (Nat.two_pow_pos _)) (by omega), hfield]

theorem merged_lt {s : State} {n : Count6} (hn : n.toNat ≤ 32) (hs : s.w.AtRest) (v : Word32) :
    (merged s n v).toNat < 2 ^ (s.w.valid.toNat + n.toNat) := by
  obtain ⟨hv, hp⟩ := hs
  exact or_shiftLeft_lt hp (toNat_zext64_and_mask hn v ▸ Nat.mod_lt _ (Nat.two_pow_pos _)) (by omega)

/-- A push that succeeds leaves the accumulator at rest and the stream `n` bits longer, whether it stores a word
or not. -/
theorem wPush_atRest {s t : State} {n : Count6} {v : Word32} (hn : n.toNat ≤ 32) (hs : s.w.AtRest)
    (e : wPush n v s = .ok t) : t.w.AtRest ∧ t.bitsCount = s.bitsCount + n.toNat := by
  have hv := hs.1
  have hm := merged_lt hn hs v
  unfold State.bitsCount
  rcases wPush_cases n v s with ⟨hlt, e'⟩ | ⟨hge, hroom, -, e'⟩ | ⟨-, -, e'⟩ | ⟨-, -, -, e'⟩
  · cases e'.symm.trans e
    have hval := toNat_valid (k := s.w.valid.toNat + n.toNat) (by omega)
    exact ⟨BitUnit.atRest_of_valid hval (by omega) hm, by dsimp only; rw [hval]; omega⟩
  · cases e'.symm.trans e
    have hval := toNat_valid (k := s.w.valid.toNat + n.toNat - 32) (by omega)
    have hcount := toNat_count hroom
    have hrest : (merged s n v >>> 32).toNat < 2 ^ (s.w.valid.toNat + n.toNat - 32) :=
      ushiftRight_lt (by rwa [Nat.add_sub_cancel' hge])
    exact ⟨BitUnit.atRest_of_valid hval (by omega) hrest, by rw [hval, hcount]; omega⟩
  · cases e'.symm.trans e
  · cases e'.symm.trans e

/-- Settles O30: the merge adds, and then either the bits wait or the low 32 of them are stored. -/
theorem pushKeepsTheAccumulator : Obligations.PushKeepsTheAccumulator := by
  intro s t n v hn hv hp e
  obtain ⟨⟨hv', hp'⟩, hpos⟩ := wPush_atRest hn ⟨hv, hp⟩ e
  exact ⟨toNat_merged hn ⟨hv, hp⟩ v, hv', hp', hpos⟩

/-! ### `RPop` -/

theorem readBytes_lt (s : State) (addr : Nat) {n : Nat} (hn : n ≤ 8) : (readBytes s addr n).toNat < 2 ^ (8 * n) :=
  lt_two_pow_of_getLsbD fun j hj => by
    rw [getLsbD_readBytes s addr n j hn, decide_eq_false (Nat.not_lt.mpr hj), Bool.false_and]

/-- Taking `n` of the `k` bits that wait leaves the rest of them waiting. -/
theorem atRest_of_taken {x : BitUnit} {y : Word64} {n k : Nat} (hnk : n ≤ k) (hk : k ≤ n + 31)
    (hy : y.toNat < 2 ^ k) (hv : x.valid.toNat = k - n) (hp : x.pending = y >>> n) : x.AtRest := by
  refine BitUnit.atRest_of_valid hv (by omega) ?_
  rw [hp]
  exact ushiftRight_lt (by rwa [Nat.add_sub_cancel' hnk])

/-- A pop that succeeds answers with an `n`-bit field, leaves the accumulator at rest and moves the position by
`n`, whether it fetches a word or not. -/
theorem rPop_atRest {s t : State} {n : Count6} {x : Word32} (hn : n.toNat ≤ 32) (hs : s.r.AtRest)
    (e : rPop n s = .ok (x, t)) : x.toNat < 2 ^ n.toNat ∧ t.r.AtRest ∧
      8 * t.r.count.toNat + s.r.valid.toNat = 8 * s.r.count.toNat + t.r.valid.toNat + n.toNat := by
  obtain ⟨hv, hp⟩ := hs
  rcases rPop_cases n s with ⟨hle, e'⟩ | ⟨hlt, hroom, -, e'⟩ | ⟨-, -, e'⟩ | ⟨-, -, -, e'⟩
  · cases e'.symm.trans e
    have hval := toNat_valid (k := s.r.valid.toNat - n.toNat) (by omega)
    exact ⟨toNat_and_mask_lt hn _, atRest_of_taken hle (by omega) hp hval rfl, by dsimp only; rw [hval]; omega⟩
  · cases e'.symm.trans e
    have hval : (BitVec.ofNat 6 ((BitVec.ofNat 6 (s.r.valid.toNat + 32)).toNat - n.toNat)).toNat =
        s.r.valid.toNat + 32 - n.toNat := by
      rw [toNat_valid (k := s.r.valid.toNat + 32) (by omega), toNat_valid (by omega)]
    have hcount := toNat_count hroom
    have hfilled := or_shiftLeft_lt hp (readBytes_lt s (s.r.base.toNat + s.r.count.toNat) (n := 4) (by decide))
      (by omega)
    exact ⟨toNat_and_mask_lt hn _, atRest_of_taken (by omega) (by omega) hfilled hval rfl,
      by rw [hval, hcount]; omega⟩
  · cases e'.symm.trans e
  · cases e'.symm.trans e

/-- Settles O31: either enough bits wait, or 32 more are placed above them first. -/
theorem popKeepsTheAccumulator : Obligations.PopKeepsTheAccumulator := by
  intro s t n x hn hv hp e
  obtain ⟨hx, ⟨hv', hp'⟩, hpos⟩ := rPop_atRest hn ⟨hv, hp⟩ e
  exact ⟨hx, hv', hp', by omega⟩

/-! ## The global commands (rules R119, R181 to R184) -/

/-- Everything `LIM.SET` can do: it is only answered, or it sets the register it names (rule R181). -/
theorem exec_limSet_cases (la : LimIdx) (a b : Word64) (s : State) :
    (∃ x, exec (.limSet la a b) s = .next (s.respond x)) ∨
      ∃ l x, exec (.limSet la a b) s = .next ((s.setLimit la l).respond x) := by
  show (∃ x, execLimSet la a b s = _) ∨ ∃ l x, execLimSet la a b s = _
  unfold execLimSet
  split
  · exact .inl ⟨_, rfl⟩
  · exact .inr ⟨_, _, rfl⟩

/-- What a global command leaves alone; the Limit register that differs is the one `LIM.SET` names. -/
def GlobalFrame (s t : State) (i : Instr) : Prop :=
  t = { s with lim := t.lim, responses := t.responses } ∧ (∃ x, t.responses = s.responses ++ [x]) ∧
    ∀ j, t.limit j ≠ s.limit j → ∃ a b, i = .limSet j a b

theorem globalFrame_respond (s : State) (x : Response) (i : Instr) : GlobalFrame s (s.respond x) i :=
  ⟨rfl, ⟨x, rfl⟩, fun j hj => absurd (respond_limit s x j) hj⟩

theorem globalFrame_setLimit (s : State) (la : LimIdx) (l : Limit) (x : Response) (a b : Word64) :
    GlobalFrame s ((s.setLimit la l).respond x) (.limSet la a b) := by
  refine ⟨rfl, ⟨x, rfl⟩, fun j hj => ?_⟩
  have hla : j = la := by
    by_contra hne
    exact hj (limit_setLimit_of_ne s l hne)
  exact ⟨a, b, hla ▸ rfl⟩

/-- Settles O20: `LIM.SET` sets one register or none, and every other global command is only answered. -/
theorem globalCommandsFrame : Obligations.GlobalCommandsFrame := by
  intro s t i hu e
  show GlobalFrame s t i
  by_cases hi : ∀ la a b, i ≠ .limSet la a b
  · obtain ⟨x, hx⟩ := exec_global_answered (s := s) hu hi
    cases hx.symm.trans e
    exact globalFrame_respond s x i
  · push Not at hi
    obtain ⟨la, a, b, rfl⟩ := hi
    obtain ⟨x, hx⟩ | ⟨l, x, hx⟩ := exec_limSet_cases la a b s
    · cases hx.symm.trans e
      exact globalFrame_respond s x _
    · cases hx.symm.trans e
      exact globalFrame_setLimit s la l x a b

end Sys2Proof.Machine

/-! PROOFS. The Bit Writer family (41_bit_writer.md): the appending commands (rules R130 to R136), `W.FLUSH` (rules R137
to R139), `W.SETAT` (rule R140), the counters and `W.GETARRAY` (rules R141 to R143), and the commands that start a pass
(rules R144, R145, R170, R171). What the rule behind a command does is cited; here it is carried through the command
wrapper (rule R118). -/

namespace Sys2Proof.Machine

/-! ## Commands that append one field (rules R130 to R136) -/

/-- The wrapper of an appending command: the rule ends in one of two ways, told apart by the room its bytes need, and
of the value it appends only the low bits are the field's. -/
theorem AppendsOrFaults.of_rule {s : State} {i : Instr} {x : Except Abort State} {k f g stored : Nat}
    (e : exec i s = finish s x)
    (hroom : s.w.count.toNat + stored ≤ s.w.cap.toNat →
      ∃ t, x = .ok t ∧ t.Wf ∧ t.responses = s.responses ∧ AppendsField s t k g stored)
    (hfull : s.w.cap.toNat < s.w.count.toNat + stored → x = .error (.latch .w .capacity false))
    (hfield : g % 2 ^ k = f % 2 ^ k) : AppendsOrFaults s i k f stored := by
  rw [AppendsOrFaults, e]
  refine ⟨fun h => ?_, fun h => finish_latch (hfull h)⟩
  obtain ⟨t, ex, -, hr, ha⟩ := hroom h
  exact finish_appends ex hr (ha.congr hfield)

/-- A command whose rule is one `WPush` (rule R112). -/
theorem AppendsOrFaults.of_push {s : State} {i : Instr} {n : Count6} {v : Word32} {f : Nat} (hs : s.Wf)
    (hf : s.w.fault = false) (hn : n.toNat ≤ 32) (e : exec i s = finish s (wPush n v s))
    (hfield : v.toNat % 2 ^ n.toNat = f % 2 ^ n.toNat) :
    AppendsOrFaults s i n.toNat f (pushStores s.w.valid.toNat n.toNat) := by
  obtain ⟨hv31, -, hcnt, -⟩ := hs.writer.2 hf
  exact .of_rule e (wPush_appends hs hf hn v) (fun h => wPush_full h hcnt hn hv31) hfield

/-- A command whose rule is one `WriteWhole` (rule R132). -/
theorem AppendsOrFaults.of_whole {s : State} {i : Instr} {wd : Width} {a : Word64} (hs : s.Wf)
    (hf : s.w.fault = false) (e : exec i s = finish s (writeWhole wd a s)) :
    AppendsOrFaults s i (widthBits wd) (a.toNat % 2 ^ widthBits wd) (wholeStores s.w.valid.toNat (widthBits wd)) :=
  .of_rule e (writeWhole_appends hs hf wd a) (writeWhole_full hs hf wd a) (Nat.mod_mod _ _).symm

theorem toNat_low32_mod (a : Word64) {n : Nat} (hn : n ≤ 32) : (low32 a).toNat % 2 ^ n = a.toNat % 2 ^ n := by
  rw [low32, BitVec.extractLsb'_toNat, Nat.shiftRight_zero, Nat.mod_mod_of_dvd _ (Nat.pow_dvd_pow 2 hn)]

theorem toNat_bitField (b : Bool) : (bitField b).toNat = b.toNat := by cases b <;> rfl

theorem toNat_boolOperand (a : Word64) : (boolOperand a).toNat = a.toNat % 2 := by
  rw [boolOperand, ← BitVec.testBit_toNat, Nat.testBit_zero]
  rcases Nat.mod_two_eq_zero_or_one a.toNat with h | h <;> simp [h]

/-- Settles O40: both commands are one push, of the low `n` bits and of the lowest bit of the operand. -/
theorem primitiveWrites : Obligations.PrimitiveWrites := by
  intro s hs hf
  refine ⟨fun n a hn => ?_, fun a => ?_⟩
  · have e : exec (.wBits n a) s = finish s (wPush n (low32 a) s) :=
      (withLegalCount_ok hn s _).trans (onUnit_w_clear hf _)
    exact .of_push hs hf hn e (by rw [toNat_low32_mod a hn, Nat.mod_mod])
  · have e : exec (.wBool a) s = finish s (wPush 1 (bitField (boolOperand a)) s) := onUnit_w_clear hf _
    exact .of_push (n := 1) hs hf (by decide) e (by rw [toNat_bitField, toNat_boolOperand])

/-- Settles O41: each command is `WriteWhole` at its width, and every operand is a 64-bit value. -/
theorem wholeWrites : Obligations.WholeWrites := by
  intro s a hs hf
  have hu64 : AppendsOrFaults s (.wU64 a) 64 (a.toNat % 2 ^ 64) (wholeStores s.w.valid.toNat 64) :=
    .of_whole (wd := .w64) hs hf (onUnit_w_clear hf _)
  rw [Nat.mod_eq_of_lt a.isLt] at hu64
  exact ⟨.of_whole (wd := .w8) hs hf (onUnit_w_clear hf _), .of_whole (wd := .w16) hs hf (onUnit_w_clear hf _),
    .of_whole (wd := .w32) hs hf (onUnit_w_clear hf _), hu64⟩

/-! ## `W.FLUSH` (rules R137 to R139) -/

theorem exec_wFlush {s : State} (hf : s.w.fault = false) : exec .wFlush s = finish s (flushPending s) :=
  onUnit_w_clear hf _

/-- With nothing pending the stored bytes are all there are (rule R142). -/
theorem bytesCount_of_empty {s : State} (hv : s.w.valid = 0) : s.bytesCount = s.w.count.toNat := by
  rw [State.bytesCount, hv]
  rfl

/-- Settles O42: the flush appends the padding, and its bytes are the ones `BytesCount` already counted. -/
theorem flush : Obligations.Flush := by
  intro s hs hf
  rw [exec_wFlush hf]
  refine ⟨fun hroom => ?_, fun hfull => finish_latch (flushPending_full hs hf hfull)⟩
  obtain ⟨t, e, -, hr, hv, hp, ha⟩ := flushPending_appends hs hf hroom
  have hpad : 8 * ceil8 s.w.valid.toNat - s.w.valid.toNat = (8 - s.bitsCount % 8) % 8 := padding_eq
  rw [hpad] at ha
  have hbytes : t.bytesCount = s.bytesCount := (bytesCount_of_empty hv).trans ha.count
  exact ⟨t.respond (okResponse none), by rw [e, finish_ok], by rw [respond_responses, hr], hv, hp, hbytes,
    ha.respond _⟩

/-- Nothing waits, so the loop ends at once, and `pending` is 0 already (rule R36). -/
theorem flushPending_of_empty {s : State} (hs : s.Wf) (hf : s.w.fault = false) (hv : s.w.valid = 0) :
    flushPending s = .ok s := by
  obtain ⟨-, hpend, -, -⟩ := hs.writer.2 hf
  have hp : s.w.pending = 0 := BitVec.eq_of_toNat_eq (by simpa [hv] using hpend)
  have hloop : flushLoop 8 s = .ok s := by rw [flushLoop, if_pos hv]
  rw [flushPending, hloop]
  simp only [bind, Except.bind]
  rw [← hp, ← hv]

theorem exec_wFlush_of_empty {s : State} (hs : s.Wf) (hf : s.w.fault = false) (hv : s.w.valid = 0) :
    exec .wFlush s = .next (s.respond (okResponse none)) := by
  rw [exec_wFlush hf, flushPending_of_empty hs hf hv, finish_ok]

/-- A flush that raises no fault leaves nothing pending (rule R137). -/
theorem valid_of_exec_wFlush {s t : State} (hs : s.Wf) (hf : s.w.fault = false) (e : exec .wFlush s = .next t)
    (hft : t.w.fault = false) : t.w.valid = 0 := by
  obtain ⟨hroom, hfull⟩ := flush s hs hf
  rcases Nat.lt_or_ge s.w.cap.toNat (s.w.count.toNat + (s.w.valid.toNat + 7) / 8) with h | h
  · obtain ⟨t', e', himp⟩ := hfull h
    cases e'.symm.trans e
    exact absurd (himp.latched.1.symm.trans hft) (by decide)
  · obtain ⟨t', e', -, hv, -⟩ := hroom h
    cases e'.symm.trans e
    exact hv

/-- Settles O43: the state after a flush without a fault is well formed and has nothing pending. -/
theorem flushIsIdempotent : Obligations.FlushIsIdempotent := fun _ hs hf =>
  ⟨exec_wFlush_of_empty hs hf,
    fun _ e hft => exec_wFlush_of_empty (exec_wf hs e) hft (valid_of_exec_wFlush hs hf e hft)⟩

/-! ## `W.SETAT` (rule R140) -/

theorem PatchesBit.respond {s t : State} {p : Nat} {b : Bool} (h : PatchesBit s t p b) (x : Response) :
    PatchesBit s (t.respond x) p b where
  frame := by
    have hframe := h.frame
    show State.respond t x = _
    rw [hframe]
    rfl
  bit := h.bit
  others := h.others
  memory := h.memory

/-- A rule without a result that raises a precise fault changes the latch alone (rule R223). -/
theorem finish_precise {s : State} {x : Except Abort State} {u : UnitId} {c : Cause}
    (e : x = .error (.latch u c true)) : ∃ t, finish s x = .next t ∧ PreciseFault s t u c :=
  ⟨_, by rw [e, finish_error, complete_latch], precise_of_latch s u c⟩

/-- Settles O44: the three ranges of the position are those of the rule. (`setAt` is the name of that rule.) -/
theorem setAt_ranges : Obligations.SetAt := by
  intro s a b hs hf
  have e : exec (.wSetAt a b) s = finish s (setAt a.toNat (b.getLsbD 0) s) := onUnit_w_clear hf _
  obtain ⟨hpast, hunwritten, hin⟩ := setAt_cases hs hf a.toNat (b.getLsbD 0)
  rw [e]
  refine ⟨fun hp => finish_precise (hpast hp), fun hp hq => finish_precise (hunwritten hp hq), fun hp hq => ?_⟩
  obtain ⟨t, et, -, hr, hpatch⟩ := hin hp hq
  exact ⟨t.respond (okResponse none), by rw [et, finish_ok], by rw [respond_responses, hr], hpatch.respond _⟩

/-! ## Counters and the base (rules R141 to R143) -/

/-- Both counts are far below 64 bits, whatever the registers hold. -/
theorem counts_lt (s : State) : s.bitsCount < 2 ^ 64 ∧ s.bytesCount < 2 ^ 64 := by
  have hcount := s.w.count.isLt
  have hvalid := s.w.valid.isLt
  unfold State.bitsCount State.bytesCount ceil8
  omega

theorem toNat_countResult {n : Nat} (h : n < 2 ^ 64) : (countResult n).toNat = n := Nat.mod_eq_of_lt h

/-- Settles O45: the answers are the two counts, which fit a result. -/
theorem counters : Obligations.Counters := by
  refine ⟨by decide, by decide, fun s hf => ?_⟩
  obtain ⟨hbits, hbytes⟩ := counts_lt s
  exact ⟨⟨countResult s.bitsCount, onUnit_w_clear hf _, toNat_countResult hbits⟩,
    ⟨countResult s.bytesCount, onUnit_w_clear hf _, toNat_countResult hbytes⟩⟩

theorem exec_wGetArray {s : State} (hf : s.w.fault = false) : exec .wGetArray s =
    finishWith s (if s.w.valid ≠ 0 then .error (.latch .w .unflushed true) else .ok (zext64 s.w.base, s)) :=
  onUnit_w_clear hf _

/-- Settles O46, by whether bits are pending. -/
theorem getArray : Obligations.GetArray := by
  refine ⟨by decide, fun s hf => ?_⟩
  rw [exec_wGetArray hf]
  refine ⟨fun hv => ?_, fun hv => ?_⟩
  · rw [if_neg (not_not_intro hv), finishWith_ok, zext64]
  · rw [if_pos hv, finishWith_error, complete_latch]
    exact ⟨_, rfl, precise_of_latch s .w .unflushed⟩

/-! ## The start of a pass (rules R144, R145, R170, R171) -/

/-- `U.CLEAR` and `U.SETARRAY` are accepted by a faulted unit: no wrapper stands before their rule (rule R231). -/
theorem exec_clear (s : State) :
    exec .wClear s = finish s (.ok (s.setUnit .w s.w.startPass)) ∧
      exec .rClear s = finish s (.ok (s.setUnit .r s.r.startPass)) := ⟨rfl, rfl⟩

/-- Settles O47: the answered state, with the update of the one unit written out. -/
theorem clear : Obligations.Clear := by
  refine ⟨by decide, by decide, fun s => ?_⟩
  rw [(exec_clear s).1, (exec_clear s).2, finish_ok, finish_ok]
  exact ⟨rfl, rfl⟩

theorem exec_setArray (a b : Word64) (s : State) :
    exec (.wSetArray a b) s = finish s (bindWindow .w a b s) ∧
      exec (.rSetArray a b) s = finish s (bindWindow .r a b s) := ⟨rfl, rfl⟩

section
variable (u : UnitId) {a b : Word64} {s : State}

/-- A window that fits is bound, and a pass starts in it (rule R145). -/
theorem finish_bindWindow_fits (ha : a.toNat < 2 ^ 32) (hb : b.toNat < 2 ^ 32)
    (hm : a.toNat + b.toNat ≤ s.params.memBytes) :
    finish s (bindWindow u a b s) =
      .next ((s.setUnit u { (s.unit u).startPass with base := low32 a, cap := low32 b }).respond
        (okResponse none)) := by
  rcases bindWindow_cases u a b s with ⟨-, e⟩ | ⟨h, -⟩
  · rw [e, finish_ok]
  · omega

/-- A window that does not fit is refused and nothing changes (rule R230). -/
theorem finish_bindWindow_refused
    (h : 2 ^ 32 ≤ a.toNat ∨ 2 ^ 32 ≤ b.toNat ∨ s.params.memBytes < a.toNat + b.toNat) :
    finish s (bindWindow u a b s) = .next (s.respond (failResponse (causeCode .bind))) := by
  rcases bindWindow_cases u a b s with ⟨⟨ha, hb, hm⟩, -⟩ | ⟨-, e⟩
  · omega
  · rw [e, finish_error, complete_plain]

end

/-- Settles O48: one argument for both units, by whether the window fits. -/
theorem setArray : Obligations.SetArray := by
  intro s a b
  rw [(exec_setArray a b s).1, (exec_setArray a b s).2]
  exact ⟨fun ha hb hm => ⟨finish_bindWindow_fits .w ha hb hm, finish_bindWindow_fits .r ha hb hm⟩,
    fun h => ⟨finish_bindWindow_refused .w h, finish_bindWindow_refused .r h⟩⟩

end Sys2Proof.Machine

/-! PROOFS. The Bit Reader family (42_bit_reader.md): what a reader command leaves alone (rules R172, R223), the
commands that deliver one popped field (rules R160, R161), and the whole-type reads (rules R162 to R169). What the rule
behind a command does is cited; here it is carried through the command wrapper (rule R118). -/

namespace Sys2Proof.Machine

/-! ## What a reader command leaves alone (rules R24, R172, R223) -/

/-- What a reader command begun in `s` and answered leaves as it was: all but the reader. -/
structure ReaderFrame (s t : State) : Prop where
  writer : t.w = s.w
  limits : t.lim = s.lim
  memory : t.mem = s.mem
  epoch : t.memEpoch = s.memEpoch
  parameters : t.params = s.params
  inbox : t.inbox = s.inbox
  answer : ∃ x, t.responses = s.responses ++ [x]

/-- In every state: an answer and new registers change nothing else, and a rule of the reader is the reader's
whether it succeeds or raises a fault. -/
theorem Course.readerFrame {s t : State} {o : Host.Outcome State Fault Refusal} (h : Course s (some .r) o)
    (e : o = .next t) : ReaderFrame s t := by
  cases h with
  | answered x => cases e; exact ⟨rfl, rfl, rfl, rfl, rfl, rfl, x, rfl⟩
  | read h =>
    have hend := h.ends e
    exact ⟨hend.writer, hend.lim, hend.mem, hend.epoch, hend.params, hend.inbox, hend.answer⟩
  | setUnit _ x => cases e; exact ⟨rfl, rfl, rfl, rfl, rfl, rfl, _, rfl⟩

/-- Settles O18, from the frame that each way a reader command can end leaves. -/
theorem readerCommandsFrame : Obligations.ReaderCommandsFrame := by
  intro s t i hu e
  have hcourse : Course s (some .r) (exec i s) := hu ▸ exec_course s i
  obtain ⟨hw, hl, hm, he, hp, hi, ha⟩ := hcourse.readerFrame e
  exact ⟨hw, hl, hm, he, hp, hi, ha⟩

/-! ## Commands that deliver (rules R160 to R169) -/

/-- The wrapper of a delivering command: the rule ends in one of two ways, told apart by the room for the bytes it
fetches. -/
theorem DeliversOrFaults.of_rule {s : State} {i : Instr} {x : Except Abort (Word64 × State)} {k fetched : Nat}
    {res : Word64} (e : exec i s = finishWith s x)
    (hroom : s.r.count.toNat + fetched ≤ s.r.cap.toNat →
      ∃ t, x = .ok (res, t) ∧ t.Wf ∧ t.responses = s.responses ∧ ConsumesBits s t k fetched)
    (hfull : s.r.cap.toNat < s.r.count.toNat + fetched → x = .error (.latch .r .capacity false)) :
    DeliversOrFaults s i k fetched res := by
  rw [DeliversOrFaults, e]
  refine ⟨fun h => ?_, fun h => finishWith_latch (hfull h)⟩
  obtain ⟨t, ex, -, hr, hc⟩ := hroom h
  exact finishWith_consumes ex hr hc

/-- A field of at most 32 bits survives the 32-bit pop: widened, it is the field itself. -/
theorem popResult_consumes {s : State} (hs : s.Wf) (hf : s.r.fault = false) {n : Count6} (hn : n.toNat ≤ 32)
    (h : s.r.count.toNat + popFetches s.r.valid.toNat n.toNat ≤ s.r.cap.toNat) :
    ∃ t, popResult (rPop n s) = .ok (BitVec.ofNat 64 (s.nextField 0 n.toNat), t) ∧ t.Wf ∧
      t.responses = s.responses ∧ ConsumesBits s t n.toNat (popFetches s.r.valid.toNat n.toNat) := by
  obtain ⟨t, e, h'⟩ := rPop_consumes hs hf hn h
  have hfield : s.nextField 0 n.toNat < 2 ^ 32 :=
    Nat.lt_of_lt_of_le (nextField_lt s 0 n.toNat) (Nat.pow_le_pow_right (by decide) hn)
  exact ⟨t, by rw [e, ← toNat_zext64_ofNat hfield]; rfl, h'⟩

theorem popResult_full {s : State} {n : Count6}
    (h : s.r.cap.toNat < s.r.count.toNat + popFetches s.r.valid.toNat n.toNat)
    (hs : s.r.count.toNat ≤ s.r.cap.toNat) (hn : n.toNat ≤ 32) :
    popResult (rPop n s) = .error (.latch .r .capacity false) := by
  rw [rPop_full h hs hn]
  rfl

/-- A command whose rule is one `RPop` (rule R114). -/
theorem DeliversOrFaults.of_pop {s : State} {i : Instr} {n : Count6} (hs : s.Wf) (hf : s.r.fault = false)
    (hn : n.toNat ≤ 32) (e : exec i s = finishWith s (popResult (rPop n s))) :
    DeliversOrFaults s i n.toNat (popFetches s.r.valid.toNat n.toNat)
      (BitVec.ofNat 64 (s.nextField 0 n.toNat)) := by
  obtain ⟨-, -, hcnt, -⟩ := hs.reader.2 hf
  exact .of_rule e (popResult_consumes hs hf hn) fun h => popResult_full h hcnt hn

/-- A command whose rule is one `ReadWhole` (rule R162). -/
theorem DeliversOrFaults.of_whole {s : State} {i : Instr} {wd : Width} {sx : Bool} (hs : s.Wf)
    (hf : s.r.fault = false) (e : exec i s = finishWith s (readWhole wd sx s)) :
    DeliversOrFaults s i (widthBits wd) (wholeFetches s.r.valid.toNat (widthBits wd))
      (extended (widthBits wd) sx (s.nextField 0 (widthBits wd))) := by
  rw [← extendWhole_ofNat wd sx (nextField_lt s 0 _)]
  exact .of_rule e (readWhole_consumes hs hf wd sx) (readWhole_full hs hf wd sx)

/-- Settles O53: both commands are one pop, and a field of one bit is that bit. -/
theorem primitiveReads : Obligations.PrimitiveReads := by
  intro s hs hf
  refine ⟨fun n hn => ?_, ?_⟩
  · have e : exec (.rBits n) s = finishWith s (popResult (rPop n s)) :=
      (withLegalCount_ok hn s _).trans (onUnit_r_clear hf _)
    exact .of_pop hs hf hn e
  · have e : exec .rBool s = finishWith s (popResult (rPop 1 s)) := onUnit_r_clear hf _
    rw [← nextField_one]
    exact .of_pop (n := 1) hs hf (by decide) e

/-- A row of rules R163 to R169: a command, its width in bits, and whether its value is sign-extended. -/
def IsWholeRead (s : State) (row : Instr × Nat × Bool) : Prop :=
  DeliversOrFaults s row.1 row.2.1 (wholeFetches s.r.valid.toNat row.2.1)
    (extended row.2.1 row.2.2 (s.nextField 0 row.2.1))

theorem isWholeRead_of_exec {s : State} {i : Instr} (wd : Width) (sx : Bool) (hs : s.Wf) (hf : s.r.fault = false)
    (e : exec i s = onUnit .r s (finishWith s (readWhole wd sx s))) : IsWholeRead s (i, widthBits wd, sx) :=
  .of_whole hs hf (e.trans (onUnit_r_clear hf _))

/-- Settles O54: each command is `ReadWhole` at the width and with the extension of its row. -/
theorem wholeReads : Obligations.WholeReads := by
  intro s i k sx hs hf hrow
  show IsWholeRead s (i, k, sx)
  revert hrow
  generalize (i, k, sx) = row
  revert row
  simp only [List.forall_mem_cons]
  exact ⟨isWholeRead_of_exec .w8 false hs hf rfl,
    isWholeRead_of_exec .w16 false hs hf rfl, isWholeRead_of_exec .w16 true hs hf rfl,
    isWholeRead_of_exec .w32 false hs hf rfl, isWholeRead_of_exec .w32 true hs hf rfl,
    isWholeRead_of_exec .w64 false hs hf rfl, isWholeRead_of_exec .w64 true hs hf rfl, fun _ h => nomatch h⟩

end Sys2Proof.Machine

/-! PROOFS. The Limit family (43_limit.md): the width of a Limit (rule R180), its register commands (rules R181 to R184),
and policy 1 (rules R185 to R190). What `WriteLimited` and `ReadLimited` do is cited; here the width is tied to the
values a Limit holds, and the rules are carried through the command wrapper (rule R118). -/

namespace Sys2Proof.Machine

/-! ## The width of a Limit (rule R180) -/

/-- The width holds a range of at most 32 bits. -/
theorem range_le_two_pow_bitCount {mn mx : Int} (h : mx - mn + 1 ≤ 2 ^ 32) : mx - mn + 1 ≤ 2 ^ bitCount mn mx := by
  obtain ⟨-, -, -, henough⟩ := leastWidth_spec (mx - mn + 1).toNat 32 0
  exact_mod_cast Int.toNat_le.mp (henough (Int.toNat_le.mpr (by simpa using h)))

/-- No smaller width holds the range. -/
theorem bitCount_le_of_range {mn mx : Int} {n : Nat} (h : mx - mn + 1 ≤ 2 ^ n) : bitCount mn mx ≤ n := by
  obtain ⟨-, -, hsmaller, -⟩ := leastWidth_spec (mx - mn + 1).toNat 32 0
  have hn : (mx - mn + 1).toNat ≤ 2 ^ n := Int.toNat_le.mpr (by exact_mod_cast h)
  exact Nat.le_of_not_lt fun hlt => absurd hn (Nat.not_le.mpr (hsmaller n (Nat.zero_le n) hlt))

/-- Settles O34: the search stays within its fuel, ends at a width that is enough, and passes only widths that are
not. -/
theorem bitCountIsLeast : Obligations.BitCountIsLeast := fun mn mx _ h =>
  ⟨bitCount_le mn mx, range_le_two_pow_bitCount h, fun _ => bitCount_le_of_range⟩

/-! ## A limited value and its field (rules R185, R187, R190) -/

theorem toNat_trunc32 {i : Int} (h0 : 0 ≤ i) (h32 : i < 2 ^ 32) : ((trunc32 i).toNat : Int) = i := by
  rw [trunc32, BitVec.toNat_ofInt]
  omega

theorem toInt_trunc32 {i : Int} (hlo : -2 ^ 31 ≤ i) (hhi : i < 2 ^ 31) : (trunc32 i).toInt = i :=
  BitVec.toInt_ofInt_eq_self (by decide) hlo hhi

/-- The two bounds of a Limit are 32-bit numbers, so its range is one that some width holds. -/
theorem Limit.Wf.range_le {l : Limit} (h : l.Wf) (hok : l.ok = true) :
    l.max.toInt - l.min.toInt + 1 ≤ 2 ^ l.bits.toNat := by
  have hmin := BitVec.le_toInt l.min
  have hmax := BitVec.toInt_lt (x := l.max)
  rw [(h hok).2]
  exact range_le_two_pow_bitCount (by omega)

/-- A value inside the Limit is encoded as its distance from `min`, which fits the field (rule R190). -/
theorem limitedField_of_inside {l : Limit} {v : Int} (h : l.Wf) (hok : l.ok = true) (hlo : l.min.toInt ≤ v)
    (hhi : v ≤ l.max.toInt) :
    (limitedField l v : Int) = v - l.min.toInt ∧ limitedField l v < 2 ^ l.bits.toNat := by
  have hmin := BitVec.le_toInt l.min
  have hmax := BitVec.toInt_lt (x := l.max)
  have hfield : ((trunc32 (v - l.min.toInt)).toNat : Int) = v - l.min.toInt := toNat_trunc32 (by omega) (by omega)
  have hfits : (trunc32 (v - l.min.toInt)).toNat < 2 ^ l.bits.toNat := by
    have hrange := h.range_le hok
    zify
    omega
  rw [limitedField, Nat.mod_eq_of_lt hfits]
  exact ⟨hfield, hfits⟩

/-- Settles O38: adding `min` to the field gives back the value, which is a signed 32-bit number. -/
theorem limitedValueRoundTrip : Obligations.LimitedValueRoundTrip := by
  intro l v h hok hlo hhi
  obtain ⟨hfield, hfits⟩ := limitedField_of_inside h hok hlo hhi
  have hmin := BitVec.le_toInt l.min
  have hmax := BitVec.toInt_lt (x := l.max)
  refine ⟨hfield, hfits, ?_⟩
  rw [hfield, sub_add_cancel]
  exact toInt_trunc32 (by omega) (by omega)

/-! ## Policy 1 (rules R185 to R189) -/

theorem exec_wLim {s : State} {la : LimIdx} (hf : s.w.fault = false) (hok : (s.limit la).ok = true) (a : Word64) :
    exec (.wLim la a) s = finish s (writeLimited la (limitedOperand a) true s) := by
  have e : exec (.wLim la a) s =
      finish s ((needLimit la s).bind fun _ => writeLimited la (limitedOperand a) true s) := onUnit_w_clear hf _
  rw [e, needLimit_ok hok]
  rfl

/-- Settles O49, by whether the range check refuses the value. -/
theorem limitedWrite : Obligations.LimitedWrite := by
  intro s la a hs hf hok
  have e := exec_wLim hf hok a
  refine ⟨fun hout => ?_, fun hin => ?_⟩
  · rw [e]
    exact finish_precise (writeLimited_range true hout)
  · exact .of_rule e (writeLimited_appends hs hf hok hin true) (writeLimited_full hs hf hok hin true) rfl

theorem exec_rLim {s : State} {la : LimIdx} (hf : s.r.fault = false) (hok : (s.limit la).ok = true) :
    exec (.rLim la) s = finishWith s ((readLimited la s).bind fun p => .ok (sext64 p.1, p.2)) := by
  have e : exec (.rLim la) s = finishWith s
      ((needLimit la s).bind fun _ => (readLimited la s).bind fun p => .ok (sext64 p.1, p.2)) :=
    onUnit_r_clear hf _
  rw [e, needLimit_ok hok]
  rfl

/-- Settles O55: the rule is one `ReadLimited`, and nothing checks the value it gives. -/
theorem limitedRead : Obligations.LimitedRead := by
  intro s la hs hf hok
  refine .of_rule (exec_rLim hf hok) (fun hroom => ?_) fun hfull => ?_
  · obtain ⟨t, e, h⟩ := readLimited_consumes hs hf hok hroom
    exact ⟨t, by rw [e]; rfl, h⟩
  · rw [readLimited_full hs hf hok hfull]
    rfl

/-! ## The Limit registers (rules R181 to R184) -/

/-- The register `LIM.SET` writes (rule R181). -/
def limitOfOperands (a b : Word64) : Limit where
  ok := true
  min := low32 a
  max := low32 b
  bits := BitVec.ofNat 6 (bitCount (limitedOperand a) (limitedOperand b))

theorem exec_limSet_reversed {a b : Word64} (h : limitedOperand b < limitedOperand a) (la : LimIdx) (s : State) :
    exec (.limSet la a b) s = .next (s.respond (failResponse (causeCode .limit))) := by
  show finish s _ = _
  rw [if_pos h, finish_error, complete_plain]

theorem exec_limSet_ordered {a b : Word64} (h : limitedOperand a ≤ limitedOperand b) (la : LimIdx) (s : State) :
    exec (.limSet la a b) s = .next ((s.setLimit la (limitOfOperands a b)).respond (okResponse none)) := by
  show finish s _ = _
  rw [if_neg (Int.not_lt.mpr h), finish_ok, limitOfOperands]

/-- Settles O35, by the order of the two bounds. -/
theorem limSet : Obligations.LimSet := fun s la a b =>
  ⟨fieldsOf_encode _, fun h => exec_limSet_reversed h la s, fun h =>
    ⟨_, exec_limSet_ordered h la s, rfl, limit_setLimit s la (limitOfOperands a b),
      fun _ hj => limit_setLimit_of_ne s (limitOfOperands a b) hj⟩⟩

section
variable {s : State} {i : Instr} {la : LimIdx} {x : Word64}

/-- A command that reads a field of a Limit register raises `Limit` on a register never set. -/
theorem limitField_unset (e : exec i s = finishWith s ((needLimit la s).bind fun _ => .ok (x, s)))
    (hok : (s.limit la).ok = false) : exec i s = .next (s.respond (failResponse (causeCode .limit))) := by
  rw [e, needLimit_unset hok]
  rfl

/-- On a register that has been set it answers with the field. -/
theorem limitField_set (e : exec i s = finishWith s ((needLimit la s).bind fun _ => .ok (x, s)))
    (hok : (s.limit la).ok = true) : exec i s = .next (s.respond (okResponse (some x))) := by
  rw [e, needLimit_ok hok]
  rfl

end

/-- Settles O36: the three commands differ in the field they read, and each is answered alike. -/
theorem limGet : Obligations.LimGet := fun _ _ =>
  ⟨fieldsOf_encode _, fieldsOf_encode _, fieldsOf_encode _,
    fun hok => ⟨limitField_unset rfl hok, limitField_unset rfl hok, limitField_unset rfl hok⟩,
    fun hok => ⟨limitField_set rfl hok, limitField_set rfl hok, limitField_set rfl hok⟩⟩

end Sys2Proof.Machine

/-! PROOFS. The changed-flag and delta policies (44_delta.md): policy 2 (rules R196 to R207), policy 3 (rules R208,
R209) and policy 4 (rules R210 to R212). What the rule behind a command does is cited; here each of its cases is carried
through the command wrapper (rule R118). -/

namespace Sys2Proof.Machine

/-! ## Policy 2 on the writer (rules R196 to R199) -/

theorem wholeChanged_eq_false {wd : Width} {a b : Word64} :
    wholeChanged wd a b = false ↔ a.toNat % 2 ^ widthBits wd = b.toNat % 2 ^ widthBits wd := by
  rw [wholeChanged, bne_eq_false_iff_eq, ← BitVec.toNat_inj, BitVec.toNat_setWidth, BitVec.toNat_setWidth]

theorem wholeChanged_eq_true {wd : Width} {a b : Word64} :
    wholeChanged wd a b = true ↔ a.toNat % 2 ^ widthBits wd ≠ b.toNat % 2 ^ widthBits wd := by
  rw [← Bool.not_eq_false, ne_eq, wholeChanged_eq_false]

/-- Behind a flag only the low bits of a value are its field. -/
theorem flagged_field_mod (x k : Nat) : (1 + 2 * x) % 2 ^ (1 + k) = (1 + 2 * (x % 2 ^ k)) % 2 ^ (1 + k) := by
  have hvalue : (2 * x) % 2 ^ (1 + k) = 2 * (x % 2 ^ k) := by rw [Nat.pow_add, Nat.pow_one, Nat.mul_mod_mul_left]
  rw [← hvalue, Nat.add_mod_mod]

/-- A row of rules R196 to R199: a command and the width of its value in bits. -/
def IsChangedWrite (s : State) (a b : Word64) (row : Instr × Nat) : Prop :=
  (a.toNat % 2 ^ row.2 = b.toNat % 2 ^ row.2 → AppendsOrFaults s row.1 1 0 (pushStores s.w.valid.toNat 1)) ∧
  (a.toNat % 2 ^ row.2 ≠ b.toNat % 2 ^ row.2 →
    AppendsOrFaults s row.1 (1 + row.2) (1 + 2 * (a.toNat % 2 ^ row.2)) (changedStores s.w.valid.toNat row.2))

theorem isChangedWrite_of_exec {s : State} {a b : Word64} {i : Instr} (wd : Width) (hs : s.Wf)
    (hf : s.w.fault = false) (e : exec i s = onUnit .w s (finish s (writeIfChanged wd a b s))) :
    IsChangedWrite s a b (i, widthBits wd) := by
  have e := e.trans (onUnit_w_clear hf _)
  refine ⟨fun heq => ?_, fun hne => ?_⟩
  · have hc := wholeChanged_eq_false.mpr heq
    exact .of_rule e (writeIfChanged_unchanged hs hf wd a b hc)
      (fun hfull => writeIfChanged_full hs hf wd a b (.inl hfull)) rfl
  · have hc := wholeChanged_eq_true.mpr hne
    exact .of_rule e (writeIfChanged_changed hs hf wd a b hc)
      (fun hfull => writeIfChanged_full hs hf wd a b (.inr ⟨hc, hfull⟩)) (flagged_field_mod _ _)

/-- Settles O50: each command is the policy at the width of its row. -/
theorem changedWrites : Obligations.ChangedWrites := by
  intro s a b i k hs hf hrow
  show IsChangedWrite s a b (i, k)
  revert hrow
  generalize (i, k) = row
  revert row
  simp only [List.forall_mem_cons]
  exact ⟨isChangedWrite_of_exec .w8 hs hf rfl, isChangedWrite_of_exec .w16 hs hf rfl,
    isChangedWrite_of_exec .w32 hs hf rfl, isChangedWrite_of_exec .w64 hs hf rfl, fun _ h => nomatch h⟩

/-! ## Policy 2 on the reader (rules R200 to R207) -/

/-- A row of rules R201 to R207: a command, the width of its value in bits, and whether the value is sign-extended. -/
def IsChangedRead (s : State) (b : Word64) (row : Instr × Nat × Bool) : Prop :=
  (s.nextBit 0 = false →
    DeliversOrFaults s row.1 1 (popFetches s.r.valid.toNat 1) (extended row.2.1 row.2.2 b.toNat)) ∧
  (s.nextBit 0 = true →
    DeliversOrFaults s row.1 (1 + row.2.1) (changedFetches s.r.valid.toNat row.2.1)
      (extended row.2.1 row.2.2 (s.nextField 1 row.2.1)))

theorem isChangedRead_of_exec {s : State} {b : Word64} {i : Instr} (wd : Width) (sx : Bool) (hs : s.Wf)
    (hf : s.r.fault = false) (e : exec i s = onUnit .r s (finishWith s (readIfChanged wd sx b s))) :
    IsChangedRead s b (i, widthBits wd, sx) := by
  have e := e.trans (onUnit_r_clear hf _)
  refine ⟨fun hflag => ?_, fun hflag => ?_⟩
  · rw [← extendWhole_eq]
    exact .of_rule e (readIfChanged_unchanged hs hf wd sx b hflag)
      fun hfull => readIfChanged_full hs hf wd sx b (.inl hfull)
  · rw [← extendWhole_ofNat wd sx (nextField_lt s 1 _)]
    exact .of_rule e (readIfChanged_changed hs hf wd sx b hflag)
      fun hfull => readIfChanged_full hs hf wd sx b (.inr ⟨hflag, hfull⟩)

/-- Settles O56: each command is `ReadIfChanged` at the width and with the extension of its row. -/
theorem changedReads : Obligations.ChangedReads := by
  intro s b i k sx hs hf hrow
  show IsChangedRead s b (i, k, sx)
  revert hrow
  generalize (i, k, sx) = row
  revert row
  simp only [List.forall_mem_cons]
  exact ⟨isChangedRead_of_exec .w8 false hs hf rfl,
    isChangedRead_of_exec .w16 false hs hf rfl, isChangedRead_of_exec .w16 true hs hf rfl,
    isChangedRead_of_exec .w32 false hs hf rfl, isChangedRead_of_exec .w32 true hs hf rfl,
    isChangedRead_of_exec .w64 false hs hf rfl, isChangedRead_of_exec .w64 true hs hf rfl, fun _ h => nomatch h⟩

/-! ## A value the range check refuses behind its flags (rules R208, R210, R234) -/

/-- A rule that must store the bytes of its flags before it checks the range: whichever fault comes first, it is
imprecise. -/
theorem finish_capacity_or_range {s : State} {x : Except Abort State} {flags : Nat}
    (hfull : s.w.cap.toNat < s.w.count.toNat + flags → x = .error (.latch .w .capacity false))
    (hroom : s.w.count.toNat + flags ≤ s.w.cap.toNat → x = .error (.latch .w .range false)) :
    ∃ t, finish s x = .next t ∧
      ImpreciseFault s t .w (if s.w.cap.toNat < s.w.count.toNat + flags then .capacity else .range) := by
  split
  case isTrue h => exact finish_latch (hfull h)
  case isFalse h => exact finish_latch (hroom (Nat.le_of_not_lt h))

/-! ## Policy 3 (rules R208, R209) -/

theorem exec_wChgLim {s : State} {la : LimIdx} (hf : s.w.fault = false) (hok : (s.limit la).ok = true)
    (a b : Word64) : exec (.wChgLim la a b) s =
      finish s (writeLimitedIfChanged la (limitedOperand a) (limitedOperand b) s) := by
  have e : exec (.wChgLim la a b) s = finish s ((needLimit la s).bind fun _ =>
      writeLimitedIfChanged la (limitedOperand a) (limitedOperand b) s) := onUnit_w_clear hf _
  rw [e, needLimit_ok hok]
  rfl

/-- Settles O51: an unchanged value is never checked, and the check of a changed one comes after the flag. -/
theorem changedLimitedWrite : Obligations.ChangedLimitedWrite := by
  intro s la a b hs hf hok
  have e := exec_wChgLim hf hok a b
  obtain ⟨hunchanged, hchanged, hrange, hfull⟩ :=
    writeLimitedIfChanged_cases hs hf hok (limitedOperand a) (limitedOperand b)
  refine ⟨fun heq => ?_, fun hne hin => ?_, fun hne hout => ?_⟩
  · exact .of_rule e (hunchanged heq) (fun h => hfull (.inl h)) rfl
  · exact .of_rule e (hchanged hne hin) (fun h => hfull (.inr ⟨hne, hin, h⟩)) rfl
  · rw [e]
    exact finish_capacity_or_range (fun h => hfull (.inl h)) (hrange hne hout)

theorem exec_rChgLim {s : State} {la : LimIdx} (hf : s.r.fault = false) (hok : (s.limit la).ok = true)
    (b : Word64) : exec (.rChgLim la b) s = finishWith s (readLimitedIfChanged la b s) := by
  have e : exec (.rChgLim la b) s =
      finishWith s ((needLimit la s).bind fun _ => readLimitedIfChanged la b s) := onUnit_r_clear hf _
  rw [e, needLimit_ok hok]
  rfl

/-- Settles O57, by the flag. -/
theorem changedLimitedRead : Obligations.ChangedLimitedRead := by
  intro s la b hs hf hok
  have e := exec_rChgLim hf hok b
  obtain ⟨hunchanged, hchanged, hfull⟩ := readLimitedIfChanged_cases hs hf hok b
  exact ⟨fun hflag => .of_rule e (hunchanged hflag) fun h => hfull (.inl h),
    fun hflag => .of_rule e (hchanged hflag) fun h => hfull (.inr ⟨hflag, h⟩)⟩

/-! ## Policy 4 (rules R210 to R212) -/

theorem diffEligible_iff {l : Limit} {d : Int} : diffEligible l d = true ↔ l.min.toInt < d ∧ d < l.max.toInt := by
  rw [diffEligible, Bool.and_eq_true, decide_eq_true_iff, decide_eq_true_iff]

theorem diffEligible_eq_false {l : Limit} {d : Int} :
    diffEligible l d = false ↔ ¬ (l.min.toInt < d ∧ d < l.max.toInt) := by
  rw [← diffEligible_iff, Bool.not_eq_true]

/-- A value inside the Limit is one the range check lets through, whether or not the instance makes it. -/
theorem not_outOfRange_of_eligible {s : State} {i : LimIdx} {d : Int} (h : diffEligible (s.limit i) d = true) :
    ¬ s.OutOfRange i d := by
  obtain ⟨hmin, hmax⟩ := diffEligible_iff.mp h
  rintro ⟨-, hlow | hhigh⟩
  · exact Int.lt_asymm hlow hmin
  · exact Int.lt_asymm hhigh hmax

section
variable {s : State} {la lb : LimIdx} {u b : Int}

theorem diffChoice_of_eligible (h : diffEligible (s.limit lb) (u - b) = true) :
    diffChoice s la lb u b = (lb, u - b) := if_pos h

theorem diffChoice_of_not_eligible (h : diffEligible (s.limit lb) (u - b) = false) :
    diffChoice s la lb u b = (la, u) := if_neg (ne_true_of_eq_false h)

theorem diffBits_of_eligible (h : diffEligible (s.limit lb) (u - b) = true) :
    diffBits s la lb u b = 2 + (s.limit lb).bits.toNat := by rw [diffBits, diffChoice_of_eligible h]

theorem diffBits_of_not_eligible (h : diffEligible (s.limit lb) (u - b) = false) :
    diffBits s la lb u b = 2 + (s.limit la).bits.toNat := by rw [diffBits, diffChoice_of_not_eligible h]

theorem diffField_of_eligible (h : diffEligible (s.limit lb) (u - b) = true) :
    diffField s la lb u b = 1 + 2 + 4 * limitedField (s.limit lb) (u - b) := by
  rw [diffField, diffChoice_of_eligible h, h, Bool.toNat_true]

theorem diffField_of_not_eligible (h : diffEligible (s.limit lb) (u - b) = false) :
    diffField s la lb u b = 1 + 4 * limitedField (s.limit la) u := by
  rw [diffField, diffChoice_of_not_eligible h, h, Bool.toNat_false]

end

theorem exec_wDiff {s : State} {la lb : LimIdx} (hf : s.w.fault = false) (hla : (s.limit la).ok = true)
    (hlb : (s.limit lb).ok = true) (a b : Word64) : exec (.wDiff la lb a b) s =
      finish s (writeDiff la lb (limitedOperand a) (limitedOperand b) s) := by
  have e : exec (.wDiff la lb a b) s = finish s ((needLimit la s).bind fun _ => (needLimit lb s).bind fun _ =>
      writeDiff la lb (limitedOperand a) (limitedOperand b) s) := onUnit_w_clear hf _
  rw [e, needLimit_ok hla, needLimit_ok hlb]
  rfl

section
variable {s : State} {la lb : LimIdx} {a b : Word64} (hs : s.Wf) (hf : s.w.fault = false)
  (hla : (s.limit la).ok = true) (hlb : (s.limit lb).ok = true) (hne : limitedOperand a ≠ limitedOperand b)

include hs hf hla hlb hne

/-- A changed value that the range check lets through appends its two flags and the field of the choice made. -/
theorem wDiff_appends
    (hin : ¬ s.OutOfRange (diffChoice s la lb (limitedOperand a) (limitedOperand b)).1
      (diffChoice s la lb (limitedOperand a) (limitedOperand b)).2) :
    AppendsOrFaults s (.wDiff la lb a b) (diffBits s la lb (limitedOperand a) (limitedOperand b))
      (diffField s la lb (limitedOperand a) (limitedOperand b))
      (pushStores s.w.valid.toNat (diffBits s la lb (limitedOperand a) (limitedOperand b))) := by
  obtain ⟨-, hchanged, -, hfull⟩ := writeDiff_cases hs hf hla hlb (limitedOperand a) (limitedOperand b)
  exact .of_rule (exec_wDiff hf hla hlb a b) (hchanged hne hin)
    (fun h => hfull (.inr (.inr ⟨hne, hin, h⟩))) rfl

/-- The difference is never refused, because an eligible one is inside its Limit. -/
theorem wDiff_appends_difference (hd : diffEligible (s.limit lb) (limitedOperand a - limitedOperand b) = true) :
    AppendsOrFaults s (.wDiff la lb a b) (2 + (s.limit lb).bits.toNat)
      (1 + 2 + 4 * limitedField (s.limit lb) (limitedOperand a - limitedOperand b))
      (pushStores s.w.valid.toNat (2 + (s.limit lb).bits.toNat)) := by
  rw [← diffBits_of_eligible (la := la) hd, ← diffField_of_eligible (la := la) hd]
  refine wDiff_appends hs hf hla hlb hne ?_
  rw [diffChoice_of_eligible hd]
  exact not_outOfRange_of_eligible hd

theorem wDiff_appends_value (hd : diffEligible (s.limit lb) (limitedOperand a - limitedOperand b) = false)
    (hin : ¬ s.OutOfRange la (limitedOperand a)) :
    AppendsOrFaults s (.wDiff la lb a b) (2 + (s.limit la).bits.toNat)
      (1 + 4 * limitedField (s.limit la) (limitedOperand a))
      (pushStores s.w.valid.toNat (2 + (s.limit la).bits.toNat)) := by
  rw [← diffBits_of_not_eligible hd, ← diffField_of_not_eligible hd]
  refine wDiff_appends hs hf hla hlb hne ?_
  rwa [diffChoice_of_not_eligible hd]

/-- The full value is checked after both flags, so its range fault is imprecise. -/
theorem wDiff_refuses_value (hd : diffEligible (s.limit lb) (limitedOperand a - limitedOperand b) = false)
    (hout : s.OutOfRange la (limitedOperand a)) :
    ∃ t, exec (.wDiff la lb a b) s = .next t ∧ ImpreciseFault s t .w
      (if s.w.cap.toNat < s.w.count.toNat + pushStores s.w.valid.toNat 2 then .capacity else .range) := by
  obtain ⟨-, -, hrange, hfull⟩ := writeDiff_cases hs hf hla hlb (limitedOperand a) (limitedOperand b)
  rw [diffChoice_of_not_eligible hd] at hrange
  rw [exec_wDiff hf hla hlb]
  exact finish_capacity_or_range (fun h => hfull (.inr (.inl ⟨hne, h⟩))) (hrange hne hout)

end

/-- Settles O52, by whether the value changed, whether its difference is eligible, and what the range check says of
the full value. -/
theorem diffWrite : Obligations.DiffWrite := by
  intro s la lb a b hs hf hla hlb
  refine ⟨fun heq => ?_, fun hne helig => ?_, fun hne hnot hin => ?_, fun hne hnot hout => ?_⟩
  · obtain ⟨hunchanged, -, -, hfull⟩ := writeDiff_cases hs hf hla hlb (limitedOperand a) (limitedOperand b)
    exact .of_rule (exec_wDiff hf hla hlb a b) (hunchanged heq) (fun h => hfull (.inl h)) rfl
  · exact wDiff_appends_difference hs hf hla hlb hne (diffEligible_iff.mpr helig)
  · exact wDiff_appends_value hs hf hla hlb hne (diffEligible_eq_false.mpr hnot) hin
  · exact wDiff_refuses_value hs hf hla hlb hne (diffEligible_eq_false.mpr hnot) hout

theorem exec_rDiff {s : State} {la lb : LimIdx} (hf : s.r.fault = false) (hla : (s.limit la).ok = true)
    (hlb : (s.limit lb).ok = true) (b : Word64) : exec (.rDiff la lb b) s = finishWith s (readDiff la lb b s) := by
  have e : exec (.rDiff la lb b) s = finishWith s ((needLimit la s).bind fun _ => (needLimit lb s).bind fun _ =>
      readDiff la lb b s) := onUnit_r_clear hf _
  rw [e, needLimit_ok hla, needLimit_ok hlb]
  rfl

/-- Settles O58, by the two flags: the second one picks the Limit of the field and what its value is added to. -/
theorem diffRead : Obligations.DiffRead := by
  intro s la lb b hs hf hla hlb
  have e := exec_rDiff hf hla hlb b
  obtain ⟨hunchanged, hchanged, hfull⟩ := readDiff_cases hs hf hla hlb b
  refine ⟨fun hflag => ?_, fun hflag hdiff => ?_, fun hflag hvalue => ?_⟩
  · exact .of_rule e (hunchanged hflag) fun h => hfull (.inl h)
  · rw [hdiff] at hchanged hfull
    exact .of_rule e (hchanged hflag) fun h => hfull (.inr ⟨hflag, h⟩)
  · rw [hvalue] at hchanged hfull
    exact .of_rule e (hchanged hflag) fun h => hfull (.inr ⟨hflag, h⟩)

end Sys2Proof.Machine

/-! PROOFS. The exceptions family (60_exceptions.md): the answer to an illegal word (rule R228), the refusal of a
faulted unit (rule R231) and how its latch ends (rule R233), an unset Limit (rule R229), and what a command answered
with a cause did (rules R221 to R223). How a command can end is cited from `exec_ends`; `exec_failed` reads from it
what an answer with `ok = 0` says of the command. -/

namespace Sys2Proof.Machine

/-! ## Illegal commands (rules R86, R228) -/

/-- Settles O9: the step takes the head of the inbox, which is the command, and its word decodes to none. -/
theorem stepAnswersAnIllegalCommand : Obligations.StepAnswersAnIllegalCommand :=
  fun _ _ _ hin h => (step_of_inbox hin).trans (runCommand_of_illegal h _)

/-- A term no legal word stands for has a bit count above 32, and gets the same answer. -/
theorem exec_of_not_wellFormed {i : Instr} (h : i.wellFormed = false) (s : State) : exec i s = answerIllegal s := by
  cases i with
  | wBits n a | rBits n => exact if_neg (of_decide_eq_false h)
  | _ => cases h

/-! ## The refusal of a faulted unit (rule R231) -/

/-- The wrapper of rule R118 stands around every legal command of a unit that does not start a pass. -/
theorem exec_eq_onUnit {i : Instr} {u : UnitId} (hw : i.wellFormed = true) (hu : unitOf i = some u)
    (hi : startsPass i = false) (s : State) : ∃ rule, exec i s = onUnit u s rule := by
  cases i with
  | wBits n a | rBits n => cases hu; exact ⟨_, withLegalCount_ok (of_decide_eq_true hw) s _⟩
  | wClear | wSetArray a b | rClear | rSetArray a b => cases hi
  | limSet la a b | limGetMin la | limGetMax la | limGetBits la | statRd reg => cases hu
  | _ => cases hu; exact ⟨_, rfl⟩

/-- Settles O17: the wrapper looks at the latch before the command's own rule. -/
theorem faultedUnitRefuses : Obligations.FaultedUnitRefuses := by
  intro s i u hw hu hi hf
  obtain ⟨rule, e⟩ := exec_eq_onUnit hw hu hi s
  exact e.trans (onUnit_faulted hf rule)

/-! ## The end of a latch (rules R35, R233) -/

/-- Legal or not, a command of a faulted unit that does not start a pass is only answered. -/
theorem exec_faulted_answered {s : State} {i : Instr} {u : UnitId} (hu : unitOf i = some u)
    (hi : startsPass i = false) (hf : (s.unit u).fault = true) : ∃ x, exec i s = .next (s.respond x) := by
  cases hw : i.wellFormed
  · exact ⟨_, exec_of_not_wellFormed hw s⟩
  · exact ⟨_, faultedUnitRefuses s i u hw hu hi hf⟩

/-- `SETARRAY` leaves its unit alone or starts a pass in a new window. -/
theorem bindWindow_unit {s t : State} {u : UnitId} {a b : Word64} (e : finish s (bindWindow u a b s) = .next t) :
    t.unit u = s.unit u ∨ ∃ x : BitUnit, t.unit u = x.startPass := by
  obtain ⟨-, e'⟩ | ⟨-, e'⟩ := bindWindow_cases u a b s
  · rw [e'] at e
    cases e
    rw [respond_unit, unit_setUnit]
    exact .inr ⟨{ s.unit u with base := low32 a, cap := low32 b }, rfl⟩
  · rw [e'] at e
    cases e
    exact .inl (respond_unit s _ u)

theorem exec_startsPass {s t : State} {i : Instr} {u : UnitId} (hu : unitOf i = some u) (hi : startsPass i = true)
    (e : exec i s = .next t) : t.unit u = s.unit u ∨ ∃ x : BitUnit, t.unit u = x.startPass := by
  cases i with
  | wClear => cases hu; cases e; exact .inr ⟨s.w, rfl⟩
  | rClear => cases hu; cases e; exact .inr ⟨s.r, rfl⟩
  | wSetArray a b | rSetArray a b => cases hu; exact bindWindow_unit e
  | _ => cases hi

/-- What a command can do to a faulted unit: nothing, or start a pass as the unit's `CLEAR` or `SETARRAY`. -/
theorem exec_unit_of_faulted {s t : State} {i : Instr} {u : UnitId} (e : exec i s = .next t)
    (hf : (s.unit u).fault = true) :
    t.unit u = s.unit u ∨ (unitOf i = some u ∧ startsPass i = true ∧ ∃ x : BitUnit, t.unit u = x.startPass) := by
  by_cases hu : unitOf i = some u
  · cases hi : startsPass i
    · obtain ⟨x, e'⟩ := exec_faulted_answered hu hi hf
      cases e'.symm.trans e
      exact .inl (respond_unit s x u)
    · exact (exec_startsPass hu hi e).imp_right fun h => ⟨hu, rfl, h⟩
  · exact .inl ((exec_course s i).unit_of_ne hu e)

/-- Settles O25: an untouched unit keeps its latch and its cause, and the start of a pass clears both. -/
theorem latchEndsOnlyWithThePass : Obligations.LatchEndsOnlyWithThePass := by
  intro s t i u e hf
  obtain hsame | ⟨hu, hi, x, hpass⟩ := exec_unit_of_faulted e hf
  · rw [hsame]
    exact ⟨fun hclear => (nomatch hf.symm.trans hclear), fun _ => rfl⟩
  · rw [hpass]
    exact ⟨fun _ => ⟨hu, hi, rfl, rfl, rfl, rfl⟩, fun hset => (nomatch (startPass_fault x).symm.trans hset)⟩

/-! ## An unset Limit (rule R229) -/

section
variable {s : State}

theorem needLimit_bind_unset {i : LimIdx} (hok : (s.limit i).ok = false) {α : Type} (f : Unit → Except Abort α) :
    (needLimit i s).bind f = .error (.plain .limit) := by
  rw [needLimit_unset hok]
  rfl

/-- Of two Limits, either one that is unset ends the rule. -/
theorem needLimit_bind_unset_pair {i la lb : LimIdx} (hi : i ∈ [la, lb]) (hok : (s.limit i).ok = false) {α : Type}
    (f : Unit → Except Abort α) :
    ((needLimit la s).bind fun _ => (needLimit lb s).bind f) = .error (.plain .limit) := by
  obtain rfl | hi := List.mem_cons.mp hi
  · exact needLimit_bind_unset hok _
  · obtain rfl := List.mem_singleton.mp hi
    cases hla : (s.limit la).ok
    · exact needLimit_bind_unset hla _
    · rw [needLimit_ok hla]
      exact needLimit_bind_unset hok f

theorem writerCommand_plain (hf : s.w.fault = false) {x : Except Abort State} {c : Cause}
    (e : x = .error (.plain c)) :
    onUnit .w s (finish s x) = .next (s.respond (failResponse (causeCode c))) := by
  rw [onUnit_w_clear hf, e, finish_error, complete_plain]

theorem readerCommand_plain (hf : s.r.fault = false) {x : Except Abort (Word64 × State)} {c : Cause}
    (e : x = .error (.plain c)) :
    onUnit .r s (finishWith s x) = .next (s.respond (failResponse (causeCode c))) := by
  rw [onUnit_r_clear hf, e, finishWith_error, complete_plain]

end

/-- Settles O37: every command that names Limits asks for them before its own rule. -/
theorem unsetLimitFaults : Obligations.UnsetLimitFaults := by
  intro s i la hmem hok hclear
  cases i with
  | limGetMin l | limGetMax l | limGetBits l =>
    obtain rfl := List.mem_singleton.mp hmem
    exact limitField_unset rfl hok
  | wLim l a | wChgLim l a b =>
    obtain rfl := List.mem_singleton.mp hmem
    exact writerCommand_plain (hclear .w rfl) (needLimit_bind_unset hok _)
  | rLim l | rChgLim l b =>
    obtain rfl := List.mem_singleton.mp hmem
    exact readerCommand_plain (hclear .r rfl) (needLimit_bind_unset hok _)
  | wDiff l l' a b => exact writerCommand_plain (hclear .w rfl) (needLimit_bind_unset_pair hmem hok _)
  | rDiff l l' b => exact readerCommand_plain (hclear .r rfl) (needLimit_bind_unset_pair hmem hok _)
  | _ => exact absurd hmem List.not_mem_nil

/-! ## What a command answered with a cause did (rules R221 to R223) -/

/-- The causes have codes of their own (rule R220). -/
theorem causeCode_injective : Function.Injective causeCode := by
  intro c c'
  cases c <;> cases c' <;> decide

theorem failResponse_injective : Function.Injective failResponse :=
  fun _ _ h => congrArg Response.cause h

theorem cause_eq_of_failResponse {c c' : Cause} (h : failResponse (causeCode c) = failResponse (causeCode c')) :
    c = c' :=
  causeCode_injective (failResponse_injective h)

/-- Of a command that completed, the answer is the only response it added. -/
theorem Done.responses {s t : State} {i : Instr} (h : Done s t i) : t.responses = s.responses := by
  unfold Done at h
  split at h
  · exact (congrArg State.responses (GlobalDone.frame h) :)
  · exact (congrArg State.responses (WriterDone.frame h) :)
  · exact (congrArg State.responses (ReaderDone.frame h) :)

/-- The last response, read from the state that gave it. -/
theorem answer_eq {s t : State} {x y : Response} (ht : t.responses = s.responses)
    (ha : (t.respond x).responses = s.responses ++ [y]) : x = y := by
  rw [respond_responses, ht] at ha
  exact List.singleton_inj.mp (List.append_cancel_left ha)

/-- The three ways a command in a well-formed state comes to be answered with a cause. -/
inductive Failed (s : State) (i : Instr) (c : Cause) : State → Prop
  | unchanged (hc : c ∈ [Cause.illegal, Cause.limit, Cause.bind]) :
    Failed s i c (s.respond (failResponse (causeCode c)))
  | refused (u : UnitId) (hu : unitOf i = some u) (hf : (s.unit u).fault = true)
      (hc : (s.unit u).cause = causeCode c) : Failed s i c (s.respond (failResponse (causeCode c)))
  | latched (u : UnitId) (precise : Bool) (hu : unitOf i = some u) (hf : (s.unit u).fault = false)
      (hc : canLatch u c) : Failed s i c ((s.latchFault u c precise).respond (failResponse (causeCode c)))

/-- A completed command answers with `ok = 1`, and each of the other ends with its own cause. -/
theorem exec_failed {s t : State} {i : Instr} {c : Cause} (hs : s.Wf) (e : exec i s = .next t)
    (ha : t.responses = s.responses ++ [failResponse (causeCode c)]) : Failed s i c t := by
  cases exec_ends hs i with
  | unchanged c' hc e' =>
    cases e'.symm.trans e
    obtain rfl := cause_eq_of_failResponse (answer_eq rfl ha)
    exact .unchanged hc
  | refused u hu hi hf e' =>
    cases e'.symm.trans e
    have hcause := failResponse_injective (answer_eq rfl ha)
    rw [hcause]
    exact .refused u hu hf hcause
  | latched u c' precise hu hi hf hc e' =>
    cases e'.symm.trans e
    obtain rfl := cause_eq_of_failResponse (answer_eq (latchFault_responses s u c' precise) ha)
    exact .latched u precise hu hf hc
  | completed t' res hd e' =>
    cases e'.symm.trans e
    exact Bool.noConfusion (congrArg Response.ok (answer_eq hd.responses ha))

/-- The four latching causes are not the three that change nothing (rule R221). -/
theorem not_mem_nonLatching {c : Cause} (h : c ∈ [Cause.capacity, Cause.unflushed, Cause.backpatch, Cause.range]) :
    c ∉ [Cause.illegal, Cause.limit, Cause.bind] := by
  revert h
  cases c <;> decide

theorem canLatch.mem_latching {u : UnitId} {c : Cause} (h : canLatch u c) :
    c ∈ [Cause.capacity, Cause.unflushed, Cause.backpatch, Cause.range] := by
  obtain ⟨-, rfl | rfl | rfl | rfl⟩ | ⟨-, rfl⟩ := h <;> decide

/-- Settles O23: two of the three ways are an answer alone, and the third has another cause. -/
theorem nonLatchingFaultsChangeNothing : Obligations.NonLatchingFaultsChangeNothing := by
  intro s t i c hs hc e ha
  cases exec_failed hs e ha with
  | unchanged _ => rfl
  | refused u hu hf hcause => rfl
  | latched u precise hu hf hlatch => exact absurd hc (not_mem_nonLatching hlatch.mem_latching)

/-- The reader latches `CAPACITY` alone (rule R221). -/
theorem canLatch.of_reader {u : UnitId} {c : Cause} (h : canLatch u c) (hu : u = .r) : c = .capacity := by
  obtain ⟨rfl, -⟩ | ⟨-, hc⟩ := h
  · cases hu
  · exact hc

/-- So a well-formed faulted reader holds that cause. -/
theorem State.Wf.reader_cause {s : State} (hs : s.Wf) {u : UnitId} {c : Cause} (hf : (s.unit u).fault = true)
    (hc : (s.unit u).cause = causeCode c) (hu : u = .r) : c = .capacity := by
  subst hu
  exact causeCode_injective (hc.symm.trans (hs.readerCause hf))

/-- Settles O24: the answer came from the refusal of a faulted unit or from a fault that was latched. -/
theorem latchingFaultsFollowTheRule : Obligations.LatchingFaultsFollowTheRule := by
  intro s t i c hs hc e ha
  cases exec_failed hs e ha with
  | unchanged h => exact absurd h (not_mem_nonLatching hc)
  | refused u hu hf hcause => exact ⟨u, hu, hs.reader_cause hf hcause, .inl ⟨hf, rfl⟩⟩
  | latched u precise hu hf hlatch =>
    exact ⟨u, hu, hlatch.of_reader, .inr ⟨hf, imprecise_of_latch s u c precise⟩⟩

end Sys2Proof.Machine

/-! PROOFS. The reset and hazards family (70_reset_and_hazards.md): what the reset event leaves (rules R250, R34), and
the one response to every command (rules R265, R266, R80). How a command can end is cited from `exec_ends`. -/

namespace Sys2Proof.Machine

/-! ## The reset event (rules R250, R34) -/

@[simp] theorem limit_hostReset (s : State) (i : LimIdx) : s.hostReset.limit i = Limit.reset :=
  limit_resetWith s.params i

/-- No byte is known after a reset: each reads as a draw of the new epoch (20_memory.md rule R60). -/
@[simp] theorem byteAt_hostReset (s : State) (a : Nat) :
    s.hostReset.byteAt a = Config.unwrittenByte (s.memEpoch + 1) a := rfl

/-- Settles O10: the step takes the reset event from the inbox, and the state it leaves is read field by field. -/
theorem resetEvent : Obligations.ResetEvent := by
  intro s rest h
  refine ⟨State.hostReset { s with inbox := rest }, step_of_inbox h, hostReset_w _, hostReset_r _, fun i => ?_,
    hostReset_params _, fun a => byteAt_hostReset _ a, hostReset_inbox _, hostReset_responses _⟩
  rw [limit_hostReset]
  rfl

/-! ## The form of a response (30_encoding.md rule R80) -/

/-- The codes of 60_exceptions.md rule R220 are 1 to 7. -/
theorem causeCode_range (c : Cause) : 1 ≤ (causeCode c).toNat ∧ (causeCode c).toNat ≤ 7 := by
  cases c <;> decide

/-- A cause a faulted unit has latched is among them (rule R221). -/
theorem State.Wf.unit_cause_range {s : State} (hs : s.Wf) {u : UnitId} (hf : (s.unit u).fault = true) :
    1 ≤ (s.unit u).cause.toNat ∧ (s.unit u).cause.toNat ≤ 7 := by
  cases u with
  | w =>
    obtain ⟨hlo, hhi⟩ := hs.writerCause hf
    exact ⟨hlo, Nat.le_trans hhi (by decide)⟩
  | r =>
    have hc : (s.unit .r).cause = causeCode .capacity := hs.readerCause hf
    rw [hc]
    exact causeCode_range .capacity

/-- The two forms of a response: cause 0 with `ok = 1`, one of the seven causes and no result with `ok = 0`. -/
def Response.HasForm (x : Response) : Prop :=
  (x.ok = true → x.cause = 0) ∧ (x.ok = false → 1 ≤ x.cause.toNat ∧ x.cause.toNat ≤ 7 ∧ x.res = none)

theorem okResponse_hasForm (res : Option Word64) : (okResponse res).HasForm :=
  ⟨fun _ => rfl, fun h => Bool.noConfusion h⟩

theorem failResponse_hasForm {cause : BitVec 4} (h : 1 ≤ cause.toNat ∧ cause.toNat ≤ 7) :
    (failResponse cause).HasForm := by
  obtain ⟨hlo, hhi⟩ := h
  exact ⟨fun hok => Bool.noConfusion hok, fun _ => ⟨hlo, hhi, rfl⟩⟩

/-! ## One response to every command (rules R265, R266) -/

/-- The outcome goes on from `s` with one more response, of the form of rule R80, and the host's plans untouched. -/
inductive AnsweredOnce (s : State) : Host.Outcome State Fault Refusal → Prop
  | respond {t : State} {x : Response} (hresponses : t.responses = s.responses) (hinbox : t.inbox = s.inbox)
      (hx : x.HasForm) : AnsweredOnce s (.next (t.respond x))

/-- Of a command that completed, nothing is taken from the host's plans. -/
theorem Done.inbox {s t : State} {i : Instr} (h : Done s t i) : t.inbox = s.inbox := by
  unfold Done at h
  split at h
  · exact (congrArg State.inbox (GlobalDone.frame h) :)
  · exact (congrArg State.inbox (WriterDone.frame h) :)
  · exact (congrArg State.inbox (ReaderDone.frame h) :)

theorem answerIllegal_answeredOnce (s : State) : AnsweredOnce s (answerIllegal s) :=
  .respond rfl rfl (failResponse_hasForm (causeCode_range .illegal))

/-- Each of the four ways a command can end is one response. -/
theorem exec_answeredOnce {s : State} (hs : s.Wf) (i : Instr) : AnsweredOnce s (exec i s) := by
  cases exec_ends hs i with
  | unchanged c hc e =>
    rw [e]
    exact .respond rfl rfl (failResponse_hasForm (causeCode_range c))
  | refused u hu hi hf e =>
    rw [e]
    exact .respond rfl rfl (failResponse_hasForm (hs.unit_cause_range hf))
  | latched u c precise hu hi hf hc e =>
    rw [e]
    exact .respond (latchFault_responses s u c precise) (latchFault_inbox s u c precise)
      (failResponse_hasForm (causeCode_range c))
  | completed t res hd e =>
    rw [e]
    exact .respond hd.responses hd.inbox (okResponse_hasForm res)

theorem runCommand_answeredOnce {s : State} (hs : s.Wf) (c : Command) : AnsweredOnce s (runCommand c s) := by
  cases h : decode c with
  | some i =>
    rw [runCommand_of_decode h]
    exact exec_answeredOnce hs i
  | none =>
    rw [runCommand_of_illegal h]
    exact answerIllegal_answeredOnce s

/-- Settles O15: a legal word's command ends in one response, and an illegal word gets the answer of rule R228. -/
theorem everyCommandIsAnsweredOnce : Obligations.EveryCommandIsAnsweredOnce := by
  intro s c hs
  have h := runCommand_answeredOnce hs c
  generalize runCommand c s = o at h ⊢
  obtain ⟨hresponses, hinbox, hx⟩ := h
  exact ⟨_, _, rfl, by rw [respond_responses, hresponses], hinbox, hx⟩

end Sys2Proof.Machine
